-- ==== Sys2Proof/Word.lean ====
section
/-! DEFINITION. The word types of I2SGEN (R11): a command word, a 16-bit sample, index or counter, and a byte. -/

namespace Sys2Proof

/-- A command word and a register of the register window (R33, R71). -/
abbrev Word := BitVec 32

/-- A sample word, a loop count, a command-word index (R15, R16, R26). -/
abbrev Half := BitVec 16

/-- An opcode, an amplitude, a counter of the clock/framing unit, a byte of the command image (R23, R29, R52). -/
abbrev Byte := BitVec 8

end Sys2Proof
end

