-- ==== Sys2Proof/Syntax.lean ====
section
/-! DEFINITION. The commands of I2SGEN (R74), one constructor per row of spec/opcode_table.json, their mnemonics,
and the assembler's abstract syntax (R80). Operands have the exact width of their field (R72), so every term of
`Instr` is a command and needs no further check; an assembler statement has unbounded operands and is checked in
WellFormed.lean. -/

namespace Sys2Proof

/-- A command with its operand values (R72, R74). -/
inductive Instr
  | nop
  | dly8 (k : Byte)
  | dly16 (k : Half)
  | cfg
  | start
  | txi (v : Half)
  | txs
  | tone (f : Half) (a : Byte)
  | getf
  | getn
  | ldlc (v : Half)
  | djnz (t : Half)
  | jmp (t : Half)
  | halt
  deriving DecidableEq, Repr

/-- The mnemonics of R74. -/
inductive Mnemonic
  | nop
  | dly8
  | dly16
  | cfg
  | start
  | txi
  | txs
  | tone
  | getf
  | getn
  | ldlc
  | djnz
  | jmp
  | halt
  deriving DecidableEq, Repr

/-- The mnemonic of a command. -/
def Instr.mnemonic : Instr → Mnemonic
  | .nop => .nop
  | .dly8 _ => .dly8
  | .dly16 _ => .dly16
  | .cfg => .cfg
  | .start => .start
  | .txi _ => .txi
  | .txs => .txs
  | .tone _ _ => .tone
  | .getf => .getf
  | .getn => .getn
  | .ldlc _ => .ldlc
  | .djnz _ => .djnz
  | .jmp _ => .jmp
  | .halt => .halt

/-- An assembler operand (R80): a number, or a label by its characters. -/
inductive Operand
  | num (n : Int)
  | label (name : List Char)
  deriving DecidableEq, Repr

/-- What stands before the operands of a statement (R80, R81): a command's mnemonic or the pseudo-instruction. -/
inductive Head
  | command (m : Mnemonic)
  | delay
  deriving DecidableEq, Repr

/-- A statement of R80 with its operands, not yet checked. -/
structure Statement where
  head : Head
  operands : List Operand
  deriving DecidableEq, Repr

/-- A source line of R80: an optional label and an optional statement (the comment is dropped). -/
structure Line where
  label : Option (List Char)
  statement : Option Statement
  deriving DecidableEq, Repr

end Sys2Proof
end

