-- ==== Sys2Proof/Decode.lean ====
section
/-! DEFINITION. The encoding of commands: the opcode map (R74), the decoder (R75), total on every word and every byte
string, which rejects by name (R76), and after it the encoder (R80's word column). -/

namespace Sys2Proof

/-- The operand forms of R72. -/
inductive Form
  | none
  | u8
  | u16
  | tone
  deriving DecidableEq, Repr

/-- A row of the opcode map (R74). -/
structure OpRow where
  opcode : Byte
  mnemonic : Mnemonic
  form : Form
  matchWord : Word
  mask : Word
  deriving DecidableEq, Repr

/-- The opcode map (R74). -/
def opcodeMap : List OpRow := [
  ⟨0x01, .nop, .none, 0x01000000, 0xFFFFFFFF⟩,
  ⟨0x02, .dly8, .u8, 0x02000000, 0xFFFFFF00⟩,
  ⟨0x03, .dly16, .u16, 0x03000000, 0xFFFF0000⟩,
  ⟨0x10, .cfg, .none, 0x10000000, 0xFFFFFFFF⟩,
  ⟨0x11, .start, .none, 0x11000000, 0xFFFFFFFF⟩,
  ⟨0x12, .txi, .u16, 0x12000000, 0xFFFF0000⟩,
  ⟨0x13, .txs, .none, 0x13000000, 0xFFFFFFFF⟩,
  ⟨0x20, .tone, .tone, 0x20000000, 0xFF000000⟩,
  ⟨0x21, .getf, .none, 0x21000000, 0xFFFFFFFF⟩,
  ⟨0x22, .getn, .none, 0x22000000, 0xFFFFFFFF⟩,
  ⟨0x30, .ldlc, .u16, 0x30000000, 0xFFFF0000⟩,
  ⟨0x31, .djnz, .u16, 0x31000000, 0xFFFF0000⟩,
  ⟨0x32, .jmp, .u16, 0x32000000, 0xFFFF0000⟩,
  ⟨0x3F, .halt, .none, 0x3F000000, 0xFFFFFFFF⟩]

/-- Why a word or a byte string is no command (R76; the last: fewer than the four bytes of a word, R71). -/
inductive DecodeReject
  | unknownOpcode
  | mustBeZero
  | truncated
  deriving DecidableEq, Repr

/-- What the decoder answers (R75): a command, or `illegal` with the name of its reason. -/
inductive Decoded
  | command (i : Instr)
  | illegal (why : DecodeReject)
  deriving DecidableEq, Repr

/-- opcode = w[31:24] (R71). -/
def opcodeOf (w : Word) : Byte := w.extractLsb' 24 8

/-- The operand bits a form marks "must be 0" (R72). -/
def Form.mustBeZero : Form → Word
  | .none => 0x00FFFFFF
  | .u8 => 0x00FFFF00
  | .u16 => 0x00FF0000
  | .tone => 0x00000000

/-- k = w[7:0], and the amplitude field a of TONE (R72). -/
def low8 (w : Word) : Byte := w.extractLsb' 0 8

/-- v = w[15:0] (R72). -/
def low16 (w : Word) : Half := w.extractLsb' 0 16

/-- f = w[23:8] (R72). -/
def mid16 (w : Word) : Half := w.extractLsb' 8 16

/-- The command of a mnemonic with the operands a word holds for it (R72, R75). -/
def assembleFields (m : Mnemonic) (w : Word) : Instr :=
  match m with
  | .nop => .nop
  | .dly8 => .dly8 (low8 w)
  | .dly16 => .dly16 (low16 w)
  | .cfg => .cfg
  | .start => .start
  | .txi => .txi (low16 w)
  | .txs => .txs
  | .tone => .tone (mid16 w) (low8 w)
  | .getf => .getf
  | .getn => .getn
  | .ldlc => .ldlc (low16 w)
  | .djnz => .djnz (low16 w)
  | .jmp => .jmp (low16 w)
  | .halt => .halt

/-- decode(w) (R75): the row of the opcode, then the form's must-be-0 bits. -/
def decode (w : Word) : Decoded :=
  match opcodeMap.find? fun r => r.opcode == opcodeOf w with
  | none => .illegal .unknownOpcode
  | some r =>
    if w &&& r.form.mustBeZero = 0 then .command (assembleFields r.mnemonic w)
    else .illegal .mustBeZero

/-- A word from its four bytes, bits 7:0 first (R52). -/
def wordOfBytes (b0 b1 b2 b3 : Byte) : Word := b3 ++ b2 ++ b1 ++ b0

/-- The four bytes of a word, bits 7:0 first (R52). -/
def bytesOfWord (w : Word) : List Byte :=
  [w.extractLsb' 0 8, w.extractLsb' 8 8, w.extractLsb' 16 8, w.extractLsb' 24 8]

/-- Decoding of a byte image's first word, with the bytes after it (R52, R71, R75). -/
def decodeBytes : List Byte → Decoded × List Byte
  | b0 :: b1 :: b2 :: b3 :: rest => (decode (wordOfBytes b0 b1 b2 b3), rest)
  | short => (.illegal .truncated, short)

/-- The command the decoder reads, or none. -/
def Decoded.toOption : Decoded → Option Instr
  | .command i => some i
  | .illegal _ => none

/-- The host's reading of a row's word: its `nbits` bits, laid out as bytes and given to the decoder. -/
def decodeTableWord (nbits w : Nat) : Option Instr :=
  (decodeBytes (bytesOfWord (BitVec.ofNat 32 (w % 2 ^ nbits)))).1.toOption

/-- A word of form NONE (R72). -/
def wordNone (op : Byte) : Word := op ++ (0 : BitVec 24)

/-- A word of form U8 (R72). -/
def wordU8 (op : Byte) (k : Byte) : Word := op ++ (0 : BitVec 16) ++ k

/-- A word of form U16 (R72). -/
def wordU16 (op : Byte) (v : Half) : Word := op ++ (0 : BitVec 8) ++ v

/-- A word of form TONE (R72). -/
def wordTone (op : Byte) (f : Half) (a : Byte) : Word := op ++ f ++ a

/-- The word of a command (R74, R80). -/
def encode : Instr → Word
  | .nop => wordNone 0x01
  | .dly8 k => wordU8 0x02 k
  | .dly16 k => wordU16 0x03 k
  | .cfg => wordNone 0x10
  | .start => wordNone 0x11
  | .txi v => wordU16 0x12 v
  | .txs => wordNone 0x13
  | .tone f a => wordTone 0x20 f a
  | .getf => wordNone 0x21
  | .getn => wordNone 0x22
  | .ldlc v => wordU16 0x30 v
  | .djnz t => wordU16 0x31 t
  | .jmp t => wordU16 0x32 t
  | .halt => wordNone 0x3F

end Sys2Proof
end

