-- ==== Sys2Proof/Config.lean ====
section
/-! DEFINITION. The configuration record of R6, and the free value of the model: the environment's stall draws (R44).
Derived constants and the reference configuration stand in Machine/Derived.lean, the checks of R7 in WellFormed.lean. -/

namespace Sys2Proof

/-- How BCLK is produced (R6 VARIANT). -/
inductive Variant
  | toggle
  | usart
  deriving DecidableEq, Repr

/-- What the second half-period emits (R6 WAVE_NEG). -/
inductive WaveNeg
  | negate
  | zero
  deriving DecidableEq, Repr

/-- The configuration record of R6: every synthesis-time parameter.
The legal values are the checks of R6 and R7 (`Config.WellFormed`). -/
structure Config where
  /-- VARIANT -/
  variant : Variant
  /-- H, the half-bit period in cycles -/
  h : Nat
  /-- W, bits per channel sample -/
  w : Nat
  /-- F_CPU, also written P: base clock frequency in Hz and oscillator period in ticks -/
  fCpu : Nat
  /-- BCLK_IDLE -/
  bclkIdle : Bool
  /-- START_LATENCY (L); 0 and not read in the TOGGLE variant -/
  startLatency : Nat
  /-- WAVE_NEG -/
  waveNeg : WaveNeg
  /-- WAVE_LAT: GETN returns the sample of the state before the update -/
  waveLat : Bool
  /-- PROG_WORDS -/
  progWords : Nat
  /-- MMIO_BASE -/
  mmioBase : Nat
  /-- C_CFG -/
  cCfg : Nat
  /-- C_START -/
  cStart : Nat
  /-- C_TX -/
  cTx : Nat
  /-- C_TONE -/
  cTone : Nat
  /-- C_GETF -/
  cGetf : Nat
  /-- C_GETN -/
  cGetn : Nat
  /-- C_LDLC -/
  cLdlc : Nat
  /-- C_DJNZ -/
  cDjnz : Nat
  /-- C_JMP -/
  cJmp : Nat
  /-- C_HALT -/
  cHalt : Nat
  deriving DecidableEq, Repr

/-- FREE VALUE (log 4): the environment's choice at the n-th stall draw of a run, true for a stall (R44, I17).
It has no body, so nothing can be proved of any draw. -/
opaque Config.stallDraw : Nat → Bool

end Sys2Proof
end

