-- ==== Sys2Proof/Machine/Derived.lean ====
section
/-! DEFINITION. The derived constants of a configuration (R8, R9, R102), the identity string (R1) and the reference
configuration REF (R10). -/

namespace Sys2Proof.Config

/-- BIT_PERIOD = 2 * H (R8). -/
def bitPeriod (c : Config) : Nat := 2 * c.h

/-- SAMPLE_PERIOD = BIT_PERIOD * W (R8). -/
def samplePeriod (c : Config) : Nat := c.bitPeriod * c.w

/-- FRAME_PERIOD = 2 * SAMPLE_PERIOD (R8). -/
def framePeriod (c : Config) : Nat := 2 * c.samplePeriod

/-- EPOCH (R9): cycles from the release to bit 0 of the stream. -/
def epoch (c : Config) : Nat :=
  match c.variant with
  | .toggle => 0
  | .usart => c.startLatency - c.h

/-- TX_SETUP = BIT_PERIOD (R6, R102). -/
def txSetup (c : Config) : Nat := c.bitPeriod

/-- k_load(s) = EPOCH + 2H(sW + 1) (R105): the load point of slot s, counted from the release. -/
def loadCycle (c : Config) (s : Nat) : Nat := c.epoch + 2 * c.h * (s * c.w + 1)

/-- The identity string `I2SGEN-v7-<VARIANT>` (R1). -/
def identity (c : Config) : String :=
  match c.variant with
  | .toggle => "I2SGEN-v7-TOGGLE"
  | .usart => "I2SGEN-v7-USART"

/-- The reference configuration REF (R10).
It is not a claim about the chip; the model takes it at reset only (log 3, DESIGN CHOICE). -/
def ref : Config where
  variant := .toggle
  h := 4
  w := 12
  fCpu := 16000000
  bclkIdle := false
  startLatency := 0
  waveNeg := .negate
  waveLat := false
  progWords := 256
  mmioBase := 0
  cCfg := 12
  cStart := 1
  cTx := 2
  cTone := 6
  cGetf := 4
  cGetn := 20
  cLdlc := 1
  cDjnz := 2
  cJmp := 2
  cHalt := 1

end Sys2Proof.Config
end

