-- ==== Sys2Proof/WellFormed.lean ====
section
/-! DEFINITION. What may be launched and assembled: the checks of a configuration record (R7, and R6's legal values), and the operand
counts and ranges of an assembler statement (R80, R87). A term of `Instr` needs no check: its operands have the exact
widths of R72. -/

namespace Sys2Proof

/-- The checks of R7, by name, and after them the two legal values of R6's table that R7 does not repeat (log 10):
`base` of MMIO_BASE, and `toggleLat` of START_LATENCY in the TOGGLE variant. -/
inductive ConfigCheck
  | h
  | w
  | p
  | lat
  | fit
  | mem
  | cost
  | base
  | toggleLat
  deriving DecidableEq, Repr

namespace Config

/-- check H (R7). -/
def checkH (c : Config) : Bool := 1 ≤ c.h && c.h ≤ 8

/-- check W (R7). -/
def checkW (c : Config) : Bool := 1 ≤ c.w && c.w ≤ 16

/-- check P (R7). -/
def checkP (c : Config) : Bool := 2 ≤ c.fCpu && c.fCpu ≤ 2 ^ 31

/-- check LAT (R7): in the USART variant H ≤ START_LATENCY. -/
def checkLat (c : Config) : Bool := c.variant == .toggle || c.h ≤ c.startLatency

/-- check FIT (R7): EPOCH + SAMPLE_PERIOD ≤ 256. -/
def checkFit (c : Config) : Bool := c.epoch + c.samplePeriod ≤ 256

/-- check MEM (R7). -/
def checkMem (c : Config) : Bool := 1 ≤ c.progWords && c.progWords ≤ 65536

/-- check COST (R7): every C_x ≥ 1. -/
def checkCost (c : Config) : Bool :=
  1 ≤ c.cCfg && 1 ≤ c.cStart && 1 ≤ c.cTx && 1 ≤ c.cTone && 1 ≤ c.cGetf &&
    1 ≤ c.cGetn && 1 ≤ c.cLdlc && 1 ≤ c.cDjnz && 1 ≤ c.cJmp && 1 ≤ c.cHalt

/-- The legal values of MMIO_BASE (R6): a multiple of 256. -/
def checkBase (c : Config) : Bool := c.mmioBase % 256 == 0

/-- The legal value of START_LATENCY in the TOGGLE variant (R6): fixed at 0. -/
def checkToggleLat (c : Config) : Bool := c.variant == .usart || c.startLatency == 0

/-- The outcome of one named check. -/
def passes (c : Config) : ConfigCheck → Bool
  | .h => c.checkH
  | .w => c.checkW
  | .p => c.checkP
  | .lat => c.checkLat
  | .fit => c.checkFit
  | .mem => c.checkMem
  | .cost => c.checkCost
  | .base => c.checkBase
  | .toggleLat => c.checkToggleLat

/-- The checks in R7's order, then R6's. -/
def checks : List ConfigCheck := [.h, .w, .p, .lat, .fit, .mem, .cost, .base, .toggleLat]

/-- The first check a record fails (R7): its launch is refused under that name. -/
def firstFailure (c : Config) : Option ConfigCheck := checks.find? fun k => !c.passes k

/-- A legal configuration record: it passes every check (R6, R7). -/
def WellFormed (c : Config) : Bool := checks.all c.passes

end Config

namespace Statement

/-- A number operand in a closed range (R80). -/
def numIn (lo hi : Int) : Operand → Bool
  | .num n => lo ≤ n && n ≤ hi
  | .label _ => false

/-- A branch target of R80: a label, or a number in 0..65535. -/
def target : Operand → Bool
  | .num n => 0 ≤ n && n ≤ 65535
  | .label _ => true

/-- The operand count and ranges of every statement (R80); DELAY's range is R87's. -/
def WellFormed (s : Statement) : Bool :=
  match s.head, s.operands with
  | .command .nop, [] => true
  | .command .dly8, [k] => numIn 0 255 k
  | .command .dly16, [k] => numIn 0 65535 k
  | .command .cfg, [] => true
  | .command .start, [] => true
  | .command .txi, [v] => numIn (-32768) 65535 v
  | .command .txs, [] => true
  | .command .tone, [f, a] => numIn 0 65535 f && numIn (-128) 127 a
  | .command .getf, [] => true
  | .command .getn, [] => true
  | .command .ldlc, [v] => numIn 0 65535 v
  | .command .djnz, [t] => target t
  | .command .jmp, [t] => target t
  | .command .halt, [] => true
  | .delay, [n] => numIn 0 262143 n
  | _, _ => false

end Statement

end Sys2Proof
end

