-- ==== Sys2Proof/Machine/State.lean ====
section
/-! DEFINITION. The state of I2SGEN (R14), its model faults and refusals, and the state right after reset (R46).
STATE IS PLAIN DATA. The configuration record and the command memory are parameters of the step in R14; the fixed
signature of `step` has one argument, so `State` carries them, and no step writes them (log 2). -/

namespace Sys2Proof.Machine

/-- The command memory (R47) as the bytes of its image (R52): word i at bytes 4i to 4i+3, bits 7:0 at byte 4i.
Canonical form: addresses strictly rising, no entry equal to `Memory.unlisted` (`Memory.wf`, Machine/Memory.lean). -/
abbrev Memory := List Host.Cell

/-- STATE, the source's ClockDriverState (R19). -/
inductive DriverState
  | unconfigured
  | configured
  | running
  deriving DecidableEq, Repr

/-- The sequencer (R14 to R18, R39). -/
structure Sequencer where
  /-- PC (R16) -/
  pc : Half
  /-- LC (R15) -/
  lc : Half
  /-- SREG (R15) -/
  sreg : Half
  /-- I (R17) -/
  i : Bool
  /-- HALTED (R18) -/
  halted : Bool
  /-- CUR (R39) -/
  cur : Option Instr
  /-- BUSY (R39) -/
  busy : Nat
  deriving DecidableEq, Repr

/-- The clock/framing unit (R14, R19, R20, R22 to R26, R35 to R38). -/
structure ClockUnit where
  /-- STATE (R19) -/
  st : DriverState
  /-- HOLD, CTRL[0] (R22) -/
  hold : Bool
  /-- MODE, CTRL[1] (R22) -/
  mode : Bool
  /-- BCNT (R23) -/
  bcnt : Byte
  /-- BOCR (R23) -/
  bocr : Byte
  /-- WCNT (R24) -/
  wcnt : Byte
  /-- WOCR (R24) -/
  wocr : Byte
  /-- DEAD (R35) -/
  dead : Byte
  /-- BCLK (R25) -/
  bclk : Bool
  /-- WS (R25) -/
  ws : Bool
  /-- SD (R25) -/
  sd : Bool
  /-- TXBUF (R26) -/
  txbuf : Half
  /-- TXFULL (R20) -/
  txfull : Bool
  /-- TXT (R37) -/
  txt : Option Nat
  /-- SR (R36) -/
  sr : Half
  /-- BITPOS (R36) -/
  bitpos : Nat
  /-- R (R38), the release cycle -/
  release : Option Nat
  deriving DecidableEq, Repr

/-- The oscillator unit, the WaveState (R14, R21, R27 to R30). -/
structure Oscillator where
  /-- TINC (R27) -/
  tinc : Word
  /-- TELAP (R28) -/
  telap : Word
  /-- TAMP (R29) -/
  tamp : Byte
  /-- TCUR (R30) -/
  tcur : Half
  /-- TVALID (R21) -/
  tvalid : Bool
  deriving DecidableEq, Repr

/-- The model faults of R135, each with its info. None is an event of the hardware (R134): each records that a run
broke a rule whose outcome the source leaves without a value. Safe: the run ends there (R45). -/
inductive ModelFault
  /-- F_ILLEGAL, code 1: raised by issue when the word at PC is illegal (R42, R76). -/
  | illegal (w : Word)
  /-- F_FETCH, code 2: raised by issue when PC ≥ PROG_WORDS (R42). -/
  | fetch (pc : Half)
  /-- F_STATE, code 3: raised by the effect of CFG, START, TXI, TXS, GETF, GETN in the wrong state (R135). -/
  | state (m : Mnemonic)
  /-- F_TX_REJECT, code 4: raised by the effect of TXI, TXS with TXFULL = 1 (R94). -/
  | txReject (v : Half)
  /-- F_UNDERRUN, code 5: raised by the peripheral step at a load point with TXFULL = 0 (R101). -/
  | underrun (t : Nat)
  /-- F_SETUP, code 6: raised by the peripheral step at a load point inside the setup window (R102). -/
  | setup (t : Nat) (txt : Option Nat)
  /-- F_TONE_RANGE, code 7: raised by the effect of TONE when FRAME_PERIOD·f ≥ P (R114). -/
  | toneRange (f : Half) (inc : Nat)
  deriving DecidableEq, Repr

/-- What FAULT holds once a fault is recorded (R41, R135): the fault with its info, the cycle and PC. -/
structure FaultRecord where
  fault : ModelFault
  cycle : Nat
  pc : Half
  deriving DecidableEq, Repr

/-- The state record of R14, with the two parameters of the step (`cfg`, `mem`, log 2) and the model's own counter of
stall draws (`draws`, log 4). -/
structure State where
  /-- the configuration record (R6); no step writes it -/
  cfg : Config
  /-- the command memory (R47); no step writes it -/
  mem : Memory
  seq : Sequencer
  clk : ClockUnit
  osc : Oscillator
  /-- cyc (R40) -/
  cyc : Nat
  /-- FAULT (R41) -/
  fault : Option FaultRecord
  /-- the index of the next stall draw (log 4) -/
  draws : Nat
  deriving DecidableEq, Repr

/-- Why a step or a meaning stops. -/
inductive Fault
  /-- `raise F_x(info)` of R12: answered by the meaning of a command whose effect raises a model fault (R135).
  `step` records it in FAULT and answers a next state (R134, R136). Safe. -/
  | raised (m : ModelFault)
  /-- Answered by `step` when HALTED = 1: the run has ended and there is no step (R45). Safe. -/
  | halted
  /-- Answered by `step` when FAULT ≠ none: the run has ended and there is no step (R41, R45). Safe. -/
  | stopped (r : FaultRecord)
  deriving DecidableEq, Repr

/-- Inputs for which the model has no move. -/
inductive Refusal
  /-- A command of the opcode table without a meaning yet; raised by `exec` alone. Safe. -/
  | notModelled (mnemonic : String)
  /-- A configuration record that fails a check of R7, or a legal value of R6 (log 10): there is no launch (R138). Raised by `launch`. Safe. -/
  | configuration (check : ConfigCheck)
  /-- A command image with a partial word is no valid launch (R56). Raised by `launch`. Safe. -/
  | partialWord
  /-- A command image of more than PROG_WORDS words (R148). Raised by `launch`. Safe. -/
  | imageTooLong
  /-- A host access other than an aligned 32-bit read inside the register window (R55). Raised by `hostAccess`. Safe. -/
  | hostAccess
  deriving DecidableEq, Repr

/-- The sequencer at launch (R46); `iLaunch` is I_LAUNCH. -/
def Sequencer.initial (iLaunch : Bool) : Sequencer where
  pc := 0
  lc := 0
  sreg := 0
  i := iLaunch
  halted := false
  cur := none
  busy := 0

/-- The clock/framing unit at launch (R46). -/
def ClockUnit.initial : ClockUnit where
  st := .unconfigured
  hold := true
  mode := false
  bcnt := 0
  bocr := 0
  wcnt := 0
  wocr := 0
  dead := 0
  bclk := false
  ws := false
  sd := false
  txbuf := 0
  txfull := false
  txt := none
  sr := 0
  bitpos := 0
  release := none

/-- The oscillator at launch (R46). -/
def Oscillator.initial : Oscillator where
  tinc := 0
  telap := 0
  tamp := 0
  tcur := 0
  tvalid := false

/-- The state a launch puts (R46), for a configuration, a command memory and I_LAUNCH. -/
def State.initial (cfg : Config) (mem : Memory) (iLaunch : Bool) : State where
  cfg := cfg
  mem := mem
  seq := Sequencer.initial iLaunch
  clk := ClockUnit.initial
  osc := Oscillator.initial
  cyc := 0
  fault := none
  draws := 0

/-- The machine right after reset (R46): the reference configuration of R10 (log 3), a command memory with nothing
listed, and I = 0 (the host makes no choice of I_LAUNCH). -/
def State.reset : State := State.initial Config.ref [] false

/-- The run has ended (R45): HALTED = 1 or FAULT ≠ none. -/
def State.ended (s : State) : Bool := s.seq.halted || s.fault.isSome

end Sys2Proof.Machine
end

