-- ==== Sys2Proof/Machine/Memory.lean ====
section
/-! DEFINITION. The command memory (R47, R52, R148): reads, the host's writes before launch, and the canonical form. -/

namespace Sys2Proof.Machine

namespace Memory

/-- What an unlisted byte reads as: words the image does not cover are 0 (R148). -/
def unlisted : Byte := 0

/-- The byte at an address. -/
def readByte : Memory → Nat → Byte
  | [], _ => unlisted
  | (b, v) :: rest, a => if b = a then v else readByte rest a

/-- A list with one byte put in its place in the rising order; the unlisted value is not listed. -/
def cons (a : Nat) (v : Byte) (rest : Memory) : Memory :=
  if v = unlisted then rest else (a, v) :: rest

/-- A write of one byte, which keeps the canonical form. -/
def writeByte : Memory → Nat → Byte → Memory
  | [], a, v => cons a v []
  | (b, x) :: rest, a, v =>
    if a < b then cons a v ((b, x) :: rest)
    else if a = b then cons a v rest
    else (b, x) :: writeByte rest a v

/-- The canonical form: addresses strictly rising from `lo` on, no entry equal to the unlisted value. -/
def wfFrom (lo : Nat) : Memory → Bool
  | [] => true
  | (a, v) :: rest => lo ≤ a && v != unlisted && wfFrom (a + 1) rest

/-- The canonical form of a memory. -/
def wf (m : Memory) : Bool := wfFrom 0 m

/-- CmdMem(i) (R12, R47): word i, its four bytes little-endian (R52). -/
def readWord (m : Memory) (i : Nat) : Word :=
  wordOfBytes (m.readByte (4 * i)) (m.readByte (4 * i + 1)) (m.readByte (4 * i + 2)) (m.readByte (4 * i + 3))

/-- Bytes stored at rising addresses from `a` on. -/
def writeBytes (m : Memory) (a : Nat) : List Byte → Memory
  | [] => m
  | v :: vs => writeBytes (m.writeByte a v) (a + 1) vs

/-- Word i stored (R52); the host's move before launch (R148), no command's. -/
def writeWord (m : Memory) (i : Nat) (w : Word) : Memory := m.writeBytes (4 * i) (bytesOfWord w)

/-- Words stored from index i on (R148). -/
def loadWords (m : Memory) (i : Nat) : List Word → Memory
  | [] => m
  | w :: ws => loadWords (m.writeWord i w) (i + 1) ws

end Memory

end Sys2Proof.Machine
end

