-- ==== Sys2Proof/Machine/Operands.lean ====
section
/-! DEFINITION. What the operand fields mean: loop counts (R84, R85), the sample bits that are sent (R94), the amplitude
(R72), and the cost of a command, which depends on its opcode and operand field only (R42, R153). -/

namespace Sys2Proof.Machine

/-- trunc_W(n) in the 16-bit shift register (R97): the low w bits of a number. -/
def lowBits (w : Nat) (n : Nat) : Half := BitVec.ofNat 16 (n % 2 ^ w)

/-- The iterations of DLY8 k: 256 for k = 0 (R84). -/
def dly8Iterations (k : Byte) : Nat := if k = 0 then 256 else k.toNat

/-- The iterations of DLY16 k: 65536 for k = 0 (R85). -/
def dly16Iterations (k : Half) : Nat := if k = 0 then 65536 else k.toNat

/-- The cost of a command in cycles (R153). -/
def cost (c : Config) : Instr → Nat
  | .nop => 1
  | .dly8 k => 3 * dly8Iterations k
  | .dly16 k => 4 * dly16Iterations k
  | .cfg => c.cCfg
  | .start => c.cStart
  | .txi _ => c.cTx
  | .txs => c.cTx
  | .tone _ _ => c.cTone
  | .getf => c.cGetf
  | .getn => c.cGetn
  | .ldlc _ => c.cLdlc
  | .djnz _ => c.cDjnz
  | .jmp _ => c.cJmp
  | .halt => c.cHalt

/-- sext_8 of an amplitude in 16 bits (R11, R112). -/
def amplitude (a : Byte) : Half := a.signExtend 16

end Sys2Proof.Machine
end

