-- ==== Sys2Proof/Machine/Ops.lean ====
section
/-! DEFINITION. The operations the commands share: the program counter (R16), raising and recording a model fault (R12,
R134 to R136), the transmit action (R94), and the first-cycle effect of a command (R42). There is no exception, trap or
interrupt entry and no return from one (R132, R140, R141): the ONE operation that stands where another machine takes an
exception is `recordFault`. -/

namespace Sys2Proof.Machine

/-- PC <- target (R12). -/
def setPc (t : Half) (s : State) : State := { s with seq := { s.seq with pc := t } }

/-- PC <- trunc_16(PC + 1) (R16). -/
def advancePc (s : State) : State := setPc (s.seq.pc + 1) s

/-- LC <- v (R15). -/
def setLc (v : Half) (s : State) : State := { s with seq := { s.seq with lc := v } }

/-- SREG <- v (R15). -/
def setSreg (v : Half) (s : State) : State := { s with seq := { s.seq with sreg := v } }

/-- The clock/framing unit replaced. -/
def setClk (u : ClockUnit) (s : State) : State := { s with clk := u }

/-- The oscillator replaced. -/
def setOsc (o : Oscillator) (s : State) : State := { s with osc := o }

/-- raise F_x(info) (R12), as a meaning answers it. -/
def raise (m : ModelFault) : Host.Outcome State Fault Refusal := .fault (.raised m)

/-- The end of an effect that falls through to the next command (R16): PC advances, unless a fault was raised. -/
def complete (e : Except ModelFault State) : Host.Outcome State Fault Refusal :=
  match e with
  | .ok s => .next (advancePc s)
  | .error m => raise m

/-- The code numbers of R135. -/
def ModelFault.code : ModelFault → Nat
  | .illegal _ => 1
  | .fetch _ => 2
  | .state _ => 3
  | .txReject _ => 4
  | .underrun _ => 5
  | .setup _ _ => 6
  | .toneRange _ _ => 7

/-- FAULT <- (code with info, t, PC) (R41, R135). The state given is the one R136 keeps: nothing else is written. -/
def recordFault (m : ModelFault) (s : State) : State :=
  { s with fault := some { fault := m, cycle := s.cyc, pc := s.seq.pc } }

/-- transmit(v) (R94), for TXI and TXS; the info of F_STATE is the mnemonic (R135, log 8). -/
def transmit (m : Mnemonic) (v : Half) (s : State) : Except ModelFault State :=
  if s.clk.st = .unconfigured then .error (.state m)
  else if s.clk.txfull then .error (.txReject v)
  else .ok (setClk { s.clk with txbuf := v, txfull := true, txt := some s.cyc } s)

/-- The write a command makes in its first cycle (R42): CFG clears I, every other command makes none. -/
def firstCycle (i : Instr) (s : State) : State :=
  if i = .cfg then { s with seq := { s.seq with i := false } } else s

/-- CUR <- d; BUSY <- cost(d); and the first-cycle effect (R42). -/
def beginCommand (i : Instr) (s : State) : State :=
  firstCycle i { s with seq := { s.seq with cur := some i, busy := cost s.cfg i } }

end Sys2Proof.Machine
end

