-- ==== Sys2Proof/Machine/ClockDriver.lean ====
section
/-! DEFINITION. The clock driver's commands at their effect cycle (R92 to R96). -/

namespace Sys2Proof.Machine

/-- The unit as CFG leaves it (R92). -/
def configureUnit (c : Config) (u : ClockUnit) : ClockUnit :=
  { u with
    hold := true
    mode := true
    bocr := BitVec.ofNat 8 (c.h - 1)
    bcnt := 0
    wocr := BitVec.ofNat 8 (c.samplePeriod - 1)
    wcnt := BitVec.ofNat 8 (256 - c.epoch)
    dead := BitVec.ofNat 8 c.epoch
    bclk := c.bclkIdle
    ws := false
    sd := false
    sr := 0
    bitpos := 0
    txbuf := 0
    txfull := false
    txt := none
    st := .configured }

/-- The unit as START at cycle t leaves it (R93). -/
def releaseUnit (t : Nat) (u : ClockUnit) : ClockUnit :=
  { u with hold := false, st := .running, release := some t }

/-- CFG at its effect cycle (R92); its first-cycle write I <- 0 is made at issue (`firstCycle`, log 14). -/
def execCfg (s : State) : Host.Outcome State Fault Refusal :=
  complete <|
    if s.clk.st = .unconfigured then .ok (setClk (configureUnit s.cfg s.clk) s)
    else .error (.state .cfg)

/-- START (R93). -/
def execStart (s : State) : Host.Outcome State Fault Refusal :=
  complete <|
    if s.clk.st = .configured then .ok (setClk (releaseUnit s.cyc s.clk) s)
    else .error (.state .start)

/-- TXI v (R95). -/
def execTxi (v : Half) (s : State) : Host.Outcome State Fault Refusal := complete (transmit .txi v s)

/-- TXS (R96): the sample in SREG. -/
def execTxs (s : State) : Host.Outcome State Fault Refusal := complete (transmit .txs s.seq.sreg s)

end Sys2Proof.Machine
end

