-- ==== Sys2Proof/Machine/Delay.lean ====
section
/-! DEFINITION. The delay family (R82 to R86): no state but PC is written; the cost is `cost` (R153). -/

namespace Sys2Proof.Machine

/-- NOP (R83). -/
def execNop (s : State) : Host.Outcome State Fault Refusal := complete (.ok s)

/-- DLY8 k (R84): the loop counter is internal to the command, and its whole loop is the command's cost. -/
def execDly8 (_k : Byte) (s : State) : Host.Outcome State Fault Refusal := complete (.ok s)

/-- DLY16 k (R85). -/
def execDly16 (_k : Half) (s : State) : Host.Outcome State Fault Refusal := complete (.ok s)

end Sys2Proof.Machine
end

