-- ==== Sys2Proof/Machine/Sequencer.lean ====
section
/-! DEFINITION. The sequencer's loop and halt commands (R126 to R130). Targets are absolute and are not checked at the
branch; a target at or beyond PROG_WORDS raises F_FETCH at the next fetch (R130). -/

namespace Sys2Proof.Machine

/-- LDLC v (R126). -/
def execLdlc (v : Half) (s : State) : Host.Outcome State Fault Refusal := complete (.ok (setLc v s))

/-- DJNZ t (R127): LC <- trunc_16(LC - 1), and branch if it is not zero. -/
def execDjnz (t : Half) (s : State) : Host.Outcome State Fault Refusal :=
  if s.seq.lc - 1 = 0 then .next (advancePc (setLc (s.seq.lc - 1) s))
  else .next (setPc t (setLc (s.seq.lc - 1) s))

/-- JMP t (R128). -/
def execJmp (t : Half) (s : State) : Host.Outcome State Fault Refusal := .next (setPc t s)

/-- HALT (R129): PC keeps HALT's index. -/
def execHalt (s : State) : Host.Outcome State Fault Refusal :=
  .next { s with seq := { s.seq with halted := true } }

end Sys2Proof.Machine
end

