-- ==== Sys2Proof/Machine/Tone.lean ====
section
/-! DEFINITION. The oscillator's functions (R112, R113) and commands (R114 to R116). -/

namespace Sys2Proof.Machine

/-- out(e) (R112): the sample of accumulator value e at amplitude a. -/
def waveOut (c : Config) (a : Byte) (e : Word) : Half :=
  if e.toNat < c.fCpu / 2 then amplitude a
  else
    match c.waveNeg with
    | .negate => -amplitude a
    | .zero => 0

/-- adv(e) (R113) with increment `inc`: add, and subtract P once if the sum reaches P. -/
def waveAdvance (c : Config) (inc e : Word) : Word :=
  if c.fCpu ≤ e.toNat + inc.toNat then BitVec.ofNat 32 (e.toNat + inc.toNat - c.fCpu)
  else BitVec.ofNat 32 (e.toNat + inc.toNat)

/-- FRAME_PERIOD * f, exact (R114). -/
def toneIncrement (c : Config) (f : Half) : Nat := c.framePeriod * f.toNat

/-- The WaveState that TONE f, a creates (R114). -/
def newWave (c : Config) (f : Half) (a : Byte) : Oscillator where
  tinc := BitVec.ofNat 32 (toneIncrement c f)
  telap := 0
  tamp := a
  tcur := waveOut c a 0
  tvalid := true

/-- The WaveState advanced by one frame (R116): TELAP <- adv(TELAP), TCUR <- out(TELAP). -/
def advanceWave (c : Config) (o : Oscillator) : Oscillator :=
  { o with
    telap := waveAdvance c o.tinc o.telap
    tcur := waveOut c o.tamp (waveAdvance c o.tinc o.telap) }

/-- The sample GETN returns (R116): TCUR after the update, or before it with WAVE_LAT = 1. -/
def nextSample (c : Config) (o : Oscillator) : Half :=
  if c.waveLat then o.tcur else (advanceWave c o).tcur

/-- TONE f, a (R114). -/
def execTone (f : Half) (a : Byte) (s : State) : Host.Outcome State Fault Refusal :=
  complete <|
    if s.cfg.fCpu ≤ toneIncrement s.cfg f then .error (.toneRange f (toneIncrement s.cfg f))
    else .ok (setOsc (newWave s.cfg f a) s)

/-- GETF (R115). -/
def execGetf (s : State) : Host.Outcome State Fault Refusal :=
  complete <|
    if s.osc.tvalid then .ok (setSreg s.osc.tcur s)
    else .error (.state .getf)

/-- GETN (R116). -/
def execGetn (s : State) : Host.Outcome State Fault Refusal :=
  complete <|
    if s.osc.tvalid then .ok (setOsc (advanceWave s.cfg s.osc) (setSreg (nextSample s.cfg s.osc) s))
    else .error (.state .getn)

end Sys2Proof.Machine
end

