-- ==== Sys2Proof/Machine/Dispatch.lean ====
section
/-! DEFINITION. The meaning of each command at its effect cycle (R42, R43 step 3), one arm per constructor. -/

namespace Sys2Proof.Machine

def exec (i : Instr) (s : State) : Host.Outcome State Fault Refusal :=
  match i with
  | .nop => Sys2Proof.Machine.execNop s
  | .dly8 k => Sys2Proof.Machine.execDly8 k s
  | .dly16 k => Sys2Proof.Machine.execDly16 k s
  | .cfg => Sys2Proof.Machine.execCfg s
  | .start => Sys2Proof.Machine.execStart s
  | .txi v => Sys2Proof.Machine.execTxi v s
  | .txs => Sys2Proof.Machine.execTxs s
  | .tone f a => Sys2Proof.Machine.execTone f a s
  | .getf => Sys2Proof.Machine.execGetf s
  | .getn => Sys2Proof.Machine.execGetn s
  | .ldlc v => Sys2Proof.Machine.execLdlc v s
  | .djnz t => Sys2Proof.Machine.execDjnz t s
  | .jmp t => Sys2Proof.Machine.execJmp t s
  | .halt => Sys2Proof.Machine.execHalt s

end Sys2Proof.Machine
end

