-- ==== Sys2Proof/Machine/Peripheral.lean ====
section
/-! DEFINITION. The clock/framing unit, cycle by cycle (R97 to R102). -/

namespace Sys2Proof.Machine

/-- The BCLK unit (R98), and whether the cycle is a bit boundary: BCLK inverted back to BCLK_IDLE (R100). -/
def bclkUnit (c : Config) (u : ClockUnit) : ClockUnit × Bool :=
  if 0 < u.dead.toNat then ({ u with dead := u.dead - 1 }, false)
  else if u.bcnt = u.bocr then ({ u with bcnt := 0, bclk := !u.bclk }, (!u.bclk) == c.bclkIdle)
  else ({ u with bcnt := u.bcnt + 1 }, false)

/-- The WS unit (R99). -/
def wsUnit (u : ClockUnit) : ClockUnit :=
  if u.wcnt = u.wocr then { u with wcnt := 0, ws := !u.ws } else { u with wcnt := u.wcnt + 1 }

/-- t − TXT ≥ TX_SETUP (R102). With TXT = none the spec's difference has no value: not met (log 7). -/
def setupMet (c : Config) (t : Nat) (txt : Option Nat) : Bool :=
  match txt with
  | some x => x + c.txSetup ≤ t
  | none => false

/-- The load point of a bit boundary (R101, R102): at BITPOS = 0 the shift register takes the low W bits of TXBUF. -/
def loadPoint (c : Config) (t : Nat) (u : ClockUnit) : Except ModelFault ClockUnit :=
  if u.bitpos = 0 then
    if u.txfull = false then .error (.underrun t)
    else if setupMet c t u.txt then .ok { u with sr := lowBits c.w u.txbuf.toNat, txfull := false }
    else .error (.setup t u.txt)
  else .ok u

/-- SD <- SR[W-1]; SR shifts left within W bits; BITPOS advances (R97, R100). -/
def shiftOut (c : Config) (u : ClockUnit) : ClockUnit :=
  { u with
    sd := u.sr.getLsbD (c.w - 1)
    sr := lowBits c.w (u.sr.toNat * 2)
    bitpos := (u.bitpos + 1) % c.w }

/-- The data path at a bit boundary (R97): the load point first, then the shift. -/
def dataPath (c : Config) (t : Nat) (u : ClockUnit) : Except ModelFault ClockUnit :=
  match loadPoint c t u with
  | .ok v => .ok (shiftOut c v)
  | .error m => .error m

/-- The running unit's cycle: both counting units advance, then the data path at a bit boundary (R97). -/
def advanceUnit (c : Config) (t : Nat) (u : ClockUnit) : Except ModelFault ClockUnit :=
  let b := bclkUnit c u
  if b.2 then dataPath c t (wsUnit b.1) else .ok (wsUnit b.1)

/-- periph(t) (R97): nothing moves unless MODE = 1 and HOLD = 0. -/
def periph (c : Config) (t : Nat) (u : ClockUnit) : Except ModelFault ClockUnit :=
  if u.mode && !u.hold then advanceUnit c t u else .ok u

/-- The peripheral steps of n consecutive cycles from cycle t on, with no command write between them. -/
def periphRun (c : Config) (t : Nat) : Nat → ClockUnit → Except ModelFault ClockUnit
  | 0, u => .ok u
  | n + 1, u =>
    match periph c t u with
    | .ok v => periphRun c (t + 1) n v
    | .error m => .error m

end Sys2Proof.Machine
end

