-- ==== Sys2Proof/Machine/Cycle.lean ====
section
/-! DEFINITION. One cycle in R43's four steps. `cycleWith` takes the environment's stall draw as an argument (R44);
`step` (Machine/Step.lean) supplies the free value (log 4). -/

namespace Sys2Proof.Machine

/-- The fetch and decode of R42: F_FETCH before the word is read, then F_ILLEGAL (R137). -/
def fetchDecode (s : State) : Except ModelFault Instr :=
  if s.cfg.progWords ≤ s.seq.pc.toNat then .error (.fetch s.seq.pc)
  else
    match decode (s.mem.readWord s.seq.pc.toNat) with
    | .command i => .ok i
    | .illegal _ => .error (.illegal (s.mem.readWord s.seq.pc.toNat))

/-- Command issue (R42). -/
def issue (s : State) : Except ModelFault State :=
  match fetchDecode s with
  | .ok i => .ok (beginCommand i s)
  | .error m => .error m

/-- A stall draw is made at a step with CUR = none and I = 1 (R44, R148). -/
def drawsNow (s : State) : Bool := s.seq.cur.isNone && s.seq.i

/-- The counter of stall draws, advanced when a draw is made (log 4). -/
def takeDraw (s : State) : State := if drawsNow s then { s with draws := s.draws + 1 } else s

/-- Step 1 (R43): between commands, a stall or an issue; inside a command, nothing. -/
def stepOne (draw : Bool) (s : State) : Except ModelFault State :=
  match s.seq.cur with
  | some _ => .ok s
  | none => if s.seq.i && draw then .ok (takeDraw s) else issue (takeDraw s)

/-- Step 2 (R43): the peripheral step of this cycle (R97). -/
def stepTwo (s : State) : Except ModelFault State :=
  match periph s.cfg s.cyc s.clk with
  | .ok u => .ok (setClk u s)
  | .error m => .error m

/-- Step 4 (R43): cyc <- t + 1. -/
def tick (s : State) : State := { s with cyc := s.cyc + 1 }

/-- CUR <- none, with BUSY = 0 (R43 step 3). -/
def retire (s : State) : State := { s with seq := { s.seq with cur := none, busy := 0 } }

/-- BUSY <- BUSY - 1 (R43 step 3). -/
def countDown (s : State) : State := { s with seq := { s.seq with busy := s.seq.busy - 1 } }

/-- The end of a cycle whose command takes effect: the command retires, or its fault is recorded with every write of
step 3 discarded (R136, log 11). -/
def settleEffect (s : State) (o : Host.Outcome State Fault Refusal) : Host.Outcome State Fault Refusal :=
  match o with
  | .next t => .next (tick (retire t))
  | .fault (.raised m) => .next (recordFault m s)
  | .fault f => .fault f
  | .refused r => .refused r

/-- Steps 3 and 4 (R43): nothing in a stall; otherwise BUSY counts down and the effect takes place in the last cycle. -/
def stepThree (s : State) : Host.Outcome State Fault Refusal :=
  match s.seq.cur with
  | none => .next (tick s)
  | some i => if 1 < s.seq.busy then .next (tick (countDown s)) else settleEffect s (exec i s)

/-- Steps 2 to 4 (R43) after step 1 has left `s`. -/
def stepTwoOn (s : State) : Host.Outcome State Fault Refusal :=
  match stepTwo s with
  | .ok t => stepThree t
  | .error m => .next (recordFault m s)

/-- One cycle of a run that has not ended (R43), with the environment's draw; a fault of step 1 leaves the state as it
was (R136). -/
def runningCycle (draw : Bool) (s : State) : Host.Outcome State Fault Refusal :=
  match stepOne draw s with
  | .ok t => stepTwoOn t
  | .error m => .next (recordFault m s)

/-- One cycle: none once the run has ended (R41, R45). -/
def cycleWith (draw : Bool) (s : State) : Host.Outcome State Fault Refusal :=
  match s.fault with
  | some r => .fault (.stopped r)
  | none => if s.seq.halted then .fault .halted else runningCycle draw s

end Sys2Proof.Machine
end

