-- ==== Sys2Proof/Machine/Step.lean ====
section
/-! DEFINITION. The host's step move: one cycle (R43, R148), and the placing of one word where the next fetch reads. -/

namespace Sys2Proof.Machine

/-- One step of the machine is ONE CYCLE (R43, R148, log 1): a command of cost c is issued by one step and takes effect
in the c-th. The stall draw is the environment's (R44, log 4). -/
def step (s : State) : Host.Outcome State Fault Refusal := cycleWith (Config.stallDraw s.draws) s

/-- n cycles of a run, stopping where a step does not answer a next state. -/
def run : Nat → State → Host.Outcome State Fault Refusal
  | 0, s => .next s
  | n + 1, s =>
    match step s with
    | .next t => run n t
    | .fault f => .fault f
    | .refused r => .refused r

/-- The sequencer ready to fetch: between commands, not halted, no stall possible, PC inside the command memory. -/
def Sequencer.readyToFetch (c : Config) (q : Sequencer) : Sequencer :=
  { q with
    cur := none
    busy := 0
    halted := false
    i := false
    pc := if q.pc.toNat < c.progWords then q.pc else 0 }

/-- `s` with an instruction's word stored where `step` fetches its next instruction, so that the next step issues
exactly it (log 12). -/
def State.withFetchWord (s : State) (nbits w : Nat) : State :=
  let q := s.seq.readyToFetch s.cfg
  { s with
    seq := q
    fault := none
    mem := s.mem.writeWord q.pc.toNat (BitVec.ofNat 32 (w % 2 ^ nbits)) }

end Sys2Proof.Machine
end

