-- ==== Sys2Proof/Machine/Assembler.lean ====
section
/-! DEFINITION. The assembler (R80, R81) with the DELAY pseudo-instruction (R87 to R91), from source text to words.
It stands outside the machine: a program reaches the command memory by the host's load (R148). -/

namespace Sys2Proof.Machine

/-- Why the assembler emits no image (R80, R138). -/
inductive AsmRefusal
  /-- a character, token order, number or mnemonic outside R80's grammar -/
  | grammar
  /-- an operand count or range outside R80's table -/
  | statement
  /-- a label that no line defines -/
  | unknownLabel
  /-- a label defined twice (log 13) -/
  | duplicateLabel
  /-- a label whose index does not fit the 16-bit target -/
  | labelRange
  deriving DecidableEq, Repr

/-- plan(n) (R87): the words of DELAY n. -/
def planDelay (n : Nat) : List Instr :=
  if n < 16 then List.replicate n .nop
  else if n < 768 then .dly8 (BitVec.ofNat 8 (n / 3)) :: List.replicate (n % 3) .nop
  else .dly16 (BitVec.ofNat 16 (n / 4)) :: List.replicate (n % 4) .nop

/-- unroll(n) (R88), the recursive halving, to a depth that n < 2^depth never uses up. -/
def unroll : Nat → Nat → List Instr
  | 0, _ => []
  | depth + 1, n =>
    if n = 0 then []
    else unroll depth (n / 2) ++ unroll depth (n / 2) ++ (if n % 2 = 1 then [.nop] else [])

/-- A defined label with its word index. -/
abbrev Labels := List (List Char × Nat)

/-- The words a statement takes (R80, R81). -/
def statementSize (s : Statement) : Nat :=
  match s.head, s.operands with
  | .delay, [.num n] => (planDelay n.toNat).length
  | _, _ => 1

/-- The words a line takes. -/
def lineSize (l : Line) : Nat :=
  match l.statement with
  | some s => statementSize s
  | none => 0

/-- Every label with the word index of the statement that follows it (R80, R81). -/
def layout (i : Nat) : List Line → Labels
  | [] => []
  | l :: rest =>
    match l.label with
    | some name => (name, i) :: layout (i + lineSize l) rest
    | none => layout (i + lineSize l) rest

/-- A 16-bit target operand (R80). DESIGN CHOICE (log 13): a label's letters are compared as they stand, upper and lower
case apart, where R80 calls mnemonics alone case-insensitive. -/
def resolveTarget (labels : Labels) : Operand → Except AsmRefusal Half
  | .num n => .ok (BitVec.ofInt 16 n)
  | .label name =>
    match labels.find? fun p => p.1 == name with
    | some (_, i) => if i < 65536 then .ok (BitVec.ofNat 16 i) else .error .labelRange
    | none => .error .unknownLabel

/-- The commands of a statement whose operands are in range (R80's table; R87 for DELAY). -/
def expandStatement (labels : Labels) (s : Statement) : Except AsmRefusal (List Instr) :=
  match s.head, s.operands with
  | .command .nop, [] => .ok [.nop]
  | .command .dly8, [.num k] => .ok [.dly8 (BitVec.ofInt 8 k)]
  | .command .dly16, [.num k] => .ok [.dly16 (BitVec.ofInt 16 k)]
  | .command .cfg, [] => .ok [.cfg]
  | .command .start, [] => .ok [.start]
  | .command .txi, [.num v] => .ok [.txi (BitVec.ofInt 16 v)]
  | .command .txs, [] => .ok [.txs]
  | .command .tone, [.num f, .num a] => .ok [.tone (BitVec.ofInt 16 f) (BitVec.ofInt 8 a)]
  | .command .getf, [] => .ok [.getf]
  | .command .getn, [] => .ok [.getn]
  | .command .ldlc, [.num v] => .ok [.ldlc (BitVec.ofInt 16 v)]
  | .command .djnz, [t] => (resolveTarget labels t).map fun i => [.djnz i]
  | .command .jmp, [t] => (resolveTarget labels t).map fun i => [.jmp i]
  | .command .halt, [] => .ok [.halt]
  | .delay, [.num n] => .ok (planDelay n.toNat)
  | _, _ => .error .statement

/-- A statement assembled: refused outside its operand count and ranges (R80). -/
def assembleStatement (labels : Labels) (s : Statement) : Except AsmRefusal (List Instr) :=
  if s.WellFormed then expandStatement labels s else .error .statement

/-- The words of a statement (R80's word column). -/
def statementWords (labels : Labels) (s : Statement) : Except AsmRefusal (List Word) :=
  (assembleStatement labels s).map (·.map encode)

/-- The commands of a list of lines. -/
def assembleLines (labels : Labels) : List Line → Except AsmRefusal (List Instr)
  | [] => .ok []
  | l :: rest =>
    match l.statement with
    | none => assembleLines labels rest
    | some s =>
      match assembleStatement labels s, assembleLines labels rest with
      | .ok is, .ok js => .ok (is ++ js)
      | .error e, _ => .error e
      | .ok _, .error e => .error e

/-- No label is defined twice. DESIGN CHOICE (log 13), as is that names which differ in case only are two labels. -/
def labelsDistinct : Labels → Bool
  | [] => true
  | (name, _) :: rest => !(rest.any fun p => p.1 == name) && labelsDistinct rest

/-- The words of a program (R80). -/
def assemble (program : List Line) : Except AsmRefusal (List Word) :=
  if labelsDistinct (layout 0 program) then (assembleLines (layout 0 program) program).map (·.map encode)
  else .error .duplicateLabel

/-- The tokens of a line (R80). -/
inductive Token
  | word (cs : List Char)
  | colon
  | comma
  deriving DecidableEq, Repr

/-- A character in a closed range of codes. -/
def charIn (lo hi : Nat) (c : Char) : Bool := lo ≤ c.toNat && c.toNat ≤ hi

/-- A letter (R80). -/
def isLetter (c : Char) : Bool := charIn 65 90 c || charIn 97 122 c

/-- A decimal digit (R80). -/
def isDigit (c : Char) : Bool := charIn 48 57 c

/-- White space between tokens (log 13): space, tab, carriage return. -/
def isSpace (c : Char) : Bool := c == ' ' || c == '\t' || c == '\r'

/-- A character of a label, mnemonic or number (R80). -/
def isWordChar (c : Char) : Bool := isLetter c || isDigit c || c == '_' || c == '-'

/-- The collected word, if any, before the tokens after it. -/
def flushWord (collected : List Char) (rest : List Token) : List Token :=
  if collected.isEmpty then rest else .word collected.reverse :: rest

/-- The tokens of a line up to its comment (R80); `collected` holds the current word, last character first. -/
def lexLine (collected : List Char) : List Char → Option (List Token)
  | [] => some (flushWord collected [])
  | c :: cs =>
    if c == ';' then some (flushWord collected [])
    else if c == ':' then (lexLine [] cs).map fun r => flushWord collected (.colon :: r)
    else if c == ',' then (lexLine [] cs).map fun r => flushWord collected (.comma :: r)
    else if isSpace c then (lexLine [] cs).map (flushWord collected)
    else if isWordChar c then lexLine (c :: collected) cs
    else none

/-- label := letter followed by letters, digits and underscores (R80). -/
def isLabel : List Char → Bool
  | [] => false
  | c :: cs => isLetter c && cs.all fun d => isLetter d || isDigit d || d == '_'

/-- The value of a decimal or hexadecimal digit (R80). -/
def digitValue (c : Char) : Option Nat :=
  if isDigit c then some (c.toNat - 48)
  else if charIn 65 70 c then some (c.toNat - 55)
  else if charIn 97 102 c then some (c.toNat - 87)
  else none

/-- Digits of a base read on from a value. -/
def digitsFrom (base : Nat) (acc : Nat) : List Char → Option Nat
  | [] => some acc
  | c :: cs =>
    match digitValue c with
    | some d => if d < base then digitsFrom base (base * acc + d) cs else none
    | none => none

/-- One or more digits of a base. -/
def digits (base : Nat) : List Char → Option Nat
  | [] => none
  | cs => digitsFrom base 0 cs

/-- number := an optional minus and decimal digits, or 0x and hexadecimal digits (R80). -/
def parseNumber : List Char → Option Int
  | '0' :: 'x' :: cs => (digits 16 cs).map Int.ofNat
  | '-' :: cs => (digits 10 cs).map fun n => -Int.ofNat n
  | cs => (digits 10 cs).map Int.ofNat

/-- operand := number or label (R80). -/
def parseOperand (cs : List Char) : Option Operand :=
  if isLabel cs then some (.label cs) else (parseNumber cs).map .num

/-- One operand or more, separated by commas (R80). -/
def parseOperands : List Token → Option (List Operand)
  | [.word cs] => (parseOperand cs).map fun o => [o]
  | .word cs :: .comma :: rest =>
    match parseOperand cs, parseOperands rest with
    | some o, some os => some (o :: os)
    | _, _ => none
  | _ => none

/-- A letter in upper case: mnemonics are case-insensitive (R80). -/
def upperCode (c : Char) : Nat := if charIn 97 122 c then c.toNat - 32 else c.toNat

/-- The statement heads by their spelling (R80). -/
def heads : List (List Char × Head) := [
  (['N', 'O', 'P'], .command .nop),
  (['D', 'L', 'Y', '8'], .command .dly8),
  (['D', 'L', 'Y', '1', '6'], .command .dly16),
  (['C', 'F', 'G'], .command .cfg),
  (['S', 'T', 'A', 'R', 'T'], .command .start),
  (['T', 'X', 'I'], .command .txi),
  (['T', 'X', 'S'], .command .txs),
  (['T', 'O', 'N', 'E'], .command .tone),
  (['G', 'E', 'T', 'F'], .command .getf),
  (['G', 'E', 'T', 'N'], .command .getn),
  (['L', 'D', 'L', 'C'], .command .ldlc),
  (['D', 'J', 'N', 'Z'], .command .djnz),
  (['J', 'M', 'P'], .command .jmp),
  (['H', 'A', 'L', 'T'], .command .halt),
  (['D', 'E', 'L', 'A', 'Y'], .delay)]

/-- The head a word spells (R80). -/
def headOf (cs : List Char) : Option Head :=
  (heads.find? fun p => p.1.map Char.toNat == cs.map upperCode).map Prod.snd

/-- statement := mnemonic with its operands (R80). -/
def parseStatement : List Token → Option Statement
  | [.word cs] => (headOf cs).map fun h => ⟨h, []⟩
  | .word cs :: rest =>
    match headOf cs, parseOperands rest with
    | some h, some os => some ⟨h, os⟩
    | _, _ => none
  | _ => none

/-- A line without its label (R80). -/
def parseBody (label : Option (List Char)) : List Token → Option Line
  | [] => some ⟨label, none⟩
  | ts => (parseStatement ts).map fun s => ⟨label, some s⟩

/-- A line's tokens (R80). -/
def parseTokens : List Token → Option Line
  | .word cs :: .colon :: rest => if isLabel cs then parseBody (some cs) rest else none
  | ts => parseBody none ts

/-- A source line (R80). -/
def parseLine (cs : List Char) : Option Line :=
  match lexLine [] cs with
  | some ts => parseTokens ts
  | none => none

/-- The lines of a text; `collected` holds the current line, last character first. -/
def splitLines (collected : List Char) : List Char → List (List Char)
  | [] => [collected.reverse]
  | c :: cs => if c == '\n' then collected.reverse :: splitLines [] cs else splitLines (c :: collected) cs

/-- Every line parsed, or none. -/
def parseLines : List (List Char) → Option (List Line)
  | [] => some []
  | l :: rest =>
    match parseLine l, parseLines rest with
    | some x, some xs => some (x :: xs)
    | _, _ => none

/-- The words of a source text (R80). -/
def assembleText (text : List Char) : Except AsmRefusal (List Word) :=
  match parseLines (splitLines [] text) with
  | some program => assemble program
  | none => .error .grammar

end Sys2Proof.Machine
end

