-- ==== Sys2Proof/Machine/Flags.lean ====
section
/-! DEFINITION. The status flags as the register window shows them (R19 to R22, R31, R33). I2SGEN has no arithmetic
condition codes, and no command computes a carry, zero, sign or overflow flag (10_state.md section 3). -/

namespace Sys2Proof.Machine

/-- One bit as a number. -/
def bit (b : Bool) : Nat := if b then 1 else 0

/-- The encoding of STATE in STATUS[1:0] (R19). -/
def DriverState.code : DriverState → Nat
  | .unconfigured => 0
  | .configured => 1
  | .running => 2

/-- CTRL (R22, R33): [0] HOLD, [1] MODE. -/
def ctrlWord (u : ClockUnit) : Word := BitVec.ofNat 32 (bit u.hold + 2 * bit u.mode)

/-- STATUS (R33): [1:0] STATE, [2] TXFULL, [3] BCLK, [4] WS, [5] SD, [6] TVALID, [7] I, [8] HALTED. -/
def statusWord (s : State) : Word :=
  BitVec.ofNat 32 (s.clk.st.code + 4 * bit s.clk.txfull + 8 * bit s.clk.bclk + 16 * bit s.clk.ws +
    32 * bit s.clk.sd + 64 * bit s.osc.tvalid + 128 * bit s.seq.i + 256 * bit s.seq.halted)

/-- CONFIG (R31): [3:0] H, [8:4] W, [9] VARIANT, [10] BCLK_IDLE, [11] WAVE_NEG, [12] WAVE_LAT. -/
def configWord (c : Config) : Word :=
  BitVec.ofNat 32 (c.h % 16 + 16 * (c.w % 32) + 512 * bit (c.variant == .usart) + 1024 * bit c.bclkIdle +
    2048 * bit (c.waveNeg == .zero) + 4096 * bit c.waveLat)

end Sys2Proof.Machine
end

