-- ==== Sys2Proof/Machine/HostMoves.lean ====
section
/-! DEFINITION. The host's other moves (R148): the launch with its checked configuration and its command image, the
reads of the register window, and what it observes. -/

namespace Sys2Proof.Machine

/-- The words of a little-endian byte image (R52); none when a partial word is left (R56). -/
def wordsOfImage : List Byte → Option (List Word)
  | [] => some []
  | b0 :: b1 :: b2 :: b3 :: rest => (wordsOfImage rest).map (wordOfBytes b0 b1 b2 b3 :: ·)
  | _ => none

/-- The launch of a list of words: refused for a configuration that fails a check of R7, and for more words than the
command memory has (R138, R148); otherwise the state of R46. I_LAUNCH is 0 if the host makes no choice. -/
def launchWords (c : Config) (words : List Word) (iLaunch : Option Bool) : Host.Outcome State Fault Refusal :=
  match c.firstFailure with
  | some k => .refused (.configuration k)
  | none =>
    if c.progWords < words.length then .refused .imageTooLong
    else .next (State.initial c (Memory.loadWords [] 0 words) (iLaunch.getD false))

/-- The launch of a byte image (R52, R56, R148). -/
def launch (c : Config) (image : List Byte) (iLaunch : Option Bool) : Host.Outcome State Fault Refusal :=
  match wordsOfImage image with
  | some words => launchWords c words iLaunch
  | none => .refused .partialWord

/-- The register at an offset of the window (R31 to R33), zero-extended; reserved offsets read 0 (R34). -/
def windowRegister (s : State) (off : Nat) : Word :=
  match off with
  | 0x00 => ctrlWord s.clk
  | 0x04 => statusWord s
  | 0x08 => configWord s.cfg
  | 0x0C => BitVec.ofNat 32 (s.cfg.epoch % 256)
  | 0x10 => BitVec.ofNat 32 s.cfg.bitPeriod
  | 0x14 => BitVec.ofNat 32 s.cfg.samplePeriod
  | 0x18 => BitVec.ofNat 32 s.cfg.framePeriod
  | 0x1C => BitVec.ofNat 32 s.cfg.fCpu
  | 0x20 => s.clk.bcnt.setWidth 32
  | 0x24 => s.clk.bocr.setWidth 32
  | 0x28 => s.clk.wcnt.setWidth 32
  | 0x2C => s.clk.wocr.setWidth 32
  | 0x30 => s.clk.txbuf.setWidth 32
  | 0x34 => s.seq.sreg.setWidth 32
  | 0x38 => s.seq.lc.setWidth 32
  | 0x3C => s.seq.pc.setWidth 32
  | 0x40 => s.osc.tinc
  | 0x44 => s.osc.telap
  | 0x48 => s.osc.tamp.setWidth 32
  | 0x4C => s.osc.tcur.setWidth 32
  | _ => 0

/-- An access the host tries, at a byte address, of a size in bytes. -/
inductive HostAccess
  | read (addr size : Nat)
  | write (addr size : Nat) (value : Word)
  deriving DecidableEq, Repr

/-- A legal read (R55): 32 bits, inside the window, at an offset that is a multiple of 4. -/
def legalRead (c : Config) (addr size : Nat) : Bool :=
  size == 4 && c.mmioBase ≤ addr && addr < c.mmioBase + 256 && (addr - c.mmioBase) % 4 == 0

/-- A host access (R55, R58, R64): a legal read gives the register's value and changes nothing; every other access is
refused, for the model gives the host no such move. -/
def hostAccess (s : State) : HostAccess → Host.Outcome Word Fault Refusal
  | .read addr size =>
    if legalRead s.cfg addr size then .next (windowRegister s (addr - s.cfg.mmioBase)) else .refused .hostAccess
  | .write _ _ _ => .refused .hostAccess

/-- The three output lines (R25, R50). -/
structure Lines where
  bclk : Bool
  ws : Bool
  sd : Bool
  deriving DecidableEq, Repr

/-- The levels of the lines at a cycle boundary (R148, R149). -/
def lines (s : State) : Lines where
  bclk := s.clk.bclk
  ws := s.clk.ws
  sd := s.clk.sd

/-- What the host observes of the model state (R148). -/
structure ModelView where
  cyc : Nat
  fault : Option FaultRecord
  halted : Bool
  ended : Bool
  deriving DecidableEq, Repr

/-- The model state at a cycle boundary (R148). -/
def modelView (s : State) : ModelView where
  cyc := s.cyc
  fault := s.fault
  halted := s.seq.halted
  ended := s.ended

/-- The trace of a run (R149): the states after each of its first n cycles, as far as the run goes. -/
def trace : Nat → State → List State
  | 0, _ => []
  | n + 1, s =>
    match step s with
    | .next t => t :: trace n t
    | _ => []

end Sys2Proof.Machine
end

