-- ==== Sys2Proof/Safety.lean ====
section
/-! DEFINITION. What a safe run is, in the terms claims use: the invariants of the sequencer, the clock/framing unit and
the oscillator, the closed form of the released unit's signals (R103 to R105), and a run without a fault (R134). -/

namespace Sys2Proof.Machine

/-- A run that has not ended, between two commands (R42). -/
def Boundary (s : State) : Prop := s.fault = none ∧ s.seq.halted = false ∧ s.seq.cur = none

/-- The environment does not stall at this cycle (R44): I = 0, or the draw says issue. -/
def NoStall (s : State) : Prop := s.seq.i = false ∨ Config.stallDraw s.draws = false

/-- The command a cycle works on: the one in progress, or the one the fetch would issue (R39, R42). -/
def commandInCycle (s : State) : Option Instr :=
  match s.seq.cur with
  | some i => some i
  | none =>
    match fetchDecode s with
    | .ok i => some i
    | .error _ => none

/-- The sequencer's invariant: BUSY counts a command's remaining cycles (R39), PC holds the index of the command in
progress (R16), CFG has masked interrupts (R92), and a recorded fault names the cycle and PC it was raised in (R135). -/
structure SequencerInv (s : State) : Prop where
  config : s.cfg.WellFormed = true
  memory : s.mem.wf = true
  idle : s.seq.cur = none → s.seq.busy = 0
  busy : ∀ i, s.seq.cur = some i → 1 ≤ s.seq.busy ∧ s.seq.busy ≤ cost s.cfg i
  word : ∀ i, s.seq.cur = some i → fetchDecode s = .ok i
  masked : s.seq.cur = some .cfg → s.seq.i = false
  halted : s.seq.halted = true → s.seq.cur = none
  record : ∀ r, s.fault = some r → r.cycle = s.cyc ∧ r.pc = s.seq.pc

/-- The unit as CFG leaves it, but for the transmit buffer, which TXI and TXS may have filled (R92, R94). -/
def ConfiguredForm (c : Config) (u : ClockUnit) : Prop :=
  ∃ b f x, u = { configureUnit c ClockUnit.initial with txbuf := b, txfull := f, txt := x }

/-- The unit after the release: the fields nothing writes any more, and the bounds of R36. -/
structure RunningForm (c : Config) (u : ClockUnit) : Prop where
  mode : u.mode = true
  hold : u.hold = false
  bocr : u.bocr.toNat = c.h - 1
  wocr : u.wocr.toNat = c.samplePeriod - 1
  bitpos : u.bitpos < c.w
  sr : u.sr.toNat < 2 ^ c.w

/-- The unit's invariant, by STATE (R19, R22, R25, R36, R37, R38), with the interrupt mask (R17, R66). -/
structure UnitInv (s : State) : Prop where
  config : s.cfg.WellFormed = true
  masked : s.seq.cur = some .cfg → s.seq.i = false
  unconfigured : s.clk.st = .unconfigured → s.clk = ClockUnit.initial
  configured : s.clk.st = .configured → ConfiguredForm s.cfg s.clk
  running : s.clk.st = .running → RunningForm s.cfg s.clk
  released : s.clk.st = .running → ∃ r, s.clk.release = some r ∧ r < s.cyc
  interrupts : s.clk.st ≠ .unconfigured → s.seq.i = false
  buffered : s.clk.txfull = true → ∃ x, s.clk.txt = some x ∧ x < s.cyc

/-- The oscillator's invariant (R117, R118): after a TONE the increment and the accumulator stay below P and TCUR is
out(TELAP); before it the WaveState is at reset. -/
structure OscillatorInv (s : State) : Prop where
  config : s.cfg.WellFormed = true
  unset : s.osc.tvalid = false → s.osc = Oscillator.initial
  increment : s.osc.tvalid = true → s.osc.tinc.toNat < s.cfg.fCpu
  elapsed : s.osc.tvalid = true → s.osc.telap.toNat < s.cfg.fCpu
  current : s.osc.tvalid = true → s.osc.tcur = waveOut s.cfg s.osc.tamp s.osc.telap

/-- A number is odd, as a level. -/
def odd (n : Nat) : Bool := n % 2 == 1

/-- The released unit k cycles after the release, in closed form: BCLK of R103, WS of R104, the bit position of R105,
and the counters that produce them. -/
structure SignalAt (c : Config) (k : Nat) (u : ClockUnit) : Prop where
  mode : u.mode = true
  hold : u.hold = false
  bocr : u.bocr.toNat = c.h - 1
  wocr : u.wocr.toNat = c.samplePeriod - 1
  dead : u.dead.toNat = c.epoch - k
  bcnt : u.bcnt.toNat = (k - c.epoch) % c.h
  bclk : u.bclk = xor c.bclkIdle (odd ((k - c.epoch) / c.h))
  wcnt : u.wcnt.toNat = if k < c.epoch then 256 - c.epoch + k else (k - c.epoch) % c.samplePeriod
  ws : u.ws = odd ((k - c.epoch) / c.samplePeriod)
  bitpos : u.bitpos = (k - c.epoch) / (2 * c.h) % c.w

/-- The signals of a run without a fault: k = t − R for the last cycle t = cyc − 1 (R13, R103, R104). -/
structure SignalInv (s : State) : Prop where
  unit : UnitInv s
  signal : s.clk.st = .running → s.fault = none →
    ∃ r k, s.clk.release = some r ∧ s.cyc = r + k + 1 ∧ SignalAt s.cfg k s.clk

/-- The coming cycle is a load point of the unit (R101): a bit boundary with BITPOS = 0. -/
def atLoadPoint (c : Config) (u : ClockUnit) : Prop :=
  u.mode = true ∧ u.hold = false ∧ (bclkUnit c u).2 = true ∧ u.bitpos = 0

/-- A delay command: it writes no state but PC (R82). -/
def isDelay (i : Instr) : Prop := i.mnemonic = .nop ∨ i.mnemonic = .dly8 ∨ i.mnemonic = .dly16

/-- The total cost of a list of commands. -/
def totalCost (c : Config) (is : List Instr) : Nat := (is.map (cost c)).sum

/-- The words of a list of commands stand in the command memory from index b on, inside PROG_WORDS (R47). -/
def Loaded (s : State) (b : Nat) (is : List Instr) : Prop :=
  ∀ j i, is[j]? = some i → b + j < s.cfg.progWords ∧ s.mem.readWord (b + j) = encode i

/-- A safe run of n cycles (R134): it takes them all and records no fault. -/
def SafeFor (n : Nat) (s : State) : Prop := ∃ t, run n s = .next t ∧ t.fault = none

end Sys2Proof.Machine
end

