-- ==== Sys2Proof/Certificates/Slice0/Obligations.lean ====
section
/-! DEFINITION. The statements for the provers (OBLIGATIONS.json). Every statement quantifies over the state, and so over
every configuration record and command memory the state carries; none rests on the value of a stall draw. -/

open Sys2Proof Sys2Proof.Machine

/-! ### Encoding (30_encoding.md) -/

/-- The decoder reads back every command from its word, with every operand at every value. -/
def Obligations.DecodeOfEncode : Prop := ∀ i : Instr, decode (encode i) = .command i

/-- A word decodes to at most the command it encodes: no bit of a decoded word is dropped (R75, R76). -/
def Obligations.EncodeOfDecode : Prop := ∀ (w : Word) (i : Instr), decode w = .command i → encode i = w

/-- R74: a word encodes a row's command exactly when it matches under the row's mask, no word matches two rows, and
every opcode not listed is illegal. -/
def Obligations.WordEncodesRowExactlyWhenItMatches : Prop :=
  (∀ (w : Word) (r : OpRow), r ∈ opcodeMap →
    ((∃ i, decode w = .command i ∧ i.mnemonic = r.mnemonic) ↔ w &&& r.mask = r.matchWord)) ∧
  (∀ (w : Word) (r q : OpRow), r ∈ opcodeMap → q ∈ opcodeMap →
    w &&& r.mask = r.matchWord → w &&& q.mask = q.matchWord → r = q) ∧
  (∀ w : Word, (∀ r ∈ opcodeMap, r.opcode ≠ opcodeOf w) → decode w = .illegal .unknownOpcode)

/-- R76: the illegal words are those of an opcode outside the map (242 of the 256) and those with a 1 in a must-be-0
bit; the all-zero word is illegal, and fetching an illegal word raises F_ILLEGAL with the word and no other effect. That
the raise is a step that answers the recorded state is the model's reading (log 5). -/
def Obligations.IllegalWordsAreExactlyThese : Prop :=
  (∀ w : Word, (∃ why, decode w = .illegal why) ↔
    ((∀ r ∈ opcodeMap, r.opcode ≠ opcodeOf w) ∨
      ∃ r ∈ opcodeMap, r.opcode = opcodeOf w ∧ w &&& r.form.mustBeZero ≠ 0)) ∧
  ((List.range 256).filter fun n => opcodeMap.all fun r => r.opcode.toNat != n).length = 242 ∧
  (∃ why, decode 0x00000000 = .illegal why) ∧ (∃ why, decode 0xFF000000 = .illegal why) ∧
  (∀ (s : State) (why : DecodeReject), Boundary s → NoStall s → s.seq.pc.toNat < s.cfg.progWords →
    decode (s.mem.readWord s.seq.pc.toNat) = .illegal why →
    step s = .next { s with
      fault := some ⟨.illegal (s.mem.readWord s.seq.pc.toNat), s.cyc, s.seq.pc⟩ })

/-- Words written out from 30_encoding.md and the vectors E1, E2 and E4 decode to the commands they stand for. -/
def Obligations.SampleWordsDecode : Prop :=
  decode 0x01000000 = .command .nop ∧ decode 0x020000FF = .command (.dly8 255) ∧
  decode 0x0300FFFF = .command (.dly16 65535) ∧ decode 0x10000000 = .command .cfg ∧
  decode 0x11000000 = .command .start ∧ decode 0x1200FF9C = .command (.txi 0xFF9C) ∧
  decode 0x13000000 = .command .txs ∧ decode 0x2001B864 = .command (.tone 440 100) ∧
  decode 0x209C40FB = .command (.tone 40000 0xFB) ∧ decode 0x21000000 = .command .getf ∧
  decode 0x22000000 = .command .getn ∧ decode 0x30000002 = .command (.ldlc 2) ∧
  decode 0x31000007 = .command (.djnz 7) ∧ decode 0x32000000 = .command (.jmp 0) ∧
  decode 0x3F000000 = .command .halt ∧ decode 0x3F000001 = .illegal .mustBeZero ∧
  decode 0xFF000000 = .illegal .unknownOpcode

/-! ### The commands at their effect cycle: word, cost, result and frame -/

/-- R83: NOP's word, cost and whole effect. -/
def Obligations.NopCostsOneAndAdvancesPc : Prop :=
  ∀ s : State, encode .nop = 0x01000000 ∧ cost s.cfg .nop = 1 ∧
    exec .nop s = .next { s with seq := { s.seq with pc := s.seq.pc + 1 } }

/-- R84: DLY8's word, its cost with the full-range loop at k = 0, and that it writes no state but PC. -/
def Obligations.Dly8CostsThreePerIteration : Prop :=
  ∀ (k : Byte) (s : State), encode (.dly8 k) = 0x02000000 + k.setWidth 32 ∧
    cost s.cfg (.dly8 k) = (if k = 0 then 768 else 3 * k.toNat) ∧
    exec (.dly8 k) s = .next { s with seq := { s.seq with pc := s.seq.pc + 1 } }

/-- R85: DLY16's word, its cost with the full-range loop at k = 0, and that it writes no state but PC. -/
def Obligations.Dly16CostsFourPerIteration : Prop :=
  ∀ (k : Half) (s : State), encode (.dly16 k) = 0x03000000 + k.setWidth 32 ∧
    cost s.cfg (.dly16 k) = (if k = 0 then 262144 else 4 * k.toNat) ∧
    exec (.dly16 k) s = .next { s with seq := { s.seq with pc := s.seq.pc + 1 } }

/-- R92: CFG's word and cost, its first-cycle write, the registers it sets in an unconfigured unit, and F_STATE. -/
def Obligations.CfgConfiguresOnce : Prop :=
  ∀ s : State, encode .cfg = 0x10000000 ∧ cost s.cfg .cfg = s.cfg.cCfg ∧
    firstCycle .cfg s = { s with seq := { s.seq with i := false } } ∧
    (s.clk.st = .unconfigured → exec .cfg s = .next { s with
      seq := { s.seq with pc := s.seq.pc + 1 }
      clk := { s.clk with
        hold := true, mode := true
        bocr := BitVec.ofNat 8 (s.cfg.h - 1), bcnt := 0
        wocr := BitVec.ofNat 8 (s.cfg.samplePeriod - 1), wcnt := BitVec.ofNat 8 (256 - s.cfg.epoch)
        dead := BitVec.ofNat 8 s.cfg.epoch
        bclk := s.cfg.bclkIdle, ws := false, sd := false
        sr := 0, bitpos := 0
        txbuf := 0, txfull := false, txt := none
        st := .configured } }) ∧
    (s.clk.st ≠ .unconfigured → exec .cfg s = .fault (.raised (.state .cfg)))

/-- R93: START's word and cost, the release of the hold at cycle t = cyc, and F_STATE. -/
def Obligations.StartReleasesTheHold : Prop :=
  ∀ s : State, encode .start = 0x11000000 ∧ cost s.cfg .start = s.cfg.cStart ∧
    (s.clk.st = .configured → exec .start s = .next { s with
      seq := { s.seq with pc := s.seq.pc + 1 }
      clk := { s.clk with hold := false, st := .running, release := some s.cyc } }) ∧
    (s.clk.st ≠ .configured → exec .start s = .fault (.raised (.state .start)))

/-- R94, R95: TXI hands its operand over when the unit is configured and TXFULL = 0; the check of STATE comes first,
then F_TX_REJECT. The info of F_STATE is the mnemonic (R135, log 8). -/
def Obligations.TxiHandsOverItsOperand : Prop :=
  ∀ (v : Half) (s : State), encode (.txi v) = 0x12000000 + v.setWidth 32 ∧ cost s.cfg (.txi v) = s.cfg.cTx ∧
    (s.clk.st ≠ .unconfigured → s.clk.txfull = false → exec (.txi v) s = .next { s with
      seq := { s.seq with pc := s.seq.pc + 1 }
      clk := { s.clk with txbuf := v, txfull := true, txt := some s.cyc } }) ∧
    (s.clk.st = .unconfigured → exec (.txi v) s = .fault (.raised (.state .txi))) ∧
    (s.clk.st ≠ .unconfigured → s.clk.txfull = true → exec (.txi v) s = .fault (.raised (.txReject v)))

/-- R94, R96: TXS hands SREG over, under the same checks. The info of F_STATE is the mnemonic (R135, log 8). -/
def Obligations.TxsHandsOverSreg : Prop :=
  ∀ s : State, encode .txs = 0x13000000 ∧ cost s.cfg .txs = s.cfg.cTx ∧
    (s.clk.st ≠ .unconfigured → s.clk.txfull = false → exec .txs s = .next { s with
      seq := { s.seq with pc := s.seq.pc + 1 }
      clk := { s.clk with txbuf := s.seq.sreg, txfull := true, txt := some s.cyc } }) ∧
    (s.clk.st = .unconfigured → exec .txs s = .fault (.raised (.state .txs))) ∧
    (s.clk.st ≠ .unconfigured → s.clk.txfull = true →
      exec .txs s = .fault (.raised (.txReject s.seq.sreg)))

/-- R114: TONE's word and cost, the WaveState it creates when FRAME_PERIOD·f < P, and F_TONE_RANGE. The new TCUR is
out(0) with the new amplitude, trunc_16(sext_8(a)), in every configuration with P ≥ 2. -/
def Obligations.ToneCreatesTheWaveState : Prop :=
  ∀ (f : Half) (a : Byte) (s : State), 2 ≤ s.cfg.fCpu →
    encode (.tone f a) = 0x20000000 + (f.setWidth 32 <<< 8) + a.setWidth 32 ∧
    cost s.cfg (.tone f a) = s.cfg.cTone ∧
    (s.cfg.framePeriod * f.toNat < s.cfg.fCpu → exec (.tone f a) s = .next { s with
      seq := { s.seq with pc := s.seq.pc + 1 }
      osc := { tinc := BitVec.ofNat 32 (s.cfg.framePeriod * f.toNat), telap := 0, tamp := a
               tcur := a.signExtend 16, tvalid := true } }) ∧
    (s.cfg.fCpu ≤ s.cfg.framePeriod * f.toNat →
      exec (.tone f a) s = .fault (.raised (.toneRange f (s.cfg.framePeriod * f.toNat))))

/-- R115: GETF's word and cost, SREG <- TCUR with nothing else changed, and F_STATE. -/
def Obligations.GetfReturnsTheCurrentSample : Prop :=
  ∀ s : State, encode .getf = 0x21000000 ∧ cost s.cfg .getf = s.cfg.cGetf ∧
    (s.osc.tvalid = true → exec .getf s = .next { s with
      seq := { s.seq with sreg := s.osc.tcur, pc := s.seq.pc + 1 } }) ∧
    (s.osc.tvalid = false → exec .getf s = .fault (.raised (.state .getf)))

/-- R116: GETN's word and cost, the phase advanced with the sample after or before the update (WAVE_LAT), and F_STATE.
adv and out are `waveAdvance` (R113) and `waveOut` (R112), stated in AdvanceWrapsOnceAtThePeriod and
OutputIsTheAmplitudeInTheFirstHalf. -/
def Obligations.GetnAdvancesThePhase : Prop :=
  ∀ s : State, encode .getn = 0x22000000 ∧ cost s.cfg .getn = s.cfg.cGetn ∧
    (s.osc.tvalid = true → exec .getn s = .next { s with
      seq := { s.seq with
        sreg := if s.cfg.waveLat then s.osc.tcur
          else waveOut s.cfg s.osc.tamp (waveAdvance s.cfg s.osc.tinc s.osc.telap)
        pc := s.seq.pc + 1 }
      osc := { s.osc with
        telap := waveAdvance s.cfg s.osc.tinc s.osc.telap
        tcur := waveOut s.cfg s.osc.tamp (waveAdvance s.cfg s.osc.tinc s.osc.telap) } }) ∧
    (s.osc.tvalid = false → exec .getn s = .fault (.raised (.state .getn)))

/-- R126: LDLC's word, cost and whole effect. -/
def Obligations.LdlcLoadsTheLoopCounter : Prop :=
  ∀ (v : Half) (s : State), encode (.ldlc v) = 0x30000000 + v.setWidth 32 ∧ cost s.cfg (.ldlc v) = s.cfg.cLdlc ∧
    exec (.ldlc v) s = .next { s with seq := { s.seq with lc := v, pc := s.seq.pc + 1 } }

/-- R127: DJNZ's word and cost, the fall-through at LC = 1, and the branch at every other LC, with 0 wrapping to 65535.
-/
def Obligations.DjnzDecrementsAndBranches : Prop :=
  ∀ (t : Half) (s : State), encode (.djnz t) = 0x31000000 + t.setWidth 32 ∧ cost s.cfg (.djnz t) = s.cfg.cDjnz ∧
    (s.seq.lc = 1 → exec (.djnz t) s = .next { s with seq := { s.seq with lc := 0, pc := s.seq.pc + 1 } }) ∧
    (s.seq.lc = 0 → exec (.djnz t) s = .next { s with seq := { s.seq with lc := 65535, pc := t } }) ∧
    (s.seq.lc.toNat ≥ 2 → exec (.djnz t) s = .next { s with
      seq := { s.seq with lc := BitVec.ofNat 16 (s.seq.lc.toNat - 1), pc := t } })

/-- R128: JMP's word, cost and whole effect. -/
def Obligations.JmpSetsPc : Prop :=
  ∀ (t : Half) (s : State), encode (.jmp t) = 0x32000000 + t.setWidth 32 ∧ cost s.cfg (.jmp t) = s.cfg.cJmp ∧
    exec (.jmp t) s = .next { s with seq := { s.seq with pc := t } }

/-- R129: HALT's word, cost and whole effect, legal in any STATE. -/
def Obligations.HaltEndsTheRun : Prop :=
  ∀ s : State, encode .halt = 0x3F000000 ∧ cost s.cfg .halt = s.cfg.cHalt ∧
    exec .halt s = .next { s with seq := { s.seq with halted := true } }

/-! ### The cycle (10_state.md section 9, 60_exceptions.md) -/

/-- R43: a step between commands issues the command the word at PC decodes to, runs the peripheral step, and then either
counts BUSY down or, when the command costs one cycle, applies exec to that state; cyc advances. `draws` is the model's
own counter of stall draws (log 4). -/
def Obligations.StepRunsTheDecodedCommand : Prop :=
  ∀ (s : State) (i : Instr) (u : ClockUnit), Boundary s → NoStall s →
    s.seq.pc.toNat < s.cfg.progWords → decode (s.mem.readWord s.seq.pc.toNat) = .command i →
    periph s.cfg s.cyc s.clk = .ok u →
    ∀ e : State, e = { s with
      seq := { s.seq with cur := some i, busy := cost s.cfg i, i := if i = .cfg then false else s.seq.i }
      clk := u, draws := if s.seq.i then s.draws + 1 else s.draws } →
    (1 < cost s.cfg i →
      step s = .next { e with seq := { e.seq with busy := cost s.cfg i - 1 }, cyc := s.cyc + 1 }) ∧
    (cost s.cfg i = 1 → ∀ t, exec i e = .next t →
      step s = .next { t with seq := { t.seq with cur := none, busy := 0 }, cyc := t.cyc + 1 })

/-- R43: a step inside a command runs the peripheral step, counts BUSY down, and applies exec when BUSY reaches 0. -/
def Obligations.StepInsideACommand : Prop :=
  ∀ (s : State) (i : Instr) (u : ClockUnit), s.fault = none → s.seq.halted = false → s.seq.cur = some i →
    periph s.cfg s.cyc s.clk = .ok u →
    (1 < s.seq.busy → step s = .next { s with
      seq := { s.seq with busy := s.seq.busy - 1 }, clk := u, cyc := s.cyc + 1 }) ∧
    (s.seq.busy = 1 → ∀ t, exec i { s with clk := u } = .next t →
      step s = .next { t with seq := { t.seq with cur := none, busy := 0 }, cyc := t.cyc + 1 })

/-- R42, R43, R153: a command issued where no stall falls occupies exactly its cost in cycles: after that many steps the
state is what its meaning gives at the last of them, or the record of the fault it raises there (R136, log 5), with CUR
and BUSY = 1 kept (log 11). `draws` is the model's own counter (log 4). -/
def Obligations.CommandRunsForExactlyItsCost : Prop :=
  ∀ (s : State) (i : Instr) (u : ClockUnit), Boundary s → NoStall s → fetchDecode s = .ok i →
    1 ≤ cost s.cfg i → periphRun s.cfg s.cyc (cost s.cfg i) s.clk = .ok u →
    ∀ e : State, e = { s with
      seq := { s.seq with cur := some i, busy := 1, i := if i = .cfg then false else s.seq.i }
      clk := u, cyc := s.cyc + (cost s.cfg i - 1)
      draws := if s.seq.i then s.draws + 1 else s.draws } →
    (∀ t, exec i e = .next t → run (cost s.cfg i) s =
      .next { t with seq := { t.seq with cur := none, busy := 0 }, cyc := t.cyc + 1 }) ∧
    (∀ m, exec i e = .fault (.raised m) → run (cost s.cfg i) s =
      .next { e with fault := some ⟨m, e.cyc, e.seq.pc⟩ })

/-- R44: a stall leaves the sequencer and the oscillator as they are, runs the peripheral step and takes one cycle; none
is possible while I = 0 or inside a command, whatever the environment draws. That the draws are numbered by the counter
`draws` is the model's choice (log 4). -/
def Obligations.StallRunsOnlyThePeripheral : Prop :=
  (∀ (s : State) (u : ClockUnit), Boundary s → s.seq.i = true → periph s.cfg s.cyc s.clk = .ok u →
    cycleWith true s = .next { s with clk := u, cyc := s.cyc + 1, draws := s.draws + 1 }) ∧
  (∀ (s : State) (d e : Bool), s.seq.i = false ∨ s.seq.cur ≠ none → cycleWith d s = cycleWith e s) ∧
  (∀ s : State, step s = cycleWith (Config.stallDraw s.draws) s)

/-- R45: a run ends exactly by HALTED = 1 or a recorded fault; after that there is no step, and before it every step
answers a next state. That "no step" is a fault answered by `step` is the model's choice (log 6). -/
def Obligations.StepsExactlyUntilTheRunEnds : Prop :=
  (∀ (s : State) (r : FaultRecord), s.fault = some r → step s = .fault (.stopped r)) ∧
  (∀ s : State, s.fault = none → s.seq.halted = true → step s = .fault .halted) ∧
  (∀ s : State, s.fault = none → s.seq.halted = false → ∃ t, step s = .next t)

/-- R136: the recorded state of a fault of each step. Step 1 leaves the state of the cycle before, step 2 keeps the
writes of the issue (which a cycle inside a command does not make), step 3 keeps the peripheral step's writes too; cyc
does not advance. That the step answers the recorded state is the model's reading (log 5), as is that a step 3 fault keeps
CUR and BUSY = 1 (log 11); `draws` is the model's own counter (log 4). -/
def Obligations.FaultsArePrecise : Prop :=
  (∀ s : State, Boundary s → NoStall s → s.cfg.progWords ≤ s.seq.pc.toNat →
    step s = .next { s with fault := some ⟨.fetch s.seq.pc, s.cyc, s.seq.pc⟩ }) ∧
  (∀ (s : State) (m : ModelFault), Boundary s → NoStall s → fetchDecode s = .error m →
    step s = .next { s with fault := some ⟨m, s.cyc, s.seq.pc⟩ }) ∧
  (∀ (s : State) (m : ModelFault), Boundary s → s.seq.i = true → periph s.cfg s.cyc s.clk = .error m →
    cycleWith true s = .next { s with draws := s.draws + 1, fault := some ⟨m, s.cyc, s.seq.pc⟩ }) ∧
  (∀ (s : State) (i : Instr) (m : ModelFault), Boundary s → NoStall s → fetchDecode s = .ok i →
    periph s.cfg s.cyc s.clk = .error m →
    step s = .next { s with
      seq := { s.seq with cur := some i, busy := cost s.cfg i, i := if i = .cfg then false else s.seq.i }
      draws := if s.seq.i then s.draws + 1 else s.draws
      fault := some ⟨m, s.cyc, s.seq.pc⟩ }) ∧
  (∀ (s : State) (i : Instr) (u : ClockUnit) (m : ModelFault), s.fault = none → s.seq.halted = false →
    s.seq.cur = some i → s.seq.busy = 1 → periph s.cfg s.cyc s.clk = .ok u →
    exec i { s with clk := u } = .fault (.raised m) →
    step s = .next { s with clk := u, fault := some ⟨m, s.cyc, s.seq.pc⟩ }) ∧
  (∀ (s : State) (i : Instr) (m : ModelFault), s.fault = none → s.seq.halted = false → s.seq.cur = some i →
    periph s.cfg s.cyc s.clk = .error m →
    step s = .next { s with fault := some ⟨m, s.cyc, s.seq.pc⟩ })

/-- R40, R135, R136: a step advances cyc by one, except that a step that records a fault leaves it, and the record holds
that cycle and its PC. -/
def Obligations.CycAdvancesUnlessAFaultIsRecorded : Prop :=
  ∀ s t : State, step s = .next t →
    (t.fault = none ∧ t.cyc = s.cyc + 1) ∨
    (∃ m, t.fault = some ⟨m, s.cyc, s.seq.pc⟩ ∧ t.cyc = s.cyc ∧ t.seq.pc = s.seq.pc)

/-! ### Whole-machine rules -/

/-- R14, R64, R69: no step writes the configuration or the command memory. -/
def Obligations.ConfigurationAndCommandMemoryAreFixed : Prop :=
  ∀ s t : State, step s = .next t → t.cfg = s.cfg ∧ t.mem = s.mem

/-- R15 to R19, R21 to R26, R37, R38, R65, R133: what a step changes is written by the commands the rules name. SREG
changes only in a cycle of GETF or GETN, LC only of LDLC or DJNZ, the oscillator only of TONE or GETN, STATE and HOLD only
of CFG or START, I, MODE, BOCR and WOCR only of CFG, HALTED only of HALT, TXBUF and TXT only of CFG, TXI or TXS, R only of
START. PC changes only where a command retires, never by HALT: to PC + 1, or to the target of JMP or DJNZ. TXFULL is set
only by TXI or TXS, and cleared only by CFG or at a load point. After CFG the counters, lines, SR and BITPOS are the
peripheral step's, which itself leaves STATE, HOLD, MODE, BOCR, WOCR, TXBUF, TXT and R alone. -/
def Obligations.RegistersChangeOnlyByTheirCommands : Prop :=
  (∀ s t : State, step s = .next t →
    (t.seq.sreg ≠ s.seq.sreg → commandInCycle s = some .getf ∨ commandInCycle s = some .getn) ∧
    (t.seq.lc ≠ s.seq.lc → ∃ v, commandInCycle s = some (.ldlc v) ∨ commandInCycle s = some (.djnz v)) ∧
    (t.osc ≠ s.osc → commandInCycle s = some .getn ∨ ∃ f a, commandInCycle s = some (.tone f a)) ∧
    (t.clk.st ≠ s.clk.st → commandInCycle s = some .cfg ∨ commandInCycle s = some .start) ∧
    (t.seq.i ≠ s.seq.i → commandInCycle s = some .cfg) ∧
    (t.seq.halted ≠ s.seq.halted → commandInCycle s = some .halt) ∧
    (t.seq.pc ≠ s.seq.pc → t.seq.cur = none ∧ ∃ i, commandInCycle s = some i ∧ i ≠ .halt ∧
      (t.seq.pc = s.seq.pc + 1 ∨ i = .jmp t.seq.pc ∨ i = .djnz t.seq.pc)) ∧
    (t.clk.hold ≠ s.clk.hold → commandInCycle s = some .cfg ∨ commandInCycle s = some .start) ∧
    (t.clk.mode ≠ s.clk.mode → commandInCycle s = some .cfg) ∧
    (t.clk.bocr ≠ s.clk.bocr → commandInCycle s = some .cfg) ∧
    (t.clk.wocr ≠ s.clk.wocr → commandInCycle s = some .cfg) ∧
    (t.clk.txbuf ≠ s.clk.txbuf →
      commandInCycle s = some .cfg ∨ commandInCycle s = some .txs ∨ ∃ v, commandInCycle s = some (.txi v)) ∧
    (t.clk.txt ≠ s.clk.txt →
      commandInCycle s = some .cfg ∨ commandInCycle s = some .txs ∨ ∃ v, commandInCycle s = some (.txi v)) ∧
    (s.clk.txfull = false → t.clk.txfull = true →
      commandInCycle s = some .txs ∨ ∃ v, commandInCycle s = some (.txi v)) ∧
    (s.clk.txfull = true → t.clk.txfull = false → commandInCycle s = some .cfg ∨ atLoadPoint s.cfg s.clk) ∧
    (t.clk.release ≠ s.clk.release → commandInCycle s = some .start) ∧
    (s.clk.st ≠ .unconfigured → t.fault = none → ∃ u, periph s.cfg s.cyc s.clk = .ok u ∧
      t.clk.bcnt = u.bcnt ∧ t.clk.wcnt = u.wcnt ∧ t.clk.dead = u.dead ∧ t.clk.bclk = u.bclk ∧ t.clk.ws = u.ws ∧
      t.clk.sd = u.sd ∧ t.clk.sr = u.sr ∧ t.clk.bitpos = u.bitpos)) ∧
  (∀ (c : Config) (t : Nat) (u v : ClockUnit), periph c t u = .ok v →
    v.st = u.st ∧ v.hold = u.hold ∧ v.mode = u.mode ∧ v.bocr = u.bocr ∧ v.wocr = u.wocr ∧
    v.txbuf = u.txbuf ∧ v.txt = u.txt ∧ v.release = u.release)

/-- R17, R18, R19, R21: no step sets I, clears TVALID, or takes STATE back: it stays, or goes from UNCONFIGURED to
CONFIGURED, or from CONFIGURED to RUNNING; and a step starts only from HALTED = 0 and FAULT = none. -/
def Obligations.StatusMovesForwardOnly : Prop :=
  ∀ s t : State, step s = .next t →
    (t.seq.i = true → s.seq.i = true) ∧ (s.osc.tvalid = true → t.osc.tvalid = true) ∧
    (t.clk.st = s.clk.st ∨ (s.clk.st = .unconfigured ∧ t.clk.st = .configured) ∨
      (s.clk.st = .configured ∧ t.clk.st = .running)) ∧
    s.seq.halted = false ∧ s.fault = none

/-- R97, R109: while the unit is held or off its peripheral step moves nothing, and between CFG and START no step makes a
counting unit advance or changes a line. -/
def Obligations.NothingMovesBeforeTheRelease : Prop :=
  (∀ (c : Config) (t : Nat) (u : ClockUnit), u.mode = false ∨ u.hold = true → periph c t u = .ok u) ∧
  (∀ s t : State, UnitInv s → s.clk.st = .configured → step s = .next t →
    t.clk.bcnt = s.clk.bcnt ∧ t.clk.wcnt = s.clk.wcnt ∧ t.clk.dead = s.clk.dead ∧ t.clk.bclk = s.clk.bclk ∧
    t.clk.ws = s.clk.ws ∧ t.clk.sd = s.clk.sd ∧ t.clk.sr = s.clk.sr ∧ t.clk.bitpos = s.clk.bitpos)

/-- R124, R123: the oscillator commands read no state of the clock/framing unit: two states with the same configuration,
sequencer and oscillator get the same sequencer and oscillator, or the same fault, whatever their units hold. -/
def Obligations.OscillatorIgnoresTheClockUnit : Prop :=
  ∀ (s : State) (u : ClockUnit) (i : Instr), i = .getf ∨ i = .getn ∨ (∃ f a, i = .tone f a) →
    (∀ t, exec i s = .next t → exec i { s with clk := u } = .next { t with clk := u }) ∧
    (∀ m, exec i s = .fault m → exec i { s with clk := u } = .fault m)

/-! ### Invariants -/

/-- The sequencer's invariant is kept by every step (R16, R39, R92, R135). -/
def Obligations.SequencerInvKept : Prop := ∀ s t : State, SequencerInv s → step s = .next t → SequencerInv t

/-- The clock/framing unit's invariant is kept by every step (R19, R22, R25, R36, R37, R66). -/
def Obligations.UnitInvKept : Prop := ∀ s t : State, UnitInv s → step s = .next t → UnitInv t

/-- R117, R118: the oscillator's invariant is kept by every step: TELAP and TINC stay below P and TCUR is out(TELAP). -/
def Obligations.OscillatorInvKept : Prop := ∀ s t : State, OscillatorInv s → step s = .next t → OscillatorInv t

/-- R103, R104: the closed forms of BCLK and WS, with the counters that produce them, hold after every step of a run
without a fault. -/
def Obligations.SignalInvKept : Prop := ∀ s t : State, SignalInv s → step s = .next t → SignalInv t

/-- Every launch starts inside all four invariants. -/
def Obligations.LaunchEstablishesTheInvariants : Prop :=
  ∀ (c : Config) (words : List Word) (i : Option Bool) (s : State), launchWords c words i = .next s →
    SequencerInv s ∧ UnitInv s ∧ OscillatorInv s ∧ SignalInv s

/-- The reset state is inside all four invariants. Its configuration (REF) and its empty image are the model's choice
(log 3). -/
def Obligations.ResetEstablishesTheInvariants : Prop :=
  SequencerInv State.reset ∧ UnitInv State.reset ∧ OscillatorInv State.reset ∧ SignalInv State.reset

/-! ### The clock/framing unit (41_clock_driver.md) -/

/-- R97: one cycle of the released unit keeps the closed form of its signals, at the next k. -/
def Obligations.PeripheralStepKeepsTheSignalForm : Prop :=
  ∀ (c : Config) (t k : Nat) (u v : ClockUnit), c.WellFormed = true → SignalAt c k u → periph c t u = .ok v →
    SignalAt c (k + 1) v

/-- R104: a WS edge falls only in a cycle in which BCLK returns to BCLK_IDLE. R105: SD changes only there too. -/
def Obligations.LinesChangeOnlyAtBitBoundaries : Prop :=
  ∀ (c : Config) (t k : Nat) (u v : ClockUnit), c.WellFormed = true → SignalAt c k u → periph c t u = .ok v →
    v.ws ≠ u.ws ∨ v.sd ≠ u.sd → u.bclk ≠ c.bclkIdle ∧ v.bclk = c.bclkIdle

/-- R105: the load points fall exactly at k_load(s) = E + 2H(sW + 1). -/
def Obligations.LoadPointsFallOnTheCadence : Prop :=
  ∀ (c : Config) (k : Nat) (u : ClockUnit), c.WellFormed = true → SignalAt c k u →
    (atLoadPoint c u ↔ ∃ s, k + 1 = c.epoch + 2 * c.h * (s * c.w + 1))

/-- R101, R102: at a load point F_UNDERRUN if TXFULL = 0, else F_SETUP unless t − TXT ≥ TX_SETUP = BIT_PERIOD, else the
low W bits of TXBUF are taken, TXFULL is cleared and the first bit goes out. -/
def Obligations.LoadPointTakesTheWordOrFaults : Prop :=
  ∀ (c : Config) (t : Nat) (u : ClockUnit), c.WellFormed = true → atLoadPoint c u →
    (u.txfull = false → periph c t u = .error (.underrun t)) ∧
    (∀ x, u.txfull = true → u.txt = some x → t < x + 2 * c.h → periph c t u = .error (.setup t u.txt)) ∧
    (∀ x, u.txfull = true → u.txt = some x → x + 2 * c.h ≤ t → ∃ v, periph c t u = .ok v ∧
      v.txfull = false ∧ v.sd = u.txbuf.getLsbD (c.w - 1) ∧
      v.sr.toNat = (u.txbuf.toNat % 2 ^ c.w * 2) % 2 ^ c.w ∧ v.bitpos = 1 % c.w ∧ v.txbuf = u.txbuf ∧ v.txt = u.txt)

/-- R100, R105: a slot carries its word most significant bit first: from the load point on, bit W−1−j of the word taken
is on SD for the whole of bit j, and no later word is needed before the slot's last cycle. -/
def Obligations.SlotCarriesItsWordMsbFirst : Prop :=
  ∀ (c : Config) (k t n x : Nat) (u : ClockUnit), c.WellFormed = true → SignalAt c k u → atLoadPoint c u →
    u.txfull = true → u.txt = some x → x + 2 * c.h ≤ t → n < c.samplePeriod →
    ∃ v, periphRun c t (n + 1) u = .ok v ∧ v.sd = u.txbuf.getLsbD (c.w - 1 - n / (2 * c.h))

/-- R105: SD is 0 in every cycle k < E + 2H after the release. -/
def Obligations.SdIsLowBeforeTheFirstLoad : Prop :=
  ∀ (c : Config) (r n : Nat) (u v : ClockUnit), c.WellFormed = true → ConfiguredForm c u → n < c.loadCycle 0 →
    periphRun c (r + 1) n (releaseUnit r u) = .ok v → v.sd = false

/-- R106: a word that stands in TXBUF since a transmit at cycle x, before or after the release at r, with no load point
left before slot s's, is taken at its slot's load point without fault exactly when k_tx = x − r ≤ k_load(s) − TX_SETUP. So a
word handed over before START primes slot 0. -/
def Obligations.TransmitWindowEndsOneBitBeforeTheLoad : Prop :=
  (∀ (c : Config) (r k s x : Nat) (u : ClockUnit), c.WellFormed = true → SignalAt c k u → u.txfull = true →
    u.txt = some x → k < c.loadCycle s → (∀ q, q < s → c.loadCycle q ≤ k) →
    ((∃ v, periphRun c (r + k + 1) (c.loadCycle s - k) u = .ok v) ↔ x + 2 * c.h ≤ r + c.loadCycle s)) ∧
  (∀ (c : Config) (r x : Nat) (u : ClockUnit), c.WellFormed = true → ConfiguredForm c u → u.txfull = true →
    u.txt = some x → x < r → ∃ v, periphRun c (r + 1) (c.loadCycle 0) (releaseUnit r u) = .ok v ∧
      v.sd = u.txbuf.getLsbD (c.w - 1) ∧ v.txfull = false)

/-! ### The oscillator (42_tone.md) -/

/-- R112: out(e) is the amplitude in the first half-period, and its 16-bit negation or zero in the second. -/
def Obligations.OutputIsTheAmplitudeInTheFirstHalf : Prop :=
  ∀ (c : Config) (a : Byte) (e : Word),
    (e.toNat < c.fCpu / 2 → (waveOut c a e).toInt = a.toInt) ∧
    (c.fCpu / 2 ≤ e.toNat → c.waveNeg = .negate → (waveOut c a e).toInt = -a.toInt) ∧
    (c.fCpu / 2 ≤ e.toNat → c.waveNeg = .zero → waveOut c a e = 0)

/-- R113: with TINC < P and e < P the advance is exact, wraps at most once, and stays below P. -/
def Obligations.AdvanceWrapsOnceAtThePeriod : Prop :=
  ∀ (c : Config) (inc e : Word), c.WellFormed = true → inc.toNat < c.fCpu → e.toNat < c.fCpu →
    (waveAdvance c inc e).toNat =
      (if c.fCpu ≤ e.toNat + inc.toNat then e.toNat + inc.toNat - c.fCpu else e.toNat + inc.toNat) ∧
    (waveAdvance c inc e).toNat < c.fCpu

/-- R119: after TONE f, a, the accumulator after n advances is e_n = (n · TINC) mod P, and the GETN after them, the
(n+1)-th, returns out(e_(n+1)), or out(e_n) with WAVE_LAT = 1. -/
def Obligations.NthSampleFollowsThePhase : Prop :=
  ∀ (c : Config) (f : Half) (a : Byte) (n : Nat), c.WellFormed = true → c.framePeriod * f.toNat < c.fCpu →
    ((advanceWave c)^[n] (newWave c f a)).telap.toNat = n * (c.framePeriod * f.toNat) % c.fCpu ∧
    nextSample c ((advanceWave c)^[n] (newWave c f a)) =
      waveOut c a (BitVec.ofNat 32
        ((if c.waveLat then n else n + 1) * (c.framePeriod * f.toNat) % c.fCpu))

/-! ### Delays and loops (40_delay.md, 43_sequencer.md) -/

/-- R87: the plan of DELAY n costs exactly n, uses delay commands only, and its loop count is never 0 and never
truncated. -/
def Obligations.DelayPlanCostsExactlyN : Prop :=
  ∀ (c : Config) (n : Nat), n ≤ 262143 →
    totalCost c (planDelay n) = n ∧ (∀ i ∈ planDelay n, isDelay i) ∧
    (∀ k, .dly8 k ∈ planDelay n → k.toNat = n / 3 ∧ 5 ≤ n / 3) ∧
    (∀ k, .dly16 k ∈ planDelay n → k.toNat = n / 4 ∧ 192 ≤ n / 4)

/-- R88: the recursive halving yields exactly n NOPs. -/
def Obligations.UnrollYieldsNNops : Prop :=
  ∀ depth n : Nat, n < 2 ^ depth → unroll depth n = List.replicate n .nop

/-- R82, R87, R90: the words of DELAY n, where no stall can fall, run for exactly n cycles and change nothing but PC,
besides the clock/framing unit's own cycles. -/
def Obligations.DelayRunsForExactlyN : Prop :=
  ∀ (s : State) (n : Nat) (u : ClockUnit), n ≤ 262143 → Boundary s → s.seq.busy = 0 → s.seq.i = false →
    s.cfg.progWords ≤ 65536 → Loaded s s.seq.pc.toNat (planDelay n) →
    periphRun s.cfg s.cyc n s.clk = .ok u →
    run n s = .next { s with
      seq := { s.seq with pc := s.seq.pc + BitVec.ofNat 16 (planDelay n).length }
      clk := u, cyc := s.cyc + n }

/-- R131: a loop of delay commands closed by DJNZ, entered with LC = v (65536 for 0), takes v·(B + C_DJNZ) cycles and
falls through with LC = 0. -/
def Obligations.LoopTakesLcTimesItsCost : Prop :=
  ∀ (s : State) (body : List Instr) (u : ClockUnit), Boundary s → s.seq.busy = 0 → s.seq.i = false →
    s.cfg.WellFormed = true → (∀ i ∈ body, isDelay i) → Loaded s s.seq.pc.toNat (body ++ [.djnz s.seq.pc]) →
    ∀ v T : Nat, v = (if s.seq.lc = 0 then 65536 else s.seq.lc.toNat) →
    T = v * (totalCost s.cfg body + s.cfg.cDjnz) →
    periphRun s.cfg s.cyc T s.clk = .ok u →
    run T s = .next { s with
      seq := { s.seq with lc := 0, pc := s.seq.pc + BitVec.ofNat 16 (body.length + 1) }
      clk := u, cyc := s.cyc + T }

/-! ### Configuration, launch, memory and the host (00_scope.md, 20_memory.md) -/

/-- R8, R9: the derived constants and their ranges under the checks of R7; EPOCH is 0 in the TOGGLE variant and
START_LATENCY − H in the USART variant, and the first BCLK edge after the release falls at cycle EPOCH + H. -/
def Obligations.DerivedConstantsAndRanges : Prop :=
  ∀ c : Config, c.WellFormed = true →
    c.bitPeriod = 2 * c.h ∧ c.samplePeriod = c.bitPeriod * c.w ∧ c.framePeriod = 2 * c.samplePeriod ∧
    2 ≤ c.bitPeriod ∧ c.bitPeriod ≤ 16 ∧ 2 ≤ c.samplePeriod ∧ c.samplePeriod ≤ 256 ∧
    4 ≤ c.framePeriod ∧ c.framePeriod ≤ 512 ∧
    (c.variant = .toggle → c.epoch = 0) ∧ (c.variant = .usart → c.epoch + c.h = c.startLatency) ∧
    ∀ (r n : Nat) (u : ClockUnit), ConfiguredForm c u → n ≤ c.epoch + c.h →
      ∃ v, periphRun c (r + 1) n (releaseUnit r u) = .ok v ∧ (v.bclk = c.bclkIdle ↔ n < c.epoch + c.h)

/-- R6, R7, R138, R148: a record that fails a check has no launch, whatever image and I_LAUNCH the host gives; a legal record
with an image that fits has one. A record is legal exactly when it passes every check, and each check is R7's inequality,
under its own name. That R6's legal values of MMIO_BASE, and of START_LATENCY in the TOGGLE variant, are among the checks is
the model's reading (log 10). -/
def Obligations.OnlyLegalConfigurationsLaunch : Prop :=
  ∀ (c : Config) (words : List Word) (i : Option Bool),
    (c.WellFormed = false → ∃ k, launchWords c words i = .refused (.configuration k) ∧ c.passes k = false) ∧
    (c.WellFormed = true → words.length ≤ c.progWords → ∃ s, launchWords c words i = .next s) ∧
    (c.WellFormed = true → c.progWords < words.length → launchWords c words i = .refused .imageTooLong) ∧
    (c.WellFormed = true ↔ ∀ k, c.passes k = true) ∧
    (c.passes .h = true ↔ 1 ≤ c.h ∧ c.h ≤ 8) ∧
    (c.passes .w = true ↔ 1 ≤ c.w ∧ c.w ≤ 16) ∧
    (c.passes .p = true ↔ 2 ≤ c.fCpu ∧ c.fCpu ≤ 2 ^ 31) ∧
    (c.passes .lat = true ↔ (c.variant = .usart → c.h ≤ c.startLatency)) ∧
    (c.passes .fit = true ↔ c.epoch + c.samplePeriod ≤ 256) ∧
    (c.passes .mem = true ↔ 1 ≤ c.progWords ∧ c.progWords ≤ 65536) ∧
    (c.passes .cost = true ↔ ∀ cost ∈ [c.cCfg, c.cStart, c.cTx, c.cTone, c.cGetf, c.cGetn, c.cLdlc, c.cDjnz, c.cJmp,
      c.cHalt], 1 ≤ cost) ∧
    (c.passes .base = true ↔ ∃ m, c.mmioBase = 256 * m) ∧
    (c.passes .toggleLat = true ↔ (c.variant = .toggle → c.startLatency = 0))

/-- R46: a launch puts every item of state at the value of the table. -/
def Obligations.LaunchPutsTheResetValues : Prop :=
  ∀ (c : Config) (words : List Word) (i : Option Bool) (s : State), launchWords c words i = .next s →
    s.cfg = c ∧
    s.seq = { pc := 0, lc := 0, sreg := 0, i := i.getD false, halted := false, cur := none, busy := 0 } ∧
    s.clk = { st := .unconfigured, hold := true, mode := false, bcnt := 0, bocr := 0, wcnt := 0, wocr := 0, dead := 0
              bclk := false, ws := false, sd := false, txbuf := 0, txfull := false, txt := none
              sr := 0, bitpos := 0, release := none } ∧
    s.osc = { tinc := 0, telap := 0, tamp := 0, tcur := 0, tvalid := false } ∧
    s.cyc = 0 ∧ s.fault = none ∧
    windowRegister s 0x08 = configWord c ∧ windowRegister s 0x0C = BitVec.ofNat 32 (c.epoch % 256) ∧
    windowRegister s 0x10 = BitVec.ofNat 32 c.bitPeriod ∧ windowRegister s 0x14 = BitVec.ofNat 32 c.samplePeriod ∧
    windowRegister s 0x18 = BitVec.ofNat 32 c.framePeriod ∧ windowRegister s 0x1C = BitVec.ofNat 32 c.fCpu

/-- R47, R148: after a launch the sequencer reads the image's words at their indices and 0 at every other index. -/
def Obligations.LoadedImageIsWhatIsFetched : Prop :=
  ∀ (c : Config) (words : List Word) (i : Option Bool) (s : State), launchWords c words i = .next s →
    ∀ j, s.mem.readWord j = words.getD j 0

/-- R52, R56, R148: four bytes are the word with the first of them in bits 7:0, a byte image of whole words launches
exactly those words, and an image with a partial word is refused. -/
def Obligations.ByteImageIsLittleEndian : Prop :=
  (∀ b0 b1 b2 b3 : Byte, ∃ w : Word, wordsOfImage [b0, b1, b2, b3] = some [w] ∧
    w.toNat = b0.toNat + 256 * b1.toNat + 65536 * b2.toNat + 16777216 * b3.toNat) ∧
  (∀ words : List Word, wordsOfImage (words.flatMap bytesOfWord) = some words) ∧
  (∀ (bytes : List Byte) (words : List Word), wordsOfImage bytes = some words → words.flatMap bytesOfWord = bytes) ∧
  (∀ (c : Config) (words : List Word) (i : Option Bool),
    launch c (words.flatMap bytesOfWord) i = launchWords c words i) ∧
  (∀ (c : Config) (bytes : List Byte) (i : Option Bool), bytes.length % 4 ≠ 0 →
    launch c bytes i = .refused .partialWord)

/-- R55, R58: the host's only access is an aligned 32-bit read inside the window; every other one is refused. -/
def Obligations.HostReadsOnlyAlignedWindowWords : Prop :=
  ∀ (s : State) (addr size : Nat) (v : Word),
    (∀ off, off < 256 → off % 4 = 0 →
      hostAccess s (.read (s.cfg.mmioBase + off) 4) = .next (windowRegister s off)) ∧
    (size ≠ 4 ∨ addr < s.cfg.mmioBase ∨ s.cfg.mmioBase + 256 ≤ addr ∨ (addr - s.cfg.mmioBase) % 4 ≠ 0 →
      hostAccess s (.read addr size) = .refused .hostAccess) ∧
    hostAccess s (.write addr size v) = .refused .hostAccess

/-- R19, R31, R33, R34: CTRL, STATUS and CONFIG show the fields they name, bit by bit, the other registers show their
register zero-extended, and every reserved bit and offset reads 0. The read-only constants are in
LaunchPutsTheResetValues and DerivedConstantsAndRanges. -/
def Obligations.WindowShowsTheFieldsItNames : Prop :=
  ∀ s : State, s.cfg.WellFormed = true →
    (windowRegister s 0x00).getLsbD 0 = s.clk.hold ∧ (windowRegister s 0x00).getLsbD 1 = s.clk.mode ∧
    (windowRegister s 0x00) >>> 2 = 0 ∧
    (s.clk.st = .unconfigured → (windowRegister s 0x04).extractLsb' 0 2 = 0) ∧
    (s.clk.st = .configured → (windowRegister s 0x04).extractLsb' 0 2 = 1) ∧
    (s.clk.st = .running → (windowRegister s 0x04).extractLsb' 0 2 = 2) ∧
    (windowRegister s 0x04).getLsbD 2 = s.clk.txfull ∧ (windowRegister s 0x04).getLsbD 3 = s.clk.bclk ∧
    (windowRegister s 0x04).getLsbD 4 = s.clk.ws ∧ (windowRegister s 0x04).getLsbD 5 = s.clk.sd ∧
    (windowRegister s 0x04).getLsbD 6 = s.osc.tvalid ∧ (windowRegister s 0x04).getLsbD 7 = s.seq.i ∧
    (windowRegister s 0x04).getLsbD 8 = s.seq.halted ∧ (windowRegister s 0x04) >>> 9 = 0 ∧
    ((windowRegister s 0x08).extractLsb' 0 4).toNat = s.cfg.h ∧
    ((windowRegister s 0x08).extractLsb' 4 5).toNat = s.cfg.w ∧
    ((windowRegister s 0x08).getLsbD 9 = true ↔ s.cfg.variant = .usart) ∧
    (windowRegister s 0x08).getLsbD 10 = s.cfg.bclkIdle ∧
    ((windowRegister s 0x08).getLsbD 11 = true ↔ s.cfg.waveNeg = .zero) ∧
    (windowRegister s 0x08).getLsbD 12 = s.cfg.waveLat ∧ (windowRegister s 0x08) >>> 13 = 0 ∧
    windowRegister s 0x20 = s.clk.bcnt.setWidth 32 ∧ windowRegister s 0x24 = s.clk.bocr.setWidth 32 ∧
    windowRegister s 0x28 = s.clk.wcnt.setWidth 32 ∧ windowRegister s 0x2C = s.clk.wocr.setWidth 32 ∧
    windowRegister s 0x30 = s.clk.txbuf.setWidth 32 ∧ windowRegister s 0x34 = s.seq.sreg.setWidth 32 ∧
    windowRegister s 0x38 = s.seq.lc.setWidth 32 ∧ windowRegister s 0x3C = s.seq.pc.setWidth 32 ∧
    windowRegister s 0x40 = s.osc.tinc ∧ windowRegister s 0x44 = s.osc.telap ∧
    windowRegister s 0x48 = s.osc.tamp.setWidth 32 ∧ windowRegister s 0x4C = s.osc.tcur.setWidth 32 ∧
    (∀ off, 0x50 ≤ off → windowRegister s off = 0)

/-- R80, R87: the assembler emits only words that decode to commands; it takes exactly the statements of R80's table, with
its operand counts and ranges, and refuses every other; and each gives the words of the table's word column, TXI's operand
modulo 2^16, TONE's amplitude modulo 2^8, and DELAY n the words of plan(n). -/
def Obligations.AssemblerEmitsOnlyLegalWords : Prop :=
  (∀ (program : List Line) (words : List Word), assemble program = .ok words →
    ∀ w ∈ words, ∃ i, decode w = .command i) ∧
  (∀ (labels : Labels) (s : Statement), s.WellFormed = false → assembleStatement labels s = .error .statement) ∧
  (∀ (labels : Labels) (s : Statement), s.WellFormed = true → (∀ o ∈ s.operands, ∃ n, o = .num n) →
    ∃ is, assembleStatement labels s = .ok is) ∧
  (∀ s : Statement, s.WellFormed = true ↔
    s ∈ [⟨.command .nop, []⟩, ⟨.command .cfg, []⟩, ⟨.command .start, []⟩, ⟨.command .txs, []⟩, ⟨.command .getf, []⟩,
      ⟨.command .getn, []⟩, ⟨.command .halt, []⟩] ∨
    (∃ k : Int, 0 ≤ k ∧ k ≤ 255 ∧ s = ⟨.command .dly8, [.num k]⟩) ∨
    (∃ k : Int, 0 ≤ k ∧ k ≤ 65535 ∧ s = ⟨.command .dly16, [.num k]⟩) ∨
    (∃ v : Int, -32768 ≤ v ∧ v ≤ 65535 ∧ s = ⟨.command .txi, [.num v]⟩) ∨
    (∃ f a : Int, 0 ≤ f ∧ f ≤ 65535 ∧ -128 ≤ a ∧ a ≤ 127 ∧ s = ⟨.command .tone, [.num f, .num a]⟩) ∨
    (∃ v : Int, 0 ≤ v ∧ v ≤ 65535 ∧ s = ⟨.command .ldlc, [.num v]⟩) ∨
    (∃ t : Int, 0 ≤ t ∧ t ≤ 65535 ∧ (s = ⟨.command .djnz, [.num t]⟩ ∨ s = ⟨.command .jmp, [.num t]⟩)) ∨
    (∃ name, s = ⟨.command .djnz, [.label name]⟩ ∨ s = ⟨.command .jmp, [.label name]⟩) ∨
    (∃ n : Int, 0 ≤ n ∧ n ≤ 262143 ∧ s = ⟨.delay, [.num n]⟩)) ∧
  (∀ labels : Labels,
    statementWords labels ⟨.command .nop, []⟩ = .ok [0x01000000] ∧
    statementWords labels ⟨.command .cfg, []⟩ = .ok [0x10000000] ∧
    statementWords labels ⟨.command .start, []⟩ = .ok [0x11000000] ∧
    statementWords labels ⟨.command .txs, []⟩ = .ok [0x13000000] ∧
    statementWords labels ⟨.command .getf, []⟩ = .ok [0x21000000] ∧
    statementWords labels ⟨.command .getn, []⟩ = .ok [0x22000000] ∧
    statementWords labels ⟨.command .halt, []⟩ = .ok [0x3F000000] ∧
    (∀ k : Int, 0 ≤ k → k ≤ 255 →
      statementWords labels ⟨.command .dly8, [.num k]⟩ = .ok [BitVec.ofInt 32 (0x02000000 + k)]) ∧
    (∀ k : Int, 0 ≤ k → k ≤ 65535 →
      statementWords labels ⟨.command .dly16, [.num k]⟩ = .ok [BitVec.ofInt 32 (0x03000000 + k)]) ∧
    (∀ v : Int, -32768 ≤ v → v ≤ 65535 →
      statementWords labels ⟨.command .txi, [.num v]⟩ = .ok [BitVec.ofInt 32 (0x12000000 + v % 65536)]) ∧
    (∀ f a : Int, 0 ≤ f → f ≤ 65535 → -128 ≤ a → a ≤ 127 →
      statementWords labels ⟨.command .tone, [.num f, .num a]⟩ =
        .ok [BitVec.ofInt 32 (0x20000000 + f * 256 + a % 256)]) ∧
    (∀ v : Int, 0 ≤ v → v ≤ 65535 →
      statementWords labels ⟨.command .ldlc, [.num v]⟩ = .ok [BitVec.ofInt 32 (0x30000000 + v)]) ∧
    (∀ t : Int, 0 ≤ t → t ≤ 65535 →
      statementWords labels ⟨.command .djnz, [.num t]⟩ = .ok [BitVec.ofInt 32 (0x31000000 + t)] ∧
      statementWords labels ⟨.command .jmp, [.num t]⟩ = .ok [BitVec.ofInt 32 (0x32000000 + t)]) ∧
    (∀ n : Nat, n ≤ 262143 → statementWords labels ⟨.delay, [.num n]⟩ = .ok
      (if n < 16 then List.replicate n 0x01000000
      else if n < 768 then BitVec.ofNat 32 (0x02000000 + n / 3) :: List.replicate (n % 3) 0x01000000
      else BitVec.ofNat 32 (0x03000000 + n / 4) :: List.replicate (n % 4) 0x01000000)))

/-- R80, R81: the image is the words of the lines in order, and a label operand of JMP or DJNZ is replaced by the word index
of the statement that follows the label: the number of words of the lines before the label's line. Telling
labels apart by case and refusing one defined twice are the model's choices (log 13). -/
def Obligations.LabelBecomesTheIndexOfItsStatement : Prop :=
  ∀ (program : List Line) (words : List Word), assemble program = .ok words →
    ∀ before line rest, program = before ++ line :: rest →
    ∃ pre post, assembleLines (layout 0 program) before = .ok pre ∧
      assembleLines (layout 0 program) (line :: rest) = .ok post ∧ words = (pre ++ post).map encode ∧
      ∀ name, line.label = some name → ∀ before' line' rest', program = before' ++ line' :: rest' →
        ∃ pre', assembleLines (layout 0 program) before' = .ok pre' ∧
          (line'.statement = some ⟨.command .jmp, [.label name]⟩ →
            words[pre'.length]? = some (BitVec.ofNat 32 (0x32000000 + pre.length)) ∧ pre.length < 65536) ∧
          (line'.statement = some ⟨.command .djnz, [.label name]⟩ →
            words[pre'.length]? = some (BitVec.ofNat 32 (0x31000000 + pre.length)) ∧ pre.length < 65536)
end

