-- ==== Sys2Proof/Laws/Assembler.lean ====
section
/-! SUPPORT. What the assembler's parts do, once: how many commands a statement gives (R80, R87), lines assembled in pieces,
and the index a label stands for (R80, R81). -/

namespace Sys2Proof

/-- An operand in range is a number in it (R80). -/
theorem Statement.numIn_iff {lo hi : Int} {o : Operand} :
    Statement.numIn lo hi o = true ↔ ∃ n, o = .num n ∧ lo ≤ n ∧ n ≤ hi := by
  cases o <;> simp [Statement.numIn]

/-- A branch target is a label or a number of 16 bits (R80). -/
theorem Statement.target_iff {o : Operand} :
    Statement.target o = true ↔ (∃ n, o = .num n ∧ 0 ≤ n ∧ n ≤ 65535) ∨ ∃ name, o = .label name := by
  cases o <;> simp [Statement.target]

end Sys2Proof

namespace Sys2Proof.Machine

/-- A statement that assembles is well formed and gives what `expandStatement` gives (R80). -/
theorem assembleStatement_ok {labels : Labels} {s : Statement} {is : List Instr} :
    assembleStatement labels s = .ok is ↔ s.WellFormed = true ∧ expandStatement labels s = .ok is := by
  unfold assembleStatement
  split_ifs with h <;> simp [h]

/-- A target that resolves gives one command. -/
theorem length_of_resolve {labels : Labels} {o : Operand} {f : Half → Instr} {is : List Instr}
    (h : ((resolveTarget labels o).map fun i => [f i]) = .ok is) : is.length = 1 := by
  cases hr : resolveTarget labels o <;> rw [hr] at h <;> cases h
  rfl

/-- A statement gives as many commands as the layout counts for it (R80, R81). -/
theorem expandStatement_length {labels : Labels} {s : Statement} {is : List Instr}
    (h : expandStatement labels s = .ok is) : is.length = statementSize s := by
  unfold expandStatement at h
  unfold statementSize
  split at h <;> simp_all only [] <;> first | (cases h; rfl) | exact length_of_resolve h | cases h

/-- The number of words of a list of lines. -/
def linesSize (ls : List Line) : Nat := (ls.map lineSize).sum

@[simp] theorem linesSize_nil : linesSize [] = 0 := rfl
@[simp] theorem linesSize_cons (l : Line) (ls : List Line) : linesSize (l :: ls) = lineSize l + linesSize ls := by
  simp [linesSize]

/-- The first line assembled, then the rest. -/
theorem assembleLines_cons {labels : Labels} {l : Line} {ls : List Line} {is : List Instr} :
    assembleLines labels (l :: ls) = .ok is ↔
      ∃ x y, (match l.statement with | some s => assembleStatement labels s | none => .ok []) = .ok x ∧
        assembleLines labels ls = .ok y ∧ is = x ++ y := by
  rw [assembleLines]
  cases l.statement with
  | none => simp [eq_comm]
  | some s =>
    cases ha : assembleStatement labels s <;> cases hl : assembleLines labels ls <;> simp [ha, eq_comm]

/-- Lines are assembled in pieces. -/
theorem assembleLines_append {labels : Labels} {a b : List Line} : ∀ {is : List Instr},
    assembleLines labels (a ++ b) = .ok is ↔
      ∃ x y, assembleLines labels a = .ok x ∧ assembleLines labels b = .ok y ∧ is = x ++ y := by
  induction a with
  | nil => intro is; simp [assembleLines]
  | cons l a ih =>
    intro is
    simp only [List.cons_append, assembleLines_cons, ih]
    constructor
    · rintro ⟨x, _, hx, ⟨y, z, hy, hz, rfl⟩, rfl⟩
      exact ⟨x ++ y, z, ⟨x, y, hx, hy, rfl⟩, hz, by rw [List.append_assoc]⟩
    · rintro ⟨_, z, ⟨x, y, hx, hy, rfl⟩, hz, rfl⟩
      exact ⟨x, y ++ z, hx, ⟨y, z, hy, hz, rfl⟩, by rw [List.append_assoc]⟩

/-- Lines give as many commands as the layout counts for them. -/
theorem assembleLines_length {labels : Labels} {ls : List Line} : ∀ {is : List Instr},
    assembleLines labels ls = .ok is → is.length = linesSize ls := by
  induction ls with
  | nil => intro is h; cases h; rfl
  | cons l ls ih =>
    intro is h
    obtain ⟨x, y, hx, hy, rfl⟩ := assembleLines_cons.mp h
    rw [List.length_append, ih hy, linesSize_cons, lineSize]
    cases hs : l.statement with
    | none => rw [hs] at hx; cases hx; rfl
    | some s => rw [hs] at hx; rw [expandStatement_length (assembleStatement_ok.mp hx).2]

/-- The layout in pieces: the second begins at the index after the first (R81). -/
theorem layout_append (b : List Line) : ∀ (a : List Line) (i : Nat),
    layout i (a ++ b) = layout i a ++ layout (i + linesSize a) b
  | [], i => by simp [layout]
  | l :: a, i => by
    rw [List.cons_append, layout, layout, layout_append b a]
    cases l.label <;> simp [Nat.add_assoc]

/-- A label stands for the index of its own line: the number of words before it (R80, R81). -/
theorem mem_layout {before rest : List Line} {line : Line} {name : List Char} (h : line.label = some name) :
    (name, linesSize before) ∈ layout 0 (before ++ line :: rest) := by
  rw [layout_append, layout, h]
  simp

/-- Where no label is defined twice, the first definition found is the only one (log 13). -/
theorem find_of_labelsDistinct {name : List Char} {i : Nat} : ∀ {labels : Labels},
    labelsDistinct labels = true → (name, i) ∈ labels → (labels.find? fun p => p.1 == name) = some (name, i)
  | [], _, h => by cases h
  | (n, j) :: rest, hd, h => by
    simp only [labelsDistinct, Bool.and_eq_true, Bool.not_eq_true', List.any_eq_false, beq_iff_eq] at hd
    rcases List.mem_cons.mp h with h | h
    · cases h; simp
    · have : n ≠ name := fun e => hd.1 _ h e.symm
      rw [List.find?_cons_of_neg (by simpa using this)]
      exact find_of_labelsDistinct hd.2 h

/-- What `assemble` needs to answer words: distinct labels, and lines that assemble (R80). -/
theorem assemble_ok {program : List Line} {words : List Word} :
    assemble program = .ok words ↔ labelsDistinct (layout 0 program) = true ∧
      ∃ is, assembleLines (layout 0 program) program = .ok is ∧ words = is.map encode := by
  unfold assemble
  split_ifs with h
  · cases ha : assembleLines (layout 0 program) program <;> simp [h, Except.map, eq_comm]
  · simp [h]

end Sys2Proof.Machine
end

