-- ==== Sys2Proof/Laws/Config.lean ====
section
/-! SUPPORT. What a legal configuration gives (R7), said once, and the bounds that follow for the derived constants. -/

namespace Sys2Proof.Config

/-- Every check of R7, and R6's two legal values, as a plain fact. -/
structure Legal (c : Config) : Prop where
  h : 1 ≤ c.h ∧ c.h ≤ 8
  w : 1 ≤ c.w ∧ c.w ≤ 16
  p : 2 ≤ c.fCpu ∧ c.fCpu ≤ 2 ^ 31
  lat : c.variant = .usart → c.h ≤ c.startLatency
  fit : c.epoch + c.samplePeriod ≤ 256
  mem : 1 ≤ c.progWords ∧ c.progWords ≤ 65536
  cost : 1 ≤ c.cCfg ∧ 1 ≤ c.cStart ∧ 1 ≤ c.cTx ∧ 1 ≤ c.cTone ∧ 1 ≤ c.cGetf ∧
    1 ≤ c.cGetn ∧ 1 ≤ c.cLdlc ∧ 1 ≤ c.cDjnz ∧ 1 ≤ c.cJmp ∧ 1 ≤ c.cHalt
  base : c.mmioBase % 256 = 0
  toggleLat : c.variant = .toggle → c.startLatency = 0

theorem legal_of_wellFormed {c : Config} (hc : c.WellFormed = true) : c.Legal := by
  simp only [WellFormed, checks, List.all_cons, List.all_nil, passes, checkH, checkW, checkP, checkLat, checkFit,
    checkMem, checkCost, checkBase, checkToggleLat, Bool.and_eq_true, Bool.or_eq_true, decide_eq_true_eq, beq_iff_eq, Bool.and_true] at hc
  obtain ⟨h, w, p, lat, fit, mem, cost, base, toggleLat⟩ := hc
  refine ⟨h, w, p, fun hv => ?_, fit, mem, by tauto, base, fun hv => ?_⟩
  · rcases lat with hl | hl
    · rw [hl] at hv; cases hv
    · exact hl
  · rcases toggleLat with hl | hl
    · rw [hl] at hv; cases hv
    · exact hl

theorem samplePeriod_pos {c : Config} (h : c.Legal) : 1 ≤ c.samplePeriod := by
  have h1 : 0 < 2 * c.h := by have := h.h; omega
  have h2 : 0 < c.w := by have := h.w; omega
  exact Nat.mul_pos h1 h2

/-- FRAME_PERIOD·f as TONE computes it stays far below 2^32 (R114). -/
theorem framePeriod_le {c : Config} (h : c.Legal) : c.framePeriod ≤ 512 := by
  have := h.fit
  unfold framePeriod; omega

end Sys2Proof.Config
end

