-- ==== Sys2Proof/Laws/State.lean ====
section
/-! SUPPORT. One lemma per field per update of the state, so that no proof unfolds a record update. -/

namespace Sys2Proof.Machine

@[simp] theorem setPc_cfg (t : Half) (s : State) : (setPc t s).cfg = s.cfg := rfl
@[simp] theorem setPc_mem (t : Half) (s : State) : (setPc t s).mem = s.mem := rfl
@[simp] theorem setPc_pc (t : Half) (s : State) : (setPc t s).seq.pc = t := rfl
@[simp] theorem setPc_lc (t : Half) (s : State) : (setPc t s).seq.lc = s.seq.lc := rfl
@[simp] theorem setPc_sreg (t : Half) (s : State) : (setPc t s).seq.sreg = s.seq.sreg := rfl
@[simp] theorem setPc_i (t : Half) (s : State) : (setPc t s).seq.i = s.seq.i := rfl
@[simp] theorem setPc_halted (t : Half) (s : State) : (setPc t s).seq.halted = s.seq.halted := rfl
@[simp] theorem setPc_cur (t : Half) (s : State) : (setPc t s).seq.cur = s.seq.cur := rfl
@[simp] theorem setPc_busy (t : Half) (s : State) : (setPc t s).seq.busy = s.seq.busy := rfl
@[simp] theorem setPc_clk (t : Half) (s : State) : (setPc t s).clk = s.clk := rfl
@[simp] theorem setPc_osc (t : Half) (s : State) : (setPc t s).osc = s.osc := rfl
@[simp] theorem setPc_cyc (t : Half) (s : State) : (setPc t s).cyc = s.cyc := rfl
@[simp] theorem setPc_fault (t : Half) (s : State) : (setPc t s).fault = s.fault := rfl
@[simp] theorem setPc_draws (t : Half) (s : State) : (setPc t s).draws = s.draws := rfl

@[simp] theorem advancePc_cfg (s : State) : (advancePc s).cfg = s.cfg := rfl
@[simp] theorem advancePc_mem (s : State) : (advancePc s).mem = s.mem := rfl
@[simp] theorem advancePc_pc (s : State) : (advancePc s).seq.pc = s.seq.pc + 1 := rfl
@[simp] theorem advancePc_lc (s : State) : (advancePc s).seq.lc = s.seq.lc := rfl
@[simp] theorem advancePc_sreg (s : State) : (advancePc s).seq.sreg = s.seq.sreg := rfl
@[simp] theorem advancePc_i (s : State) : (advancePc s).seq.i = s.seq.i := rfl
@[simp] theorem advancePc_halted (s : State) : (advancePc s).seq.halted = s.seq.halted := rfl
@[simp] theorem advancePc_cur (s : State) : (advancePc s).seq.cur = s.seq.cur := rfl
@[simp] theorem advancePc_busy (s : State) : (advancePc s).seq.busy = s.seq.busy := rfl
@[simp] theorem advancePc_clk (s : State) : (advancePc s).clk = s.clk := rfl
@[simp] theorem advancePc_osc (s : State) : (advancePc s).osc = s.osc := rfl
@[simp] theorem advancePc_cyc (s : State) : (advancePc s).cyc = s.cyc := rfl
@[simp] theorem advancePc_fault (s : State) : (advancePc s).fault = s.fault := rfl
@[simp] theorem advancePc_draws (s : State) : (advancePc s).draws = s.draws := rfl

@[simp] theorem setLc_cfg (v : Half) (s : State) : (setLc v s).cfg = s.cfg := rfl
@[simp] theorem setLc_mem (v : Half) (s : State) : (setLc v s).mem = s.mem := rfl
@[simp] theorem setLc_pc (v : Half) (s : State) : (setLc v s).seq.pc = s.seq.pc := rfl
@[simp] theorem setLc_lc (v : Half) (s : State) : (setLc v s).seq.lc = v := rfl
@[simp] theorem setLc_sreg (v : Half) (s : State) : (setLc v s).seq.sreg = s.seq.sreg := rfl
@[simp] theorem setLc_i (v : Half) (s : State) : (setLc v s).seq.i = s.seq.i := rfl
@[simp] theorem setLc_halted (v : Half) (s : State) : (setLc v s).seq.halted = s.seq.halted := rfl
@[simp] theorem setLc_cur (v : Half) (s : State) : (setLc v s).seq.cur = s.seq.cur := rfl
@[simp] theorem setLc_busy (v : Half) (s : State) : (setLc v s).seq.busy = s.seq.busy := rfl
@[simp] theorem setLc_clk (v : Half) (s : State) : (setLc v s).clk = s.clk := rfl
@[simp] theorem setLc_osc (v : Half) (s : State) : (setLc v s).osc = s.osc := rfl
@[simp] theorem setLc_cyc (v : Half) (s : State) : (setLc v s).cyc = s.cyc := rfl
@[simp] theorem setLc_fault (v : Half) (s : State) : (setLc v s).fault = s.fault := rfl
@[simp] theorem setLc_draws (v : Half) (s : State) : (setLc v s).draws = s.draws := rfl

@[simp] theorem setSreg_cfg (v : Half) (s : State) : (setSreg v s).cfg = s.cfg := rfl
@[simp] theorem setSreg_mem (v : Half) (s : State) : (setSreg v s).mem = s.mem := rfl
@[simp] theorem setSreg_pc (v : Half) (s : State) : (setSreg v s).seq.pc = s.seq.pc := rfl
@[simp] theorem setSreg_lc (v : Half) (s : State) : (setSreg v s).seq.lc = s.seq.lc := rfl
@[simp] theorem setSreg_sreg (v : Half) (s : State) : (setSreg v s).seq.sreg = v := rfl
@[simp] theorem setSreg_i (v : Half) (s : State) : (setSreg v s).seq.i = s.seq.i := rfl
@[simp] theorem setSreg_halted (v : Half) (s : State) : (setSreg v s).seq.halted = s.seq.halted := rfl
@[simp] theorem setSreg_cur (v : Half) (s : State) : (setSreg v s).seq.cur = s.seq.cur := rfl
@[simp] theorem setSreg_busy (v : Half) (s : State) : (setSreg v s).seq.busy = s.seq.busy := rfl
@[simp] theorem setSreg_clk (v : Half) (s : State) : (setSreg v s).clk = s.clk := rfl
@[simp] theorem setSreg_osc (v : Half) (s : State) : (setSreg v s).osc = s.osc := rfl
@[simp] theorem setSreg_cyc (v : Half) (s : State) : (setSreg v s).cyc = s.cyc := rfl
@[simp] theorem setSreg_fault (v : Half) (s : State) : (setSreg v s).fault = s.fault := rfl
@[simp] theorem setSreg_draws (v : Half) (s : State) : (setSreg v s).draws = s.draws := rfl

@[simp] theorem setClk_cfg (u : ClockUnit) (s : State) : (setClk u s).cfg = s.cfg := rfl
@[simp] theorem setClk_mem (u : ClockUnit) (s : State) : (setClk u s).mem = s.mem := rfl
@[simp] theorem setClk_seq (u : ClockUnit) (s : State) : (setClk u s).seq = s.seq := rfl
@[simp] theorem setClk_clk (u : ClockUnit) (s : State) : (setClk u s).clk = u := rfl
@[simp] theorem setClk_osc (u : ClockUnit) (s : State) : (setClk u s).osc = s.osc := rfl
@[simp] theorem setClk_cyc (u : ClockUnit) (s : State) : (setClk u s).cyc = s.cyc := rfl
@[simp] theorem setClk_fault (u : ClockUnit) (s : State) : (setClk u s).fault = s.fault := rfl
@[simp] theorem setClk_draws (u : ClockUnit) (s : State) : (setClk u s).draws = s.draws := rfl

@[simp] theorem setOsc_cfg (o : Oscillator) (s : State) : (setOsc o s).cfg = s.cfg := rfl
@[simp] theorem setOsc_mem (o : Oscillator) (s : State) : (setOsc o s).mem = s.mem := rfl
@[simp] theorem setOsc_seq (o : Oscillator) (s : State) : (setOsc o s).seq = s.seq := rfl
@[simp] theorem setOsc_clk (o : Oscillator) (s : State) : (setOsc o s).clk = s.clk := rfl
@[simp] theorem setOsc_osc (o : Oscillator) (s : State) : (setOsc o s).osc = o := rfl
@[simp] theorem setOsc_cyc (o : Oscillator) (s : State) : (setOsc o s).cyc = s.cyc := rfl
@[simp] theorem setOsc_fault (o : Oscillator) (s : State) : (setOsc o s).fault = s.fault := rfl
@[simp] theorem setOsc_draws (o : Oscillator) (s : State) : (setOsc o s).draws = s.draws := rfl

@[simp] theorem recordFault_cfg (m : ModelFault) (s : State) : (recordFault m s).cfg = s.cfg := rfl
@[simp] theorem recordFault_mem (m : ModelFault) (s : State) : (recordFault m s).mem = s.mem := rfl
@[simp] theorem recordFault_seq (m : ModelFault) (s : State) : (recordFault m s).seq = s.seq := rfl
@[simp] theorem recordFault_clk (m : ModelFault) (s : State) : (recordFault m s).clk = s.clk := rfl
@[simp] theorem recordFault_osc (m : ModelFault) (s : State) : (recordFault m s).osc = s.osc := rfl
@[simp] theorem recordFault_cyc (m : ModelFault) (s : State) : (recordFault m s).cyc = s.cyc := rfl
@[simp] theorem recordFault_fault (m : ModelFault) (s : State) : (recordFault m s).fault = some ⟨m, s.cyc, s.seq.pc⟩ := rfl
@[simp] theorem recordFault_draws (m : ModelFault) (s : State) : (recordFault m s).draws = s.draws := rfl

@[simp] theorem tick_cfg (s : State) : (tick s).cfg = s.cfg := rfl
@[simp] theorem tick_mem (s : State) : (tick s).mem = s.mem := rfl
@[simp] theorem tick_seq (s : State) : (tick s).seq = s.seq := rfl
@[simp] theorem tick_clk (s : State) : (tick s).clk = s.clk := rfl
@[simp] theorem tick_osc (s : State) : (tick s).osc = s.osc := rfl
@[simp] theorem tick_cyc (s : State) : (tick s).cyc = s.cyc + 1 := rfl
@[simp] theorem tick_fault (s : State) : (tick s).fault = s.fault := rfl
@[simp] theorem tick_draws (s : State) : (tick s).draws = s.draws := rfl

@[simp] theorem retire_cfg (s : State) : (retire s).cfg = s.cfg := rfl
@[simp] theorem retire_mem (s : State) : (retire s).mem = s.mem := rfl
@[simp] theorem retire_pc (s : State) : (retire s).seq.pc = s.seq.pc := rfl
@[simp] theorem retire_lc (s : State) : (retire s).seq.lc = s.seq.lc := rfl
@[simp] theorem retire_sreg (s : State) : (retire s).seq.sreg = s.seq.sreg := rfl
@[simp] theorem retire_i (s : State) : (retire s).seq.i = s.seq.i := rfl
@[simp] theorem retire_halted (s : State) : (retire s).seq.halted = s.seq.halted := rfl
@[simp] theorem retire_cur (s : State) : (retire s).seq.cur = none := rfl
@[simp] theorem retire_busy (s : State) : (retire s).seq.busy = 0 := rfl
@[simp] theorem retire_clk (s : State) : (retire s).clk = s.clk := rfl
@[simp] theorem retire_osc (s : State) : (retire s).osc = s.osc := rfl
@[simp] theorem retire_cyc (s : State) : (retire s).cyc = s.cyc := rfl
@[simp] theorem retire_fault (s : State) : (retire s).fault = s.fault := rfl
@[simp] theorem retire_draws (s : State) : (retire s).draws = s.draws := rfl

@[simp] theorem countDown_cfg (s : State) : (countDown s).cfg = s.cfg := rfl
@[simp] theorem countDown_mem (s : State) : (countDown s).mem = s.mem := rfl
@[simp] theorem countDown_pc (s : State) : (countDown s).seq.pc = s.seq.pc := rfl
@[simp] theorem countDown_lc (s : State) : (countDown s).seq.lc = s.seq.lc := rfl
@[simp] theorem countDown_sreg (s : State) : (countDown s).seq.sreg = s.seq.sreg := rfl
@[simp] theorem countDown_i (s : State) : (countDown s).seq.i = s.seq.i := rfl
@[simp] theorem countDown_halted (s : State) : (countDown s).seq.halted = s.seq.halted := rfl
@[simp] theorem countDown_cur (s : State) : (countDown s).seq.cur = s.seq.cur := rfl
@[simp] theorem countDown_busy (s : State) : (countDown s).seq.busy = s.seq.busy - 1 := rfl
@[simp] theorem countDown_clk (s : State) : (countDown s).clk = s.clk := rfl
@[simp] theorem countDown_osc (s : State) : (countDown s).osc = s.osc := rfl
@[simp] theorem countDown_cyc (s : State) : (countDown s).cyc = s.cyc := rfl
@[simp] theorem countDown_fault (s : State) : (countDown s).fault = s.fault := rfl
@[simp] theorem countDown_draws (s : State) : (countDown s).draws = s.draws := rfl

@[simp] theorem takeDraw_cfg (s : State) : (takeDraw s).cfg = s.cfg := by
  unfold takeDraw; split <;> rfl
@[simp] theorem takeDraw_mem (s : State) : (takeDraw s).mem = s.mem := by
  unfold takeDraw; split <;> rfl
@[simp] theorem takeDraw_seq (s : State) : (takeDraw s).seq = s.seq := by
  unfold takeDraw; split <;> rfl
@[simp] theorem takeDraw_clk (s : State) : (takeDraw s).clk = s.clk := by
  unfold takeDraw; split <;> rfl
@[simp] theorem takeDraw_osc (s : State) : (takeDraw s).osc = s.osc := by
  unfold takeDraw; split <;> rfl
@[simp] theorem takeDraw_cyc (s : State) : (takeDraw s).cyc = s.cyc := by
  unfold takeDraw; split <;> rfl
@[simp] theorem takeDraw_fault (s : State) : (takeDraw s).fault = s.fault := by
  unfold takeDraw; split <;> rfl

@[simp] theorem firstCycle_cfg (i : Instr) (s : State) : (firstCycle i s).cfg = s.cfg := by
  unfold firstCycle; split <;> rfl
@[simp] theorem firstCycle_mem (i : Instr) (s : State) : (firstCycle i s).mem = s.mem := by
  unfold firstCycle; split <;> rfl
@[simp] theorem firstCycle_clk (i : Instr) (s : State) : (firstCycle i s).clk = s.clk := by
  unfold firstCycle; split <;> rfl
@[simp] theorem firstCycle_osc (i : Instr) (s : State) : (firstCycle i s).osc = s.osc := by
  unfold firstCycle; split <;> rfl
@[simp] theorem firstCycle_cyc (i : Instr) (s : State) : (firstCycle i s).cyc = s.cyc := by
  unfold firstCycle; split <;> rfl
@[simp] theorem firstCycle_fault (i : Instr) (s : State) : (firstCycle i s).fault = s.fault := by
  unfold firstCycle; split <;> rfl
@[simp] theorem firstCycle_draws (i : Instr) (s : State) : (firstCycle i s).draws = s.draws := by
  unfold firstCycle; split <;> rfl
@[simp] theorem firstCycle_pc (i : Instr) (s : State) : (firstCycle i s).seq.pc = s.seq.pc := by
  unfold firstCycle; split <;> rfl
@[simp] theorem firstCycle_lc (i : Instr) (s : State) : (firstCycle i s).seq.lc = s.seq.lc := by
  unfold firstCycle; split <;> rfl
@[simp] theorem firstCycle_sreg (i : Instr) (s : State) : (firstCycle i s).seq.sreg = s.seq.sreg := by
  unfold firstCycle; split <;> rfl
@[simp] theorem firstCycle_halted (i : Instr) (s : State) : (firstCycle i s).seq.halted = s.seq.halted := by
  unfold firstCycle; split <;> rfl
@[simp] theorem firstCycle_cur (i : Instr) (s : State) : (firstCycle i s).seq.cur = s.seq.cur := by
  unfold firstCycle; split <;> rfl
@[simp] theorem firstCycle_busy (i : Instr) (s : State) : (firstCycle i s).seq.busy = s.seq.busy := by
  unfold firstCycle; split <;> rfl

theorem takeDraw_draws (s : State) : (takeDraw s).draws = if drawsNow s then s.draws + 1 else s.draws := by
  unfold takeDraw; split <;> rfl

theorem firstCycle_i (i : Instr) (s : State) :
    (firstCycle i s).seq.i = if i = .cfg then false else s.seq.i := by
  unfold firstCycle; split <;> rfl

@[simp] theorem beginCommand_cfg (i : Instr) (s : State) : (beginCommand i s).cfg = s.cfg := by
  simp [beginCommand]
@[simp] theorem beginCommand_mem (i : Instr) (s : State) : (beginCommand i s).mem = s.mem := by
  simp [beginCommand]
@[simp] theorem beginCommand_clk (i : Instr) (s : State) : (beginCommand i s).clk = s.clk := by
  simp [beginCommand]
@[simp] theorem beginCommand_osc (i : Instr) (s : State) : (beginCommand i s).osc = s.osc := by
  simp [beginCommand]
@[simp] theorem beginCommand_cyc (i : Instr) (s : State) : (beginCommand i s).cyc = s.cyc := by
  simp [beginCommand]
@[simp] theorem beginCommand_fault (i : Instr) (s : State) : (beginCommand i s).fault = s.fault := by
  simp [beginCommand]
@[simp] theorem beginCommand_draws (i : Instr) (s : State) : (beginCommand i s).draws = s.draws := by
  simp [beginCommand]
@[simp] theorem beginCommand_pc (i : Instr) (s : State) : (beginCommand i s).seq.pc = s.seq.pc := by
  simp [beginCommand]
@[simp] theorem beginCommand_lc (i : Instr) (s : State) : (beginCommand i s).seq.lc = s.seq.lc := by
  simp [beginCommand]
@[simp] theorem beginCommand_sreg (i : Instr) (s : State) : (beginCommand i s).seq.sreg = s.seq.sreg := by
  simp [beginCommand]
@[simp] theorem beginCommand_halted (i : Instr) (s : State) : (beginCommand i s).seq.halted = s.seq.halted := by
  simp [beginCommand]
@[simp] theorem beginCommand_cur (i : Instr) (s : State) : (beginCommand i s).seq.cur = some i := by
  simp [beginCommand]
@[simp] theorem beginCommand_busy (i : Instr) (s : State) : (beginCommand i s).seq.busy = cost s.cfg i := by
  simp [beginCommand]
@[simp] theorem beginCommand_i (i : Instr) (s : State) :
    (beginCommand i s).seq.i = if i = .cfg then false else s.seq.i := by
  simp [beginCommand, firstCycle_i]

@[ext] theorem State.ext_fields {s t : State} (h1 : s.cfg = t.cfg) (h2 : s.mem = t.mem) (h3 : s.seq = t.seq)
    (h4 : s.clk = t.clk) (h5 : s.osc = t.osc) (h6 : s.cyc = t.cyc) (h7 : s.fault = t.fault)
    (h8 : s.draws = t.draws) : s = t := by
  cases s; cases t; simp_all

@[ext] theorem Sequencer.ext_fields {q r : Sequencer} (h1 : q.pc = r.pc) (h2 : q.lc = r.lc) (h3 : q.sreg = r.sreg)
    (h4 : q.i = r.i) (h5 : q.halted = r.halted) (h6 : q.cur = r.cur) (h7 : q.busy = r.busy) : q = r := by
  cases q; cases r; simp_all

end Sys2Proof.Machine
end

