-- ==== Sys2Proof/Laws/Exec.lean ====
section
/-! SUPPORT. Everything a meaning can do, once: what the shared operations answer, the outcomes of `exec`, its frame, and
the units it may write. -/

namespace Sys2Proof.Machine

@[simp] theorem complete_ok (s : State) : complete (.ok s) = .next (advancePc s) := rfl
@[simp] theorem complete_error (m : ModelFault) : complete (.error m) = .fault (.raised m) := rfl

theorem complete_next {e : Except ModelFault State} {t : State} (h : complete e = .next t) :
    ∃ s, e = .ok s ∧ t = advancePc s := by
  cases e with
  | ok s => exact ⟨s, rfl, by simpa using h.symm⟩
  | error m => simp at h

/-- The transmit action succeeds exactly in a configured unit with an empty buffer, and writes the buffer only (R94). -/
theorem transmit_ok {m : Mnemonic} {v : Half} {s t : State} (h : transmit m v s = .ok t) :
    s.clk.st ≠ .unconfigured ∧ s.clk.txfull = false ∧
      t = setClk { s.clk with txbuf := v, txfull := true, txt := some s.cyc } s := by
  unfold transmit at h
  split_ifs at h with h1 h2
  · exact ⟨h1, by simpa using h2, by simpa using h.symm⟩

/-- A meaning answers a next state or raises a model fault; nothing else. -/
theorem exec_outcome (i : Instr) (s : State) :
    (∃ t, exec i s = .next t) ∨ ∃ m, exec i s = .fault (.raised m) := by
  have hc : ∀ e : Except ModelFault State, (∃ t, complete e = .next t) ∨ ∃ m, complete e = .fault (.raised m) := by
    intro e
    cases e with
    | ok s => exact .inl ⟨_, rfl⟩
    | error m => exact .inr ⟨m, rfl⟩
  cases i with
  | djnz t => simp only [exec, execDjnz]; split_ifs <;> exact .inl ⟨_, rfl⟩
  | jmp t => exact .inl ⟨_, rfl⟩
  | halt => exact .inl ⟨_, rfl⟩
  | nop => exact .inl ⟨_, rfl⟩
  | dly8 k => exact .inl ⟨_, rfl⟩
  | dly16 k => exact .inl ⟨_, rfl⟩
  | ldlc v => exact .inl ⟨_, rfl⟩
  | _ => exact hc _

/-- What no meaning writes: the configuration, the command memory, cyc, FAULT, the draws, I, CUR and BUSY. -/
structure SameFrame (s t : State) : Prop where
  cfg : t.cfg = s.cfg
  mem : t.mem = s.mem
  cyc : t.cyc = s.cyc
  fault : t.fault = s.fault
  draws : t.draws = s.draws
  i : t.seq.i = s.seq.i
  cur : t.seq.cur = s.seq.cur
  busy : t.seq.busy = s.seq.busy

/-- What each meaning does when it answers a next state: the unit, the oscillator, LC, SREG and HALTED after it. -/
def Effect (i : Instr) (s t : State) : Prop :=
  match i with
  | .nop | .dly8 _ | .dly16 _ | .jmp _ =>
    t.clk = s.clk ∧ t.osc = s.osc ∧ t.seq.lc = s.seq.lc ∧ t.seq.sreg = s.seq.sreg ∧ t.seq.halted = s.seq.halted
  | .cfg =>
    s.clk.st = .unconfigured ∧ t.clk = configureUnit s.cfg s.clk ∧
      t.osc = s.osc ∧ t.seq.lc = s.seq.lc ∧ t.seq.sreg = s.seq.sreg ∧ t.seq.halted = s.seq.halted
  | .start =>
    s.clk.st = .configured ∧ t.clk = releaseUnit s.cyc s.clk ∧
      t.osc = s.osc ∧ t.seq.lc = s.seq.lc ∧ t.seq.sreg = s.seq.sreg ∧ t.seq.halted = s.seq.halted
  | .txi v =>
    s.clk.st ≠ .unconfigured ∧ s.clk.txfull = false ∧
      t.clk = { s.clk with txbuf := v, txfull := true, txt := some s.cyc } ∧
      t.osc = s.osc ∧ t.seq.lc = s.seq.lc ∧ t.seq.sreg = s.seq.sreg ∧ t.seq.halted = s.seq.halted
  | .txs =>
    s.clk.st ≠ .unconfigured ∧ s.clk.txfull = false ∧
      t.clk = { s.clk with txbuf := s.seq.sreg, txfull := true, txt := some s.cyc } ∧
      t.osc = s.osc ∧ t.seq.lc = s.seq.lc ∧ t.seq.sreg = s.seq.sreg ∧ t.seq.halted = s.seq.halted
  | .tone f a =>
    toneIncrement s.cfg f < s.cfg.fCpu ∧ t.osc = newWave s.cfg f a ∧
      t.clk = s.clk ∧ t.seq.lc = s.seq.lc ∧ t.seq.sreg = s.seq.sreg ∧ t.seq.halted = s.seq.halted
  | .getf =>
    s.osc.tvalid = true ∧ t.seq.sreg = s.osc.tcur ∧
      t.clk = s.clk ∧ t.osc = s.osc ∧ t.seq.lc = s.seq.lc ∧ t.seq.halted = s.seq.halted
  | .getn =>
    s.osc.tvalid = true ∧ t.seq.sreg = nextSample s.cfg s.osc ∧ t.osc = advanceWave s.cfg s.osc ∧
      t.clk = s.clk ∧ t.seq.lc = s.seq.lc ∧ t.seq.halted = s.seq.halted
  | .ldlc v =>
    t.seq.lc = v ∧
      t.clk = s.clk ∧ t.osc = s.osc ∧ t.seq.sreg = s.seq.sreg ∧ t.seq.halted = s.seq.halted
  | .djnz _ =>
    t.seq.lc = s.seq.lc - 1 ∧
      t.clk = s.clk ∧ t.osc = s.osc ∧ t.seq.sreg = s.seq.sreg ∧ t.seq.halted = s.seq.halted
  | .halt =>
    t.seq.halted = true ∧
      t.clk = s.clk ∧ t.osc = s.osc ∧ t.seq.lc = s.seq.lc ∧ t.seq.sreg = s.seq.sreg

/-- If a meaning answers a next state, it has the command's effect and keeps the frame. -/
theorem exec_next {i : Instr} {s t : State} (h : exec i s = .next t) : SameFrame s t ∧ Effect i s t := by
  cases i with
  | djnz t' =>
    simp only [exec, execDjnz] at h
    split_ifs at h <;> (cases h; exact ⟨⟨rfl, rfl, rfl, rfl, rfl, rfl, rfl, rfl⟩, by simp [Effect]⟩)
  | jmp t' => cases h; exact ⟨⟨rfl, rfl, rfl, rfl, rfl, rfl, rfl, rfl⟩, by simp [Effect]⟩
  | halt => cases h; exact ⟨⟨rfl, rfl, rfl, rfl, rfl, rfl, rfl, rfl⟩, by simp [Effect]⟩
  | txi v =>
    obtain ⟨r, hr, rfl⟩ := complete_next h
    obtain ⟨h1, h2, rfl⟩ := transmit_ok hr
    exact ⟨⟨rfl, rfl, rfl, rfl, rfl, rfl, rfl, rfl⟩, by simp [Effect, h1, h2]⟩
  | txs =>
    obtain ⟨r, hr, rfl⟩ := complete_next h
    obtain ⟨h1, h2, rfl⟩ := transmit_ok hr
    exact ⟨⟨rfl, rfl, rfl, rfl, rfl, rfl, rfl, rfl⟩, by simp [Effect, h1, h2]⟩
  | cfg =>
    obtain ⟨r, hr, rfl⟩ := complete_next h
    split_ifs at hr with hc
    cases hr
    exact ⟨⟨rfl, rfl, rfl, rfl, rfl, rfl, rfl, rfl⟩, by simp [Effect, hc]⟩
  | start =>
    obtain ⟨r, hr, rfl⟩ := complete_next h
    split_ifs at hr with hc
    cases hr
    exact ⟨⟨rfl, rfl, rfl, rfl, rfl, rfl, rfl, rfl⟩, by simp [Effect, hc]⟩
  | tone f a =>
    obtain ⟨r, hr, rfl⟩ := complete_next h
    split_ifs at hr with hc
    cases hr
    exact ⟨⟨rfl, rfl, rfl, rfl, rfl, rfl, rfl, rfl⟩, by simp [Effect]; omega⟩
  | getf =>
    obtain ⟨r, hr, rfl⟩ := complete_next h
    split_ifs at hr with hc
    cases hr
    exact ⟨⟨rfl, rfl, rfl, rfl, rfl, rfl, rfl, rfl⟩, by simp [Effect, hc]⟩
  | getn =>
    obtain ⟨r, hr, rfl⟩ := complete_next h
    split_ifs at hr with hc
    cases hr
    exact ⟨⟨rfl, rfl, rfl, rfl, rfl, rfl, rfl, rfl⟩, by simp [Effect, hc]⟩
  | nop => cases h; exact ⟨⟨rfl, rfl, rfl, rfl, rfl, rfl, rfl, rfl⟩, by simp [Effect]⟩
  | dly8 k => cases h; exact ⟨⟨rfl, rfl, rfl, rfl, rfl, rfl, rfl, rfl⟩, by simp [Effect]⟩
  | dly16 k => cases h; exact ⟨⟨rfl, rfl, rfl, rfl, rfl, rfl, rfl, rfl⟩, by simp [Effect]⟩
  | ldlc v => cases h; exact ⟨⟨rfl, rfl, rfl, rfl, rfl, rfl, rfl, rfl⟩, by simp [Effect]⟩

/-- Where a meaning leaves PC (R16): one word on, at the target of JMP or DJNZ, or, by HALT alone, where it was. -/
theorem exec_pc {i : Instr} {s t : State} (h : exec i s = .next t) :
    (i = .halt ∧ t.seq.pc = s.seq.pc) ∨
      (i ≠ .halt ∧ (t.seq.pc = s.seq.pc + 1 ∨ i = .jmp t.seq.pc ∨ i = .djnz t.seq.pc)) := by
  cases i with
  | djnz _ =>
    simp only [exec, execDjnz] at h
    split_ifs at h <;> (cases h; simp)
  | jmp _ => cases h; exact .inr ⟨Instr.noConfusion, .inr (.inl rfl)⟩
  | halt => cases h; exact .inl ⟨rfl, rfl⟩
  | txi _ =>
    obtain ⟨r, hr, rfl⟩ := complete_next h
    obtain ⟨_, _, rfl⟩ := transmit_ok hr
    exact .inr ⟨Instr.noConfusion, .inl rfl⟩
  | txs =>
    obtain ⟨r, hr, rfl⟩ := complete_next h
    obtain ⟨_, _, rfl⟩ := transmit_ok hr
    exact .inr ⟨Instr.noConfusion, .inl rfl⟩
  | cfg | start | tone _ _ | getf | getn =>
    obtain ⟨r, hr, rfl⟩ := complete_next h
    split_ifs at hr
    cases hr
    exact .inr ⟨Instr.noConfusion, .inl rfl⟩
  | nop | dly8 _ | dly16 _ | ldlc _ => cases h; exact .inr ⟨Instr.noConfusion, .inl rfl⟩

end Sys2Proof.Machine
end

