-- ==== Sys2Proof/Laws/Memory.lean ====
section
/-! SUPPORT. The laws of the command memory: reads after writes, the canonical form kept by every write, and the bytes
of a word. -/

namespace Sys2Proof

/-- Byte j of a word, as a list entry. -/
theorem wordOfBytes_bytesOfWord (w : Word) :
    wordOfBytes (w.extractLsb' 0 8) (w.extractLsb' 8 8) (w.extractLsb' 16 8) (w.extractLsb' 24 8) = w := by
  unfold wordOfBytes
  ext i hi
  simp only [BitVec.getElem_append, BitVec.getElem_extractLsb']
  have : i < 32 := hi
  split_ifs <;> (rw [← BitVec.getLsbD_eq_getElem]; congr 1; omega)

theorem bytesOfWord_wordOfBytes (b0 b1 b2 b3 : Byte) : bytesOfWord (wordOfBytes b0 b1 b2 b3) = [b0, b1, b2, b3] := by
  unfold bytesOfWord wordOfBytes
  simp only [List.cons.injEq, and_true]
  refine ⟨?_, ?_, ?_, ?_⟩ <;>
  · ext i hi
    simp only [BitVec.getElem_extractLsb', BitVec.getLsbD_append]
    have : i < 8 := hi
    repeat (first | rw [if_pos (by omega)] | rw [if_neg (by omega)])
    rw [← BitVec.getLsbD_eq_getElem]
    congr 1
    try omega

end Sys2Proof

namespace Sys2Proof.Machine.Memory

@[simp] theorem readByte_nil (a : Nat) : readByte [] a = unlisted := rfl

theorem readByte_cons (a : Nat) (v : Byte) (rest : Memory) (h : ∀ b, b ≤ a → readByte rest b = unlisted) (b : Nat) :
    readByte (cons a v rest) b = if b = a then v else readByte rest b := by
  unfold cons
  split_ifs with hv hb hb
  · rw [hb, h a (Nat.le_refl a), hv]
  · rfl
  · simp [readByte, hb]
  · simp [readByte, Ne.symm hb]

/-- Below the first address of a canonical memory every byte is unlisted. -/
theorem readByte_of_lt : ∀ (m : Memory) (lo a : Nat), wfFrom lo m = true → a < lo → readByte m a = unlisted
  | [], _, _, _, _ => rfl
  | (b, v) :: rest, lo, a, h, ha => by
    simp only [wfFrom, Bool.and_eq_true, decide_eq_true_eq, bne_iff_ne] at h
    have hb : b ≠ a := by omega
    simp only [readByte, if_neg hb]
    exact readByte_of_lt rest (b + 1) a h.2 (by omega)

theorem wfFrom_mono : ∀ (m : Memory) (lo hi : Nat), lo ≤ hi → wfFrom hi m = true → wfFrom lo m = true
  | [], _, _, _, _ => rfl
  | (b, v) :: rest, lo, hi, h, hm => by
    simp only [wfFrom, Bool.and_eq_true, decide_eq_true_eq] at hm ⊢
    exact ⟨⟨by omega, hm.1.2⟩, hm.2⟩

theorem wfFrom_cons (lo a : Nat) (v : Byte) (rest : Memory) (hlo : lo ≤ a) (h : wfFrom (a + 1) rest = true) :
    wfFrom lo (cons a v rest) = true := by
  unfold cons
  split_ifs with hv
  · exact wfFrom_mono rest lo (a + 1) (by omega) h
  · simp [wfFrom, hlo, hv, h]

/-- A write keeps the canonical form. -/
theorem wfFrom_writeByte : ∀ (m : Memory) (lo a : Nat) (v : Byte), wfFrom lo m = true → lo ≤ a →
    wfFrom lo (writeByte m a v) = true
  | [], lo, a, v, _, hlo => wfFrom_cons lo a v [] hlo rfl
  | (b, x) :: rest, lo, a, v, h, hlo => by
    have h' := h
    simp only [wfFrom, Bool.and_eq_true, decide_eq_true_eq] at h'
    unfold writeByte
    split_ifs with h1 h2
    · refine wfFrom_cons lo a v _ hlo ?_
      simp only [wfFrom, Bool.and_eq_true, decide_eq_true_eq]
      exact ⟨⟨by omega, h'.1.2⟩, h'.2⟩
    · subst h2
      exact wfFrom_cons lo a v rest hlo h'.2
    · simp only [wfFrom, Bool.and_eq_true, decide_eq_true_eq]
      exact ⟨h'.1, wfFrom_writeByte rest (b + 1) a v h'.2 (by omega)⟩

theorem wf_writeByte (m : Memory) (a : Nat) (v : Byte) (h : m.wf = true) : (m.writeByte a v).wf = true :=
  wfFrom_writeByte m 0 a v h (Nat.zero_le a)

/-- A read after a write of one byte: the written byte there, and every other byte as before. -/
theorem readByte_writeByteFrom : ∀ (m : Memory) (lo a : Nat) (v : Byte) (b : Nat), wfFrom lo m = true →
    readByte (writeByte m a v) b = if b = a then v else readByte m b
  | [], _, a, v, b, _ => readByte_cons a v [] (fun _ _ => rfl) b
  | (c, x) :: rest, lo, a, v, b, h => by
    have h' := h
    simp only [wfFrom, Bool.and_eq_true, decide_eq_true_eq] at h'
    unfold writeByte
    by_cases h1 : a < c
    · rw [if_pos h1, readByte_cons a v _ (fun d hd => readByte_of_lt _ (a + 1) d ?_ (by omega)) b]
      simp only [wfFrom, Bool.and_eq_true, decide_eq_true_eq]
      exact ⟨⟨by omega, h'.1.2⟩, h'.2⟩
    · rw [if_neg h1]
      by_cases h2 : a = c
      · subst h2
        rw [if_pos rfl, readByte_cons a v rest (fun d hd => readByte_of_lt rest (a + 1) d h'.2 (by omega)) b]
        by_cases h3 : b = a
        · rw [if_pos h3, if_pos h3]
        · rw [if_neg h3, if_neg h3, readByte, if_neg (Ne.symm h3)]
      · rw [if_neg h2]
        simp only [readByte]
        rw [readByte_writeByteFrom rest (c + 1) a v b h'.2]
        by_cases h3 : c = b
        · rw [if_pos h3, if_pos h3, if_neg (by omega)]
        · rw [if_neg h3, if_neg h3]

theorem readByte_writeByte (m : Memory) (a : Nat) (v : Byte) (b : Nat) (h : m.wf = true) :
    readByte (m.writeByte a v) b = if b = a then v else m.readByte b :=
  readByte_writeByteFrom m 0 a v b h

theorem wf_writeBytes : ∀ (vs : List Byte) (m : Memory) (a : Nat), m.wf = true → (m.writeBytes a vs).wf = true
  | [], _, _, h => h
  | v :: vs, m, a, h => wf_writeBytes vs _ (a + 1) (wf_writeByte m a v h)

theorem wf_writeWord (m : Memory) (i : Nat) (w : Word) (h : m.wf = true) : (m.writeWord i w).wf = true :=
  wf_writeBytes _ m (4 * i) h

theorem wf_loadWords : ∀ (ws : List Word) (m : Memory) (i : Nat), m.wf = true → (m.loadWords i ws).wf = true
  | [], _, _, h => h
  | w :: ws, m, i, h => wf_loadWords ws _ (i + 1) (wf_writeWord m i w h)

/-- A byte read after a word written: the word's bytes at 4i to 4i+3, and every other byte as before. -/
theorem readByte_writeWord (m : Memory) (i : Nat) (w : Word) (b : Nat) (h : m.wf = true) :
    readByte (m.writeWord i w) b =
      if b = 4 * i + 3 then w.extractLsb' 24 8 else if b = 4 * i + 2 then w.extractLsb' 16 8
      else if b = 4 * i + 1 then w.extractLsb' 8 8 else if b = 4 * i then w.extractLsb' 0 8 else m.readByte b := by
  have h1 := wf_writeByte m (4 * i) (w.extractLsb' 0 8) h
  have h2 := wf_writeByte _ (4 * i + 1) (w.extractLsb' 8 8) h1
  have h3 := wf_writeByte _ (4 * i + 1 + 1) (w.extractLsb' 16 8) h2
  unfold writeWord bytesOfWord
  simp only [writeBytes]
  rw [readByte_writeByte _ _ _ _ h3, readByte_writeByte _ _ _ _ h2, readByte_writeByte _ _ _ _ h1,
    readByte_writeByte _ _ _ _ h]

theorem readByte_writeWord_of_ne (m : Memory) (i : Nat) (w : Word) (b : Nat) (h : m.wf = true)
    (hb : b < 4 * i ∨ 4 * i + 3 < b) : readByte (m.writeWord i w) b = m.readByte b := by
  rw [readByte_writeWord m i w b h, if_neg (by omega), if_neg (by omega), if_neg (by omega), if_neg (by omega)]

/-- A word read after a word written: the written word there, and every other word as before. -/
theorem readWord_writeWord (m : Memory) (i : Nat) (w : Word) (j : Nat) (h : m.wf = true) :
    (m.writeWord i w).readWord j = if j = i then w else m.readWord j := by
  unfold readWord
  by_cases hj : j = i
  · subst hj
    simp only [if_true, readByte_writeWord _ _ _ _ h, if_neg (show ¬ 4 * j = 4 * j + 3 by omega),
      if_neg (show ¬ 4 * j = 4 * j + 2 by omega), if_neg (show ¬ 4 * j = 4 * j + 1 by omega),
      if_neg (show ¬ 4 * j + 1 = 4 * j + 3 by omega), if_neg (show ¬ 4 * j + 1 = 4 * j + 2 by omega),
      if_neg (show ¬ 4 * j + 2 = 4 * j + 3 by omega)]
    exact wordOfBytes_bytesOfWord w
  · rw [if_neg hj, readByte_writeWord_of_ne _ _ _ _ h (by omega), readByte_writeWord_of_ne _ _ _ _ h (by omega),
      readByte_writeWord_of_ne _ _ _ _ h (by omega), readByte_writeWord_of_ne _ _ _ _ h (by omega)]

/-- The words of a loaded image at their indices, and every other word as before. -/
theorem readWord_loadWords : ∀ (ws : List Word) (m : Memory) (i j : Nat), m.wf = true →
    (m.loadWords i ws).readWord j = if i ≤ j then ws.getD (j - i) (m.readWord j) else m.readWord j
  | [], m, i, j, _ => by simp [loadWords]
  | w :: ws, m, i, j, h => by
    rw [loadWords, readWord_loadWords ws _ (i + 1) j (wf_writeWord m i w h), readWord_writeWord m i w j h]
    by_cases h1 : i + 1 ≤ j
    · rw [if_pos h1, if_neg (show ¬ j = i by omega), if_pos (show i ≤ j by omega),
        show j - i = (j - (i + 1)) + 1 by omega, List.getD_cons_succ]
    · rw [if_neg h1]
      by_cases h2 : j = i
      · subst h2; simp
      · rw [if_neg h2, if_neg (by omega)]

end Sys2Proof.Machine.Memory
end

