-- ==== Sys2Proof/Laws/Peripheral.lean ====
section
/-! SUPPORT. Everything the peripheral step can do (R97): its cases, and the fields each of its parts leaves alone. -/

namespace Sys2Proof.Machine

/-- The fields the peripheral step never writes: STATE, HOLD, MODE, the compare values, TXBUF, TXT and R. -/
structure SameUnit (u v : ClockUnit) : Prop where
  st : v.st = u.st
  hold : v.hold = u.hold
  mode : v.mode = u.mode
  bocr : v.bocr = u.bocr
  wocr : v.wocr = u.wocr
  txbuf : v.txbuf = u.txbuf
  txt : v.txt = u.txt
  release : v.release = u.release

/-- The counters and clock lines of a unit: what the BCLK unit and the WS unit write. -/
structure SameCounters (u v : ClockUnit) : Prop where
  bcnt : v.bcnt = u.bcnt
  wcnt : v.wcnt = u.wcnt
  dead : v.dead = u.dead
  bclk : v.bclk = u.bclk
  ws : v.ws = u.ws

/-- The data path of a unit: what a bit boundary writes. -/
structure SameData (u v : ClockUnit) : Prop where
  sd : v.sd = u.sd
  sr : v.sr = u.sr
  bitpos : v.bitpos = u.bitpos
  txfull : v.txfull = u.txfull

theorem bclkUnit_sameUnit (c : Config) (u : ClockUnit) : SameUnit u (bclkUnit c u).1 := by
  unfold bclkUnit
  split_ifs <;> exact ⟨rfl, rfl, rfl, rfl, rfl, rfl, rfl, rfl⟩

theorem bclkUnit_sameData (c : Config) (u : ClockUnit) : SameData u (bclkUnit c u).1 := by
  unfold bclkUnit
  split_ifs <;> exact ⟨rfl, rfl, rfl, rfl⟩

theorem bclkUnit_ws (c : Config) (u : ClockUnit) : (bclkUnit c u).1.ws = u.ws ∧ (bclkUnit c u).1.wcnt = u.wcnt := by
  unfold bclkUnit
  split_ifs <;> exact ⟨rfl, rfl⟩

theorem wsUnit_sameUnit (u : ClockUnit) : SameUnit u (wsUnit u) := by
  unfold wsUnit
  split_ifs <;> exact ⟨rfl, rfl, rfl, rfl, rfl, rfl, rfl, rfl⟩

theorem wsUnit_sameData (u : ClockUnit) : SameData u (wsUnit u) := by
  unfold wsUnit
  split_ifs <;> exact ⟨rfl, rfl, rfl, rfl⟩

theorem wsUnit_bclk (u : ClockUnit) :
    (wsUnit u).bclk = u.bclk ∧ (wsUnit u).bcnt = u.bcnt ∧ (wsUnit u).dead = u.dead := by
  unfold wsUnit
  split_ifs <;> exact ⟨rfl, rfl, rfl⟩

/-- The two counting units of one cycle (R98, R99). -/
def clocked (c : Config) (u : ClockUnit) : ClockUnit := wsUnit (bclkUnit c u).1

theorem clocked_sameUnit (c : Config) (u : ClockUnit) : SameUnit u (clocked c u) := by
  have h1 := bclkUnit_sameUnit c u
  have h2 := wsUnit_sameUnit (bclkUnit c u).1
  exact ⟨h2.st.trans h1.st, h2.hold.trans h1.hold, h2.mode.trans h1.mode, h2.bocr.trans h1.bocr,
    h2.wocr.trans h1.wocr, h2.txbuf.trans h1.txbuf, h2.txt.trans h1.txt, h2.release.trans h1.release⟩

theorem clocked_sameData (c : Config) (u : ClockUnit) : SameData u (clocked c u) := by
  have h1 := bclkUnit_sameData c u
  have h2 := wsUnit_sameData (bclkUnit c u).1
  exact ⟨h2.sd.trans h1.sd, h2.sr.trans h1.sr, h2.bitpos.trans h1.bitpos, h2.txfull.trans h1.txfull⟩

theorem shiftOut_sameUnit (c : Config) (u : ClockUnit) : SameUnit u (shiftOut c u) :=
  ⟨rfl, rfl, rfl, rfl, rfl, rfl, rfl, rfl⟩

theorem shiftOut_sameCounters (c : Config) (u : ClockUnit) : SameCounters u (shiftOut c u) :=
  ⟨rfl, rfl, rfl, rfl, rfl⟩

/-- A load point that raises nothing: in the middle of a slot nothing happens, at its start the word is taken (R101). -/
theorem loadPoint_ok {c : Config} {t : Nat} {u v : ClockUnit} (h : loadPoint c t u = .ok v) :
    (u.bitpos ≠ 0 ∧ v = u) ∨
    (u.bitpos = 0 ∧ u.txfull = true ∧ setupMet c t u.txt = true ∧
      v = { u with sr := lowBits c.w u.txbuf.toNat, txfull := false }) := by
  unfold loadPoint at h
  split_ifs at h with h1 h2 h3
  · exact .inr ⟨h1, by simpa using h2, h3, by simpa using h.symm⟩
  · exact .inl ⟨h1, by simpa using h.symm⟩

/-- The setup window (R102): met exactly when a transmit lies at least TX_SETUP cycles back. -/
theorem setupMet_iff (c : Config) (t : Nat) (x : Option Nat) :
    setupMet c t x = true ↔ ∃ n, x = some n ∧ n + c.txSetup ≤ t := by
  cases x <;> simp [setupMet]

/-- The peripheral step, case by case (R97): held or off, between two bit boundaries, or at a bit boundary. -/
theorem periph_ok {c : Config} {t : Nat} {u v : ClockUnit} (h : periph c t u = .ok v) :
    ((u.mode = false ∨ u.hold = true) ∧ v = u) ∨
    (u.mode = true ∧ u.hold = false ∧ (bclkUnit c u).2 = false ∧ v = clocked c u) ∨
    (u.mode = true ∧ u.hold = false ∧ (bclkUnit c u).2 = true ∧
      ∃ l, loadPoint c t (clocked c u) = .ok l ∧ v = shiftOut c l) := by
  unfold periph advanceUnit at h
  by_cases hm : u.mode = true
  · by_cases hh : u.hold = true
    · refine .inl ⟨.inr hh, ?_⟩
      simpa [hm, hh] using h.symm
    · have hh' : u.hold = false := by simpa using hh
      by_cases hb : (bclkUnit c u).2 = true
      · refine .inr (.inr ⟨hm, hh', hb, ?_⟩)
        simp only [hm, hh', hb, Bool.not_false, Bool.and_self, if_true] at h
        unfold dataPath at h
        split at h
        · next l hl => exact ⟨l, hl, by simpa using h.symm⟩
        · cases h
      · have hb' : (bclkUnit c u).2 = false := by simpa using hb
        refine .inr (.inl ⟨hm, hh', hb', ?_⟩)
        simpa [hm, hh', hb', clocked] using h.symm
  · have hm' : u.mode = false := by simpa using hm
    refine .inl ⟨.inl hm', ?_⟩
    simpa [hm'] using h.symm

/-- A held or switched-off unit does not move (R97, R109). -/
theorem periph_held (c : Config) (t : Nat) (u : ClockUnit) (h : u.mode = false ∨ u.hold = true) :
    periph c t u = .ok u := by
  unfold periph
  rcases h with h | h <;> simp [h]

/-- The fields the peripheral step never writes, after any peripheral step. -/
theorem periph_sameUnit {c : Config} {t : Nat} {u v : ClockUnit} (h : periph c t u = .ok v) : SameUnit u v := by
  rcases periph_ok h with ⟨_, rfl⟩ | ⟨_, _, _, rfl⟩ | ⟨_, _, _, l, hl, rfl⟩
  · exact ⟨rfl, rfl, rfl, rfl, rfl, rfl, rfl, rfl⟩
  · exact clocked_sameUnit c u
  · have h1 := clocked_sameUnit c u
    rcases loadPoint_ok hl with ⟨_, rfl⟩ | ⟨_, _, _, rfl⟩ <;>
      exact ⟨h1.st, h1.hold, h1.mode, h1.bocr, h1.wocr, h1.txbuf, h1.txt, h1.release⟩

/-- The peripheral step clears TXFULL only at a bit boundary with BITPOS = 0, and never sets it (R100, R101). -/
theorem periph_txfull {c : Config} {t : Nat} {u v : ClockUnit} (h : periph c t u = .ok v) :
    v.txfull = u.txfull ∨
      (v.txfull = false ∧ u.mode = true ∧ u.hold = false ∧ (bclkUnit c u).2 = true ∧ u.bitpos = 0) := by
  rcases periph_ok h with ⟨_, rfl⟩ | ⟨_, _, _, rfl⟩ | ⟨hm, hh, hb, l, hl, rfl⟩
  · exact .inl rfl
  · exact .inl (clocked_sameData c u).txfull
  · rcases loadPoint_ok hl with ⟨_, rfl⟩ | ⟨h0, _, _, rfl⟩
    · exact .inl (clocked_sameData c u).txfull
    · exact .inr ⟨rfl, hm, hh, hb, (clocked_sameData c u).bitpos.symm.trans h0⟩

/-- A peripheral step raises F_UNDERRUN or F_SETUP, at a load point only (R101, R102). -/
theorem periph_error {c : Config} {t : Nat} {u : ClockUnit} {m : ModelFault} (h : periph c t u = .error m) :
    u.mode = true ∧ u.hold = false ∧ (bclkUnit c u).2 = true ∧ u.bitpos = 0 ∧
      ((u.txfull = false ∧ m = .underrun t) ∨
        (u.txfull = true ∧ setupMet c t u.txt = false ∧ m = .setup t u.txt)) := by
  have hu := clocked_sameUnit c u
  have hd := clocked_sameData c u
  unfold periph advanceUnit at h
  split_ifs at h with h1
  · simp only [Bool.and_eq_true, Bool.not_eq_true'] at h1
    refine ⟨h1.1, h1.2, ?_⟩
    by_cases hb : (bclkUnit c u).2 = true
    · refine ⟨hb, ?_⟩
      simp only [hb, if_true] at h
      unfold dataPath at h
      split at h
      · cases h
      · next m' hl =>
        cases h
        change loadPoint c t (clocked c u) = _ at hl
        unfold loadPoint at hl
        rw [hd.bitpos, hd.txfull, hu.txt] at hl
        split_ifs at hl with h2 h3 h4
        · cases hl; exact ⟨h2, .inl ⟨h3, rfl⟩⟩
        · cases hl; exact ⟨h2, .inr ⟨by simpa using h3, by simpa using h4, rfl⟩⟩
    · simp [hb] at h

/-- The peripheral steps of n + m cycles are those of n and then those of m. -/
theorem periphRun_add : ∀ (n m : Nat) (c : Config) (t : Nat) (u w : ClockUnit),
    periphRun c t (n + m) u = .ok w ↔ ∃ v, periphRun c t n u = .ok v ∧ periphRun c (t + n) m v = .ok w
  | 0, m, c, t, u, w => by simp [periphRun]
  | n + 1, m, c, t, u, w => by
    rw [show n + 1 + m = (n + m) + 1 by omega, periphRun, periphRun]
    cases h : periph c t u with
    | ok v => simp only []; rw [periphRun_add n m c (t + 1) v w, show t + 1 + n = t + (n + 1) by omega]
    | error m => simp

/-- A held or switched-off unit stays as it is for any number of cycles (R97). -/
theorem periphRun_held (c : Config) (u : ClockUnit) (h : u.mode = false ∨ u.hold = true) :
    ∀ n t : Nat, periphRun c t n u = .ok u
  | 0, _ => rfl
  | n + 1, t => by rw [periphRun, periph_held c t u h]; exact periphRun_held c u h n (t + 1)

end Sys2Proof.Machine
end

