-- ==== Sys2Proof/Laws/Cycle.lean ====
section
/-! SUPPORT. One inversion lemma for a step: everything a cycle that answers a next state can have done (R42, R43, R136).
Every claim about `step` is proved from it. -/

namespace Sys2Proof.Machine

/-- `fetchDecode` reads the configuration, the command memory and PC only. -/
theorem fetchDecode_congr {s t : State} (hc : t.cfg = s.cfg) (hm : t.mem = s.mem) (hp : t.seq.pc = s.seq.pc) :
    fetchDecode t = fetchDecode s := by
  unfold fetchDecode; rw [hc, hm, hp]

/-- What `fetchDecode` needs to answer a command (R42). -/
theorem fetchDecode_ok {s : State} {i : Instr} :
    fetchDecode s = .ok i ↔
      s.seq.pc.toNat < s.cfg.progWords ∧ decode (s.mem.readWord s.seq.pc.toNat) = .command i := by
  unfold fetchDecode
  by_cases h : s.cfg.progWords ≤ s.seq.pc.toNat
  · rw [if_pos h]; simp; omega
  · rw [if_neg h]
    cases hd : decode (s.mem.readWord s.seq.pc.toNat) <;> simp; omega

/-- Step 1 left the state `r` (R43): the command in progress goes on, a stall, or an issue. -/
inductive StepOne (draw : Bool) (s r : State) : Prop
  | inside (i : Instr) (hc : s.seq.cur = some i) (hr : r = s)
  | stall (hc : s.seq.cur = none) (hi : s.seq.i = true) (hd : draw = true) (hr : r = takeDraw s)
  | issue (i : Instr) (hc : s.seq.cur = none) (hd : s.seq.i = false ∨ draw = false) (hf : fetchDecode s = .ok i)
      (hr : r = beginCommand i (takeDraw s))

theorem stepOne_ok {draw : Bool} {s r : State} (h : stepOne draw s = .ok r) : StepOne draw s r := by
  unfold stepOne at h
  split at h
  · next i hc => cases h; exact .inside i hc rfl
  · next hc =>
    split_ifs at h with hd
    · cases h
      simp only [Bool.and_eq_true] at hd
      exact .stall hc hd.1 hd.2 rfl
    · unfold Machine.issue at h
      split at h
      · next i hi =>
        cases h
        refine .issue i hc ?_ (by rw [← hi]; exact (fetchDecode_congr (by simp) (by simp) (by simp)).symm) rfl
        by_cases h1 : s.seq.i = true
        · exact .inr (by simpa [h1] using hd)
        · exact .inl (by simpa using h1)
      · cases h

/-- A fault of step 1 comes from a fetch between commands. -/
theorem stepOne_error {draw : Bool} {s : State} {m : ModelFault} (h : stepOne draw s = .error m) :
    s.seq.cur = none ∧ (s.seq.i = false ∨ draw = false) ∧ fetchDecode s = .error m := by
  unfold stepOne at h
  split at h
  · cases h
  · next hc =>
    split_ifs at h with hd
    · unfold Machine.issue at h
      split at h
      · cases h
      · next m' hm =>
        cases h
        refine ⟨hc, ?_, by rw [← hm]; exact (fetchDecode_congr (by simp) (by simp) (by simp)).symm⟩
        by_cases h1 : s.seq.i = true
        · exact .inr (by simpa [h1] using hd)
        · exact .inl (by simpa using h1)

/-- What steps 2 to 4 make of the state `r` that step 1 left. -/
inductive StepRest (r t : State) : Prop
  | periphFault (m : ModelFault) (hp : periph r.cfg r.cyc r.clk = .error m) (ht : t = recordFault m r)
  | idle (u : ClockUnit) (hp : periph r.cfg r.cyc r.clk = .ok u) (hc : r.seq.cur = none) (ht : t = tick (setClk u r))
  | busy (u : ClockUnit) (i : Instr) (hp : periph r.cfg r.cyc r.clk = .ok u) (hc : r.seq.cur = some i)
      (hb : 1 < r.seq.busy) (ht : t = tick (countDown (setClk u r)))
  | effect (u : ClockUnit) (i : Instr) (e : State) (hp : periph r.cfg r.cyc r.clk = .ok u) (hc : r.seq.cur = some i)
      (hb : r.seq.busy ≤ 1) (he : exec i (setClk u r) = .next e) (ht : t = tick (retire e))
  | raised (u : ClockUnit) (i : Instr) (m : ModelFault) (hp : periph r.cfg r.cyc r.clk = .ok u)
      (hc : r.seq.cur = some i) (hb : r.seq.busy ≤ 1) (he : exec i (setClk u r) = .fault (.raised m))
      (ht : t = recordFault m (setClk u r))

theorem stepTwoOn_next {r t : State} (h : stepTwoOn r = .next t) : StepRest r t := by
  unfold stepTwoOn stepTwo at h
  cases hp : periph r.cfg r.cyc r.clk with
  | error m => simp only [hp] at h; cases h; exact .periphFault m hp rfl
  | ok u =>
    simp only [hp] at h
    unfold stepThree at h
    split at h
    · next hc => cases h; exact .idle u hp (by simpa using hc) rfl
    · next i hc =>
      have hc' : r.seq.cur = some i := by simpa using hc
      split_ifs at h with hb
      · cases h; exact .busy u i hp hc' (by simpa using hb) rfl
      · have hb' : r.seq.busy ≤ 1 := by simpa using hb
        rcases exec_outcome i (setClk u r) with ⟨e, he⟩ | ⟨m, he⟩
        · rw [he] at h; cases h; exact .effect u i e hp hc' hb' he rfl
        · rw [he] at h; cases h; exact .raised u i m hp hc' hb' he rfl

/-- Steps 2 to 4 always answer a next state. -/
theorem stepTwoOn_total (r : State) : ∃ t, stepTwoOn r = .next t := by
  unfold stepTwoOn stepTwo
  cases periph r.cfg r.cyc r.clk with
  | error m => exact ⟨_, rfl⟩
  | ok u =>
    simp only
    unfold stepThree
    split
    · exact ⟨_, rfl⟩
    · next i _ =>
      split_ifs
      · exact ⟨_, rfl⟩
      · rcases exec_outcome i (setClk u r) with ⟨e, he⟩ | ⟨m, he⟩ <;> rw [he] <;> exact ⟨_, rfl⟩

/-- Everything a step that answers `t` has done (R43). -/
inductive StepCases (s t : State) : Prop
  | fetchFault (m : ModelFault) (hc : s.seq.cur = none) (hf : fetchDecode s = .error m) (ht : t = recordFault m s)
  | cycle (r : State) (h1 : StepOne (Config.stallDraw s.draws) s r) (h2 : StepRest r t)

/-- A step is made only in a run that has not ended, and is one of the cases of R43. -/
theorem step_next {s t : State} (h : step s = .next t) :
    s.fault = none ∧ s.seq.halted = false ∧ StepCases s t := by
  unfold step cycleWith at h
  split at h
  · cases h
  · next hf =>
    split_ifs at h with hh
    · refine ⟨hf, by simpa using hh, ?_⟩
      unfold runningCycle at h
      split at h
      · next r hr => exact .cycle r (stepOne_ok hr) (stepTwoOn_next h)
      · next m hm =>
        cases h
        have := stepOne_error hm
        exact .fetchFault m this.1 this.2.2 rfl

/-- A run that has not ended always takes a step. -/
theorem step_total {s : State} (hf : s.fault = none) (hh : s.seq.halted = false) : ∃ t, step s = .next t := by
  unfold step cycleWith
  simp only [hf, hh]
  unfold runningCycle
  cases stepOne (Config.stallDraw s.draws) s with
  | ok r => exact stepTwoOn_total r
  | error m => exact ⟨_, rfl⟩

/-- The fields step 1 leaves alone. -/
theorem StepOne.same {draw : Bool} {s r : State} (h : StepOne draw s r) :
    r.cfg = s.cfg ∧ r.mem = s.mem ∧ r.clk = s.clk ∧ r.osc = s.osc ∧ r.cyc = s.cyc ∧ r.fault = s.fault ∧
      r.seq.pc = s.seq.pc ∧ r.seq.lc = s.seq.lc ∧ r.seq.sreg = s.seq.sreg ∧ r.seq.halted = s.seq.halted := by
  cases h with
  | inside i hc hr => subst hr; simp
  | stall hc hi hd hr => subst hr; simp
  | issue i hc hd hf hr => subst hr; simp

/-- One cycle of a run, and the rest of it. -/
theorem run_succ {n : Nat} {s t : State} (h : step s = .next t) : run (n + 1) s = run n t := by
  rw [run, h]

/-- A run of n + 1 cycles begins with a step. -/
theorem run_succ_next {n : Nat} {s t : State} (h : run (n + 1) s = .next t) :
    ∃ r, step s = .next r ∧ run n r = .next t := by
  rw [run] at h
  cases hs : step s with
  | next r => rw [hs] at h; exact ⟨r, rfl, h⟩
  | fault f => rw [hs] at h; cases h
  | refused f => rw [hs] at h; cases h

/-- n + m cycles are n cycles and then m. -/
theorem run_add : ∀ (n m : Nat) (s t : State), run n s = .next t → run (n + m) s = run m t
  | 0, m, s, t, h => by cases h; rw [Nat.zero_add]
  | n + 1, m, s, t, h => by
    obtain ⟨r, hr, ht⟩ := run_succ_next h
    rw [show n + 1 + m = (n + m) + 1 by omega, run_succ hr]
    exact run_add n m r t ht

/-- A step between commands, where no stall falls, issues the command that the fetch gives (R42, R43). -/
theorem step_issue {s : State} {i : Instr} (hb : Boundary s) (hn : NoStall s) (hf : fetchDecode s = .ok i) :
    step s = stepTwoOn (beginCommand i (takeDraw s)) := by
  obtain ⟨h1, h2, h3⟩ := hb
  have hd : (s.seq.i && Config.stallDraw s.draws) = false := by rcases hn with h | h <;> simp [h]
  unfold step cycleWith
  simp only [h1, h2, runningCycle, stepOne, h3, hd, issue]
  rw [fetchDecode_congr (t := takeDraw s) (s := s) (by simp) (by simp) (by simp), hf]
  rfl

/-- A step between commands, where no stall falls, records the fault that the fetch raises (R42, R136). -/
theorem step_fetch_fault {s : State} {m : ModelFault} (hb : Boundary s) (hn : NoStall s)
    (hf : fetchDecode s = .error m) : step s = .next (recordFault m s) := by
  obtain ⟨h1, h2, h3⟩ := hb
  have hd : (s.seq.i && Config.stallDraw s.draws) = false := by rcases hn with h | h <;> simp [h]
  unfold step cycleWith
  simp only [h1, h2, runningCycle, stepOne, h3, hd, issue]
  rw [fetchDecode_congr (t := takeDraw s) (s := s) (by simp) (by simp) (by simp), hf]
  rfl

/-- A step inside a command goes straight to the peripheral step (R43). -/
theorem step_inside {s : State} {i : Instr} (h1 : s.fault = none) (h2 : s.seq.halted = false)
    (h3 : s.seq.cur = some i) : step s = stepTwoOn s := by
  unfold step cycleWith
  simp only [h1, h2, runningCycle, stepOne, h3]
  rfl

theorem stepTwoOn_fault {s : State} {m : ModelFault} (hp : periph s.cfg s.cyc s.clk = .error m) :
    stepTwoOn s = .next (recordFault m s) := by
  simp [stepTwoOn, stepTwo, hp]

theorem stepTwoOn_busy {s : State} {i : Instr} {u : ClockUnit} (hp : periph s.cfg s.cyc s.clk = .ok u)
    (hc : s.seq.cur = some i) (hb : 1 < s.seq.busy) : stepTwoOn s = .next (tick (countDown (setClk u s))) := by
  simp [stepTwoOn, stepTwo, hp, stepThree, hc, hb]

theorem stepTwoOn_effect {s : State} {i : Instr} {u : ClockUnit} (hp : periph s.cfg s.cyc s.clk = .ok u)
    (hc : s.seq.cur = some i) (hb : s.seq.busy ≤ 1) :
    stepTwoOn s = settleEffect (setClk u s) (exec i (setClk u s)) := by
  simp [stepTwoOn, stepTwo, hp, stepThree, hc, Nat.not_lt.mpr hb]

/-- An issue between commands, with its stall draw, as one record update (R42, R44). -/
theorem beginCommand_takeDraw {s : State} {i : Instr} (hc : s.seq.cur = none) :
    beginCommand i (takeDraw s) = { s with
      seq := { s.seq with cur := some i, busy := cost s.cfg i, i := if i = .cfg then false else s.seq.i }
      draws := if s.seq.i then s.draws + 1 else s.draws } := by
  ext <;> simp [takeDraw_draws, drawsNow, hc]

/-- A word placed by `withFetchWord` is the one the next step issues (log 12). -/
theorem withFetchWord_fetches {s : State} {nbits w : Nat} {i : Instr} (hm : s.mem.wf = true)
    (hp : 1 ≤ s.cfg.progWords) (hd : decode (BitVec.ofNat 32 (w % 2 ^ nbits)) = .command i) :
    Boundary (s.withFetchWord nbits w) ∧ NoStall (s.withFetchWord nbits w) ∧
      fetchDecode (s.withFetchWord nbits w) = .ok i := by
  refine ⟨⟨rfl, rfl, rfl⟩, .inl rfl, fetchDecode_ok.mpr ⟨?_, ?_⟩⟩
  · show (if s.seq.pc.toNat < s.cfg.progWords then s.seq.pc else 0 : Half).toNat < s.cfg.progWords
    split_ifs with h
    · exact h
    · exact hp
  · refine (congrArg decode ?_).trans hd
    exact (Memory.readWord_writeWord _ _ _ _ hm).trans (if_pos rfl)

/-- A safe run is safe at every earlier cycle: a recorded fault is never cleared (R41). -/
theorem safeFor_of_le {m : Nat} : ∀ {n : Nat} {s : State}, SafeFor n s → m ≤ n → SafeFor m s := by
  induction m with
  | zero =>
    intro n s h _
    cases n with
    | zero => exact h
    | succ n =>
      obtain ⟨t, ht, _⟩ := h
      obtain ⟨r, hr, _⟩ := run_succ_next ht
      exact ⟨s, rfl, (step_next hr).1⟩
  | succ m ih =>
    intro n s h hm
    obtain ⟨t, ht, hf⟩ := h
    obtain ⟨n, rfl⟩ : ∃ k, n = k + 1 := ⟨n - 1, by omega⟩
    obtain ⟨r, hr, hrt⟩ := run_succ_next ht
    obtain ⟨q, hq, hqf⟩ := ih ⟨t, hrt, hf⟩ (by omega : m ≤ n)
    exact ⟨q, (run_succ hr).trans hq, hqf⟩

end Sys2Proof.Machine
end

