-- ==== Sys2Proof/Laws/Encoding.lean ====
section
/-! SUPPORT. The fields of the encoder's words, form by form: what the decoder's field readers give on them (R71, R72). -/

namespace Sys2Proof

theorem opcodeOf_wordNone (op : Byte) : opcodeOf (wordNone op) = op := by
  unfold opcodeOf wordNone
  ext i hi
  simp only [BitVec.getElem_extractLsb', BitVec.getLsbD_append]
  rw [if_neg (by omega), ← BitVec.getLsbD_eq_getElem]
  congr 1; omega

theorem opcodeOf_wordU8 (op k : Byte) : opcodeOf (wordU8 op k) = op := by
  unfold opcodeOf wordU8
  ext i hi
  simp only [BitVec.getElem_extractLsb', BitVec.getLsbD_append]
  rw [if_neg (by omega), if_neg (by omega), ← BitVec.getLsbD_eq_getElem]
  congr 1; omega

theorem opcodeOf_wordU16 (op : Byte) (v : Half) : opcodeOf (wordU16 op v) = op := by
  unfold opcodeOf wordU16
  ext i hi
  simp only [BitVec.getElem_extractLsb', BitVec.getLsbD_append]
  rw [if_neg (by omega), if_neg (by omega), ← BitVec.getLsbD_eq_getElem]
  congr 1; omega

theorem opcodeOf_wordTone (op : Byte) (f : Half) (a : Byte) : opcodeOf (wordTone op f a) = op := by
  unfold opcodeOf wordTone
  ext i hi
  simp only [BitVec.getElem_extractLsb', BitVec.getLsbD_append]
  rw [if_neg (by omega), if_neg (by omega), ← BitVec.getLsbD_eq_getElem]
  congr 1; omega

/-- An append of fields as a number: the upper one stands above the lower one's bits (R71). -/
theorem toNat_append_add {m n : Nat} (x : BitVec m) (y : BitVec n) :
    (x ++ y).toNat = x.toNat * 2 ^ n + y.toNat := by
  rw [BitVec.toNat_append, ← Nat.shiftLeft_add_eq_or_of_lt y.isLt, Nat.shiftLeft_eq]

@[simp] theorem wordNone_toNat (op : Byte) : (wordNone op).toNat = op.toNat * 2 ^ 24 := by
  simp only [wordNone, toNat_append_add, BitVec.ofNat_eq_ofNat, BitVec.toNat_ofNat]; omega

@[simp] theorem wordU8_toNat (op k : Byte) : (wordU8 op k).toNat = op.toNat * 2 ^ 24 + k.toNat := by
  simp only [wordU8, toNat_append_add, BitVec.ofNat_eq_ofNat, BitVec.toNat_ofNat]; omega

@[simp] theorem wordU16_toNat (op : Byte) (v : Half) : (wordU16 op v).toNat = op.toNat * 2 ^ 24 + v.toNat := by
  simp only [wordU16, toNat_append_add, BitVec.ofNat_eq_ofNat, BitVec.toNat_ofNat]; omega

@[simp] theorem wordTone_toNat (op : Byte) (f : Half) (a : Byte) :
    (wordTone op f a).toNat = op.toNat * 2 ^ 24 + f.toNat * 2 ^ 8 + a.toNat := by
  simp only [wordTone, toNat_append_add]; omega

end Sys2Proof
end

