-- ==== Sys2Proof/Laws/PerInstr.lean ====
section
/-! SUPPORT. Statements made for every command, one lemma per constructor of `Instr`.
`Opcode`: the command's word carries the opcode of its row (R74). `Cost`: in a legal configuration it takes a cycle (R42). -/

namespace Sys2Proof.Laws.Opcode

/-- The word's opcode byte is the one of the row of the command's mnemonic. -/
def Statement (i : Instr) : Prop :=
  ∃ r, (opcodeMap.find? fun r => r.opcode == opcodeOf (encode i)) = some r ∧ r.mnemonic = i.mnemonic

theorem nop : Statement .nop := ⟨_, rfl, rfl⟩
theorem dly8 (k : Byte) : Statement (.dly8 k) := by
  unfold Statement; simp only [encode, opcodeOf_wordU8]; exact ⟨_, rfl, rfl⟩
theorem dly16 (k : Half) : Statement (.dly16 k) := by
  unfold Statement; simp only [encode, opcodeOf_wordU16]; exact ⟨_, rfl, rfl⟩
theorem cfg : Statement .cfg := ⟨_, rfl, rfl⟩
theorem start : Statement .start := ⟨_, rfl, rfl⟩
theorem txi (v : Half) : Statement (.txi v) := by
  unfold Statement; simp only [encode, opcodeOf_wordU16]; exact ⟨_, rfl, rfl⟩
theorem txs : Statement .txs := ⟨_, rfl, rfl⟩
theorem tone (f : Half) (a : Byte) : Statement (.tone f a) := by
  unfold Statement; simp only [encode, opcodeOf_wordTone]; exact ⟨_, rfl, rfl⟩
theorem getf : Statement .getf := ⟨_, rfl, rfl⟩
theorem getn : Statement .getn := ⟨_, rfl, rfl⟩
theorem ldlc (v : Half) : Statement (.ldlc v) := by
  unfold Statement; simp only [encode, opcodeOf_wordU16]; exact ⟨_, rfl, rfl⟩
theorem djnz (t : Half) : Statement (.djnz t) := by
  unfold Statement; simp only [encode, opcodeOf_wordU16]; exact ⟨_, rfl, rfl⟩
theorem jmp (t : Half) : Statement (.jmp t) := by
  unfold Statement; simp only [encode, opcodeOf_wordU16]; exact ⟨_, rfl, rfl⟩
theorem halt : Statement .halt := ⟨_, rfl, rfl⟩

end Sys2Proof.Laws.Opcode

namespace Sys2Proof.Laws.Cost

open Sys2Proof.Machine

/-- Every command of a legal configuration costs at least one cycle (R42, R153). -/
def Statement (i : Instr) : Prop := ∀ c : Config, c.WellFormed = true → 1 ≤ cost c i

/-- A loop count is never 0 iterations (R84). -/
theorem dly8Iterations_pos (k : Byte) : 1 ≤ dly8Iterations k ∧ dly8Iterations k ≤ 256 := by
  unfold dly8Iterations
  split_ifs with h
  · omega
  · have h1 := k.isLt
    have h2 : k.toNat ≠ 0 := fun h3 => h (BitVec.eq_of_toNat_eq (by simpa using h3))
    omega

/-- A loop count is never 0 iterations (R85). -/
theorem dly16Iterations_pos (k : Half) : 1 ≤ dly16Iterations k ∧ dly16Iterations k ≤ 65536 := by
  unfold dly16Iterations
  split_ifs with h
  · omega
  · have h1 := k.isLt
    have h2 : k.toNat ≠ 0 := fun h3 => h (BitVec.eq_of_toNat_eq (by simpa using h3))
    omega

theorem nop : Statement .nop := fun _ _ => Nat.le_refl 1
theorem dly8 (k : Byte) : Statement (.dly8 k) := fun _ _ => by
  have := dly8Iterations_pos k; simp only [cost]; omega
theorem dly16 (k : Half) : Statement (.dly16 k) := fun _ _ => by
  have := dly16Iterations_pos k; simp only [cost]; omega
theorem cfg : Statement .cfg := fun _ h => (Config.legal_of_wellFormed h).cost.1
theorem start : Statement .start := fun _ h => (Config.legal_of_wellFormed h).cost.2.1
theorem txi (v : Half) : Statement (.txi v) := fun _ h => (Config.legal_of_wellFormed h).cost.2.2.1
theorem txs : Statement .txs := fun _ h => (Config.legal_of_wellFormed h).cost.2.2.1
theorem tone (f : Half) (a : Byte) : Statement (.tone f a) := fun _ h => (Config.legal_of_wellFormed h).cost.2.2.2.1
theorem getf : Statement .getf := fun _ h => (Config.legal_of_wellFormed h).cost.2.2.2.2.1
theorem getn : Statement .getn := fun _ h => (Config.legal_of_wellFormed h).cost.2.2.2.2.2.1
theorem ldlc (v : Half) : Statement (.ldlc v) := fun _ h => (Config.legal_of_wellFormed h).cost.2.2.2.2.2.2.1
theorem djnz (t : Half) : Statement (.djnz t) := fun _ h => (Config.legal_of_wellFormed h).cost.2.2.2.2.2.2.2.1
theorem jmp (t : Half) : Statement (.jmp t) := fun _ h => (Config.legal_of_wellFormed h).cost.2.2.2.2.2.2.2.2.1
theorem halt : Statement .halt := fun _ h => (Config.legal_of_wellFormed h).cost.2.2.2.2.2.2.2.2.2

end Sys2Proof.Laws.Cost
end

