-- ==== Sys2Proof/Tests/Slice0.lean ====
section
/-! SUPPORT. Tests of the model against values of the spec (95_test_vectors.md, by vector, and the rules' own examples),
the smoke test of WellFormed, and for every obligation with hypotheses a witness that meets them all, at the boundary
values of its clauses. -/

namespace Sys2Proof.Tests

open Sys2Proof Sys2Proof.Machine

/-! ### Decoding: words written out from R74 and R80, one for each row, and E2 -/

theorem test_decode_nop : decode 0x01000000 = .command .nop := by decide
theorem test_decode_dly8 : decode 0x0200000F = .command (.dly8 15) := by decide
theorem test_decode_dly16 : decode 0x030000FA = .command (.dly16 250) := by decide
theorem test_decode_cfg : decode 0x10000000 = .command .cfg := by decide
theorem test_decode_start : decode 0x11000000 = .command .start := by decide
theorem test_decode_txi : decode 0x12000ABC = .command (.txi 0x0ABC) := by decide
theorem test_decode_txs : decode 0x13000000 = .command .txs := by decide
theorem test_decode_tone : decode 0x2001B864 = .command (.tone 440 100) := by decide
theorem test_decode_getf : decode 0x21000000 = .command .getf := by decide
theorem test_decode_getn : decode 0x22000000 = .command .getn := by decide
theorem test_decode_ldlc : decode 0x30000003 = .command (.ldlc 3) := by decide
theorem test_decode_djnz : decode 0x31000001 = .command (.djnz 1) := by decide
theorem test_decode_jmp : decode 0x3200012C = .command (.jmp 300) := by decide
theorem test_decode_halt : decode 0x3F000000 = .command .halt := by decide

/-- E4: the boundary between the fields f and a of TONE. -/
theorem test_decode_tone_fields :
    decode 0x2000FF00 = .command (.tone 255 0) ∧ decode 0x200000FF = .command (.tone 0 0xFF) := by decide

/-- E2. -/
theorem test_decode_illegal :
    decode 0x00000000 = .illegal .unknownOpcode ∧ decode 0xFF000000 = .illegal .unknownOpcode ∧
    decode 0x04000000 = .illegal .unknownOpcode ∧ decode 0x01000001 = .illegal .mustBeZero ∧
    decode 0x3F000001 = .illegal .mustBeZero ∧ decode 0x02000100 = .illegal .mustBeZero ∧
    decode 0x12010000 = .illegal .mustBeZero := by decide

/-- R52, R56: four bytes make a word, low byte first; fewer make none. -/
theorem test_decode_bytes :
    decodeBytes [0xFA, 0x00, 0x00, 0x03, 0x01] = (.command (.dly16 250), [0x01]) ∧
    decodeBytes [0xFA, 0x00, 0x00] = (.illegal .truncated, [0xFA, 0x00, 0x00]) := by decide

/-- E1. -/
theorem test_encode :
    encode (.tone 40000 0xFB) = 0x209C40FB ∧ encode (.tone 65535 0xFF) = 0x20FFFFFF ∧
    encode (.txi 0xFF9C) = 0x1200FF9C ∧ encode (.djnz 7) = 0x31000007 ∧ encode (.ldlc 2) = 0x30000002 := by decide

theorem test_decodeTableWord :
    decodeTableWord 32 0x2001B864 = some (.tone 440 100) ∧ decodeTableWord 32 0x3F000001 = none := by decide

/-! ### WellFormed: one record that fails each check, and E3's statements -/

theorem test_ref_is_legal : Config.ref.WellFormed = true := by decide

/-- R6, R7: each check refuses a record, under its own name. -/
theorem test_illformed_configurations :
    Config.firstFailure { Config.ref with h := 0 } = some .h ∧
    Config.firstFailure { Config.ref with h := 9 } = some .h ∧
    Config.firstFailure { Config.ref with w := 0 } = some .w ∧
    Config.firstFailure { Config.ref with w := 17 } = some .w ∧
    Config.firstFailure { Config.ref with fCpu := 1 } = some .p ∧
    Config.firstFailure { Config.ref with fCpu := 2 ^ 31 + 1 } = some .p ∧
    Config.firstFailure { Config.ref with variant := .usart, startLatency := 3 } = some .lat ∧
    Config.firstFailure { Config.ref with variant := .usart, startLatency := 165 } = some .fit ∧
    Config.firstFailure { Config.ref with progWords := 0 } = some .mem ∧
    Config.firstFailure { Config.ref with progWords := 65537 } = some .mem ∧
    Config.firstFailure { Config.ref with cDjnz := 0 } = some .cost ∧
    Config.firstFailure { Config.ref with mmioBase := 128 } = some .base ∧
    Config.firstFailure { Config.ref with startLatency := 1 } = some .toggleLat := by decide

/-- R6, R7: the bounds themselves are legal. -/
theorem test_boundary_configurations :
    Config.WellFormed { Config.ref with h := 8, w := 16 } = true ∧
    Config.WellFormed { Config.ref with h := 1, w := 1, fCpu := 2 ^ 31 } = true ∧
    Config.WellFormed { Config.ref with variant := .usart, startLatency := 4 } = true ∧
    Config.WellFormed { Config.ref with variant := .usart, startLatency := 164 } = true := by decide

/-- E3: every statement is refused. -/
theorem test_illformed_statements :
    [Statement.mk (.command .dly8) [.num 256], ⟨.command .dly16, [.num 65536]⟩, ⟨.command .txi, [.num 65536]⟩,
      ⟨.command .txi, [.num (-32769)]⟩, ⟨.command .tone, [.num 70000, .num 0]⟩, ⟨.command .tone, [.num 1, .num 128]⟩,
      ⟨.command .tone, [.num 1, .num (-129)]⟩, ⟨.command .ldlc, [.num (-1)]⟩, ⟨.command .jmp, [.num 65536]⟩,
      ⟨.delay, [.num 262144]⟩, ⟨.delay, [.num (-1)]⟩, ⟨.command .nop, [.num 1]⟩].all
      (fun s => !s.WellFormed) = true := by decide

/-! ### Small states -/

/-- The reset state of a configuration with a program at word 0. -/
def ready (c : Config) (words : List Word) : State := State.initial c (Memory.loadWords [] 0 words) false

/-- The last cycle of a command, in REF from reset. -/
def lastCycle (i : Instr) : State :=
  { ready Config.ref [encode i] with seq := { Sequencer.initial false with cur := some i, busy := 1 } }

/-- The unit as CFG leaves it in a configuration. -/
def heldUnit (c : Config) : ClockUnit := configureUnit c ClockUnit.initial

/-- The unit at k = 0, released at cycle r. -/
def releasedUnit (c : Config) (r : Nat) : ClockUnit := releaseUnit r (heldUnit c)

/-- REF's unit at k = 7, one cycle before the load point of slot 0 (K11), with the word 0x0ABC handed over at cycle x. -/
def beforeLoad (x : Nat) : ClockUnit :=
  { releasedUnit Config.ref 12 with bcnt := 3, bclk := true, wcnt := 7, txbuf := 0x0ABC, txfull := true, txt := some x }

/-- REF after a TONE 40000, -5 whose phase is one advance before the second half (O2). -/
def toned : Oscillator where
  tinc := 7680000
  telap := 7680000
  tamp := 0xFB
  tcur := 0xFFFB
  tvalid := true

/-- The state after a step that answers one. -/
def after : Host.Outcome State Fault Refusal → Option State
  | .next t => some t
  | _ => none

/-- The model fault a meaning raises. -/
def raisedFault : Host.Outcome State Fault Refusal → Option ModelFault
  | .fault (.raised m) => some m
  | _ => none

/-! ### The commands -/

/-- R83's example: PC 5 to 6. -/
theorem test_nop : (after (execNop { lastCycle .nop with seq := { Sequencer.initial false with pc := 5 } })).map (·.seq.pc) = some 6 := by
  decide

/-- D3, D4. -/
theorem test_dly8_cost : cost Config.ref (.dly8 0) = 768 ∧ cost Config.ref (.dly8 255) = 765 := by decide

/-- D5, D6. -/
theorem test_dly16_cost : cost Config.ref (.dly16 0) = 262144 ∧ cost Config.ref (.dly16 65535) = 262140 := by decide

/-- K1. -/
theorem test_cfg : (after (execCfg State.reset)).map (fun t => (t.clk.bocr, t.clk.wocr, t.clk.st, t.seq.pc)) =
    some (3, 95, .configured, 1) := by decide

/-- K16: the preload and the dead time of the USART variant. -/
theorem test_cfg_usart :
    (after (execCfg (ready { Config.ref with variant := .usart, startLatency := 6 } []))).map
      (fun t => (t.clk.dead, t.clk.wcnt)) = some (2, 254) := by decide

/-- K2, and the release of R93. -/
theorem test_start : raisedFault (execStart State.reset) = some (.state .start) ∧
    (after (execStart { State.reset with clk := heldUnit Config.ref, cyc := 24 })).map
      (fun t => (t.clk.hold, t.clk.release)) = some (false, some 24) := by decide

/-- K4, K5. -/
theorem test_txi : raisedFault (execTxi 5 State.reset) = some (.state .txi) ∧
    raisedFault (execTxi 2 { State.reset with clk := { heldUnit Config.ref with txbuf := 1, txfull := true } }) =
      some (.txReject 2) := by decide

/-- R96's example: SREG = 0x0064 is buffered. -/
theorem test_txs :
    (after (execTxs { State.reset with
      clk := heldUnit Config.ref, seq := { Sequencer.initial false with sreg := 0x0064 } })).map
      (fun t => (t.clk.txbuf, t.clk.txfull)) = some (0x0064, true) := by decide

/-- O1. -/
theorem test_tone : (after (execTone 440 100 State.reset)).map (·.osc) =
    some { tinc := 84480, telap := 0, tamp := 0x64, tcur := 0x0064, tvalid := true } := by decide

/-- O9. -/
theorem test_tone_range :
    raisedFault (execTone 5209 1 (ready { Config.ref with fCpu := 1000000 } [])) = some (.toneRange 5209 1000128) := by
  decide

/-- O11, and R115's result. -/
theorem test_getf : raisedFault (execGetf State.reset) = some (.state .getf) ∧
    (after (execGetf { State.reset with osc := toned })).map (·.seq.sreg) = some 0xFFFB := by decide

/-- O2, second and third GETN. -/
theorem test_getn :
    (after (execGetn { State.reset with osc := toned })).map (fun t => (t.osc.telap, t.seq.sreg, t.osc.tcur)) =
      some (15360000, 0x0005, 0x0005) ∧
    (after (execGetn { State.reset with osc := { toned with telap := 15360000, tcur := 0x0005 } })).map
      (fun t => (t.osc.telap, t.seq.sreg)) = some (7040000, 0xFFFB) := by decide

/-- O3, second GETN: with WAVE_LAT = 1 the sample of the state before the update. -/
theorem test_getn_latency :
    (after (execGetn { ready { Config.ref with waveLat := true } [] with osc := toned })).map
      (fun t => (t.seq.sreg, t.osc.tcur)) = some (0xFFFB, 0x0005) := by decide

/-- O4, O5: the negation of -128, and the ZERO variant. -/
theorem test_out : waveOut Config.ref 0x80 8000064 = 0x0080 ∧
    waveOut { Config.ref with waveNeg := .zero } 0x80 8000064 = 0x0000 := by decide

/-- Q1. -/
theorem test_ldlc : (after (execLdlc 3 State.reset)).map (fun t => (t.seq.lc, t.seq.pc)) = some (3, 1) := by decide

/-- Q3, Q2: the fall-through, and LC = 0 wrapping. -/
theorem test_djnz :
    (after (execDjnz 2 { State.reset with seq := { Sequencer.initial false with lc := 1, pc := 5 } })).map
      (fun t => (t.seq.lc, t.seq.pc)) = some (0, 6) ∧
    (after (execDjnz 2 { State.reset with seq := { Sequencer.initial false with lc := 0, pc := 5 } })).map
      (fun t => (t.seq.lc, t.seq.pc)) = some (65535, 2) := by decide

/-- Q4. -/
theorem test_jmp : (after (execJmp 300 State.reset)).map (·.seq.pc) = some 300 := by decide

/-- Q7. -/
theorem test_halt : (after (execHalt State.reset)).map (fun t => (t.seq.halted, t.seq.pc, statusWord t)) =
    some (true, 0, 0x00000100) := by decide

/-! ### Steps -/

/-- R83's example: one cycle. -/
theorem test_step_nop : (after (step (ready Config.ref [0x01000000]))).map (fun t => (t.seq.pc, t.cyc, t.seq.cur)) =
    some (1, 1, none) := by decide

/-- R42: CFG clears I at issue, and is in progress for C_CFG cycles. -/
theorem test_step_cfg :
    (after (step { ready Config.ref [0x10000000] with
      seq := { Sequencer.initial false with i := false } })).map (fun t => (t.seq.i, t.seq.cur, t.seq.busy)) =
      some (false, some .cfg, 11) := by decide

/-- Q5 and Q6: F_ILLEGAL on an empty word, and F_FETCH before it. -/
theorem test_step_fetch :
    (after (step { ready Config.ref [] with
      seq := { Sequencer.initial false with pc := 1 }, cyc := 1 })).map (·.fault) =
      some (some ⟨.illegal 0x00000000, 1, 1⟩) ∧
    (after (step { ready { Config.ref with progWords := 1 } [] with
      seq := { Sequencer.initial false with pc := 1 }, cyc := 1 })).map (·.fault) =
      some (some ⟨.fetch 1, 1, 1⟩) := by decide

/-- F1: the peripheral's fault first; CUR and BUSY are kept, the peripheral's writes are not. -/
theorem test_step_priority :
    (after (step { ready Config.ref [0x11000000] with
      clk := { beforeLoad 0 with txfull := false, txt := none }, cyc := 20 })).map
      (fun t => (t.fault, t.seq.cur, t.seq.busy, t.clk.bcnt, t.cyc)) =
      some (some ⟨.underrun 20, 20, 0⟩, some .start, 1, 3, 20) := by decide

/-- K10 and K9: seven cycles are too late, eight are enough. -/
theorem test_setup :
    periph Config.ref 20 (beforeLoad 13) = .error (.setup 20 (some 13)) ∧
    (∃ v, periph Config.ref 21 (beforeLoad 13) = .ok v ∧ v.sd = true ∧ v.sr = 0x578 ∧ v.bitpos = 1) :=
  ⟨by rfl, _, rfl, by decide⟩

/-- R135's code numbers. -/
theorem test_codes : ModelFault.code (.illegal 0) = 1 ∧ ModelFault.code (.fetch 0) = 2 ∧
    ModelFault.code (.state .cfg) = 3 ∧ ModelFault.code (.txReject 0) = 4 ∧ ModelFault.code (.underrun 0) = 5 ∧
    ModelFault.code (.setup 0 none) = 6 ∧ ModelFault.code (.toneRange 0 0) = 7 := by decide

/-- A placed word is issued by the very next step. -/
theorem test_withFetchWord :
    (after (step (State.reset.withFetchWord 32 0x30000003))).map (fun t => (t.seq.lc, t.seq.pc)) = some (3, 1) := by
  decide

/-- P3's register reads: CONFIG, FRAMEP and PERIOD in REF. -/
theorem test_window :
    windowRegister State.reset 0x08 = 0x000000C4 ∧ windowRegister State.reset 0x18 = 0x000000C0 ∧
    windowRegister State.reset 0x1C = 0x00F42400 ∧ windowRegister State.reset 0x50 = 0x00000000 := by decide

/-- R1. -/
theorem test_identity : Config.ref.identity = "I2SGEN-v7-TOGGLE" := rfl

/-- P1, from its source text. -/
theorem test_assemble :
    assembleText "LDLC 3\nL: DLY8 5 ; body\n djnz L\nHALT".toList =
      .ok [0x30000003, 0x02000005, 0x31000001, 0x3F000000] := by rfl

/-- D7: plans at the boundaries 15, 16, 767, 768. -/
theorem test_plan : planDelay 15 = List.replicate 15 .nop ∧ planDelay 16 = [.dly8 5, .nop] ∧
    planDelay 767 = [.dly8 255, .nop, .nop] ∧ planDelay 768 = [.dly16 192] := by decide

/-! ### Witnesses: for every obligation with hypotheses, data that meets them all, clause by clause -/

theorem witness_EncodeOfDecode : decode 0x20FFFFFF = .command (.tone 65535 0xFF) := by decide

theorem witness_WordEncodesRowExactlyWhenItMatches :
    (∃ r ∈ opcodeMap, (0x020000FF : Word) &&& r.mask = r.matchWord) ∧
    ∀ r ∈ opcodeMap, r.opcode ≠ opcodeOf 0x40000000 := by decide

theorem witness_IllegalWordsAreExactlyThese :
    Boundary State.reset ∧ NoStall State.reset ∧ State.reset.seq.pc.toNat < State.reset.cfg.progWords ∧
    decode (State.reset.mem.readWord State.reset.seq.pc.toNat) = .illegal .unknownOpcode :=
  ⟨⟨rfl, rfl, rfl⟩, .inl rfl, by decide, by decide⟩

theorem witness_CfgConfiguresOnce :
    State.reset.clk.st = .unconfigured ∧ ({ State.reset with clk := heldUnit Config.ref } : State).clk.st ≠ .unconfigured := by
  decide

theorem witness_StartReleasesTheHold :
    ({ State.reset with clk := heldUnit Config.ref } : State).clk.st = .configured ∧ State.reset.clk.st ≠ .configured := by
  decide

/-- For TxiHandsOverItsOperand and TxsHandsOverSreg: an empty buffer, no configuration, a full buffer. -/
theorem witness_Transmit :
    ((heldUnit Config.ref).st ≠ .unconfigured ∧ (heldUnit Config.ref).txfull = false) ∧
    State.reset.clk.st = .unconfigured ∧
    ((beforeLoad 13).st ≠ .unconfigured ∧ (beforeLoad 13).txfull = true) := by decide

/-- FRAME_PERIOD·f one below P, and equal to P. -/
theorem witness_ToneCreatesTheWaveState :
    (2 ≤ 961 ∧ Config.framePeriod { Config.ref with fCpu := 961 } * (5 : Half).toNat < 961) ∧
    (2 ≤ 960 ∧ 960 ≤ Config.framePeriod { Config.ref with fCpu := 960 } * (5 : Half).toNat) := by decide

/-- For GetfReturnsTheCurrentSample and GetnAdvancesThePhase. -/
theorem witness_Samples : toned.tvalid = true ∧ State.reset.osc.tvalid = false := by decide

theorem witness_DjnzDecrementsAndBranches :
    ({ Sequencer.initial false with lc := 1 } : Sequencer).lc = 1 ∧ State.reset.seq.lc = 0 ∧
    ({ Sequencer.initial false with lc := 2 } : Sequencer).lc.toNat ≥ 2 := by decide

theorem witness_StepRunsTheDecodedCommand :
    (let s := ready Config.ref [0x01000000]
     Boundary s ∧ NoStall s ∧ s.seq.pc.toNat < s.cfg.progWords ∧
      decode (s.mem.readWord s.seq.pc.toNat) = .command .nop ∧ periph s.cfg s.cyc s.clk = .ok s.clk ∧
      cost s.cfg .nop = 1 ∧ ∃ t, exec .nop s = .next t) ∧
    (let s := ready Config.ref [0x10000000]
     Boundary s ∧ NoStall s ∧ s.seq.pc.toNat < s.cfg.progWords ∧
      decode (s.mem.readWord s.seq.pc.toNat) = .command .cfg ∧ periph s.cfg s.cyc s.clk = .ok s.clk ∧
      1 < cost s.cfg .cfg) :=
  ⟨⟨⟨rfl, rfl, rfl⟩, .inl rfl, by decide, by decide, rfl, rfl, _, rfl⟩,
    ⟨rfl, rfl, rfl⟩, .inl rfl, by decide, by decide, rfl, by decide⟩

theorem witness_StepInsideACommand :
    (let s := lastCycle .cfg
     s.fault = none ∧ s.seq.halted = false ∧ s.seq.cur = some .cfg ∧ periph s.cfg s.cyc s.clk = .ok s.clk ∧
      s.seq.busy = 1 ∧ ∃ t, exec .cfg s = .next t) ∧
    1 < ({ Sequencer.initial false with cur := some .cfg, busy := 2 } : Sequencer).busy :=
  ⟨⟨rfl, rfl, rfl, rfl, rfl, _, rfl⟩, by decide⟩

/-- NOP completes in its one cycle; GETF without a WaveState raises F_STATE in its fourth (O11). -/
theorem witness_CommandRunsForExactlyItsCost :
    (let s := ready Config.ref [0x01000000]
     Boundary s ∧ NoStall s ∧ fetchDecode s = .ok .nop ∧ 1 ≤ cost s.cfg .nop ∧
      periphRun s.cfg s.cyc (cost s.cfg .nop) s.clk = .ok s.clk ∧ ∃ t, exec .nop s = .next t) ∧
    (let s := ready Config.ref [0x21000000]
     Boundary s ∧ NoStall s ∧ fetchDecode s = .ok .getf ∧ 1 ≤ cost s.cfg .getf ∧
      periphRun s.cfg s.cyc (cost s.cfg .getf) s.clk = .ok s.clk ∧
      ∃ m, exec .getf { s with cyc := 3 } = .fault (.raised m)) :=
  ⟨⟨⟨rfl, rfl, rfl⟩, .inl rfl, by rfl, by decide, rfl, _, rfl⟩,
    ⟨rfl, rfl, rfl⟩, .inl rfl, by rfl, by decide, rfl, _, rfl⟩

theorem witness_StallRunsOnlyThePeripheral :
    (let s := State.initial Config.ref [] true
     Boundary s ∧ s.seq.i = true ∧ periph s.cfg s.cyc s.clk = .ok s.clk) ∧
    State.reset.seq.i = false ∧ (lastCycle .nop).seq.cur ≠ none :=
  ⟨⟨⟨rfl, rfl, rfl⟩, rfl, rfl⟩, rfl, by decide⟩

theorem witness_StepsExactlyUntilTheRunEnds :
    (recordFault (.fetch 0) State.reset).fault = some ⟨.fetch 0, 0, 0⟩ ∧
    (State.reset.fault = none ∧ ({ Sequencer.initial false with halted := true } : Sequencer).halted = true) ∧
    (State.reset.fault = none ∧ State.reset.seq.halted = false) := by decide

/-- A fetch at PROG_WORDS; an illegal word; an underrun in a stall, in an issue cycle, and inside a command; a command's
fault. -/
theorem witness_FaultsArePrecise :
    (let s := { State.reset with seq := { Sequencer.initial false with pc := 256 } }
     Boundary s ∧ NoStall s ∧ s.cfg.progWords ≤ s.seq.pc.toNat) ∧
    (Boundary State.reset ∧ NoStall State.reset ∧ fetchDecode State.reset = .error (.illegal 0)) ∧
    (let s := { State.initial Config.ref [] true with clk := { beforeLoad 0 with txfull := false }, cyc := 20 }
     Boundary s ∧ s.seq.i = true ∧ periph s.cfg s.cyc s.clk = .error (.underrun 20)) ∧
    (let s := { ready Config.ref [0x11000000] with clk := { beforeLoad 0 with txfull := false }, cyc := 20 }
     Boundary s ∧ NoStall s ∧ fetchDecode s = .ok .start ∧ periph s.cfg s.cyc s.clk = .error (.underrun 20)) ∧
    (let s := lastCycle .start
     s.fault = none ∧ s.seq.halted = false ∧ s.seq.cur = some .start ∧ s.seq.busy = 1 ∧
      periph s.cfg s.cyc s.clk = .ok s.clk ∧ exec .start s = .fault (.raised (.state .start))) ∧
    (let s := { lastCycle .start with clk := { beforeLoad 0 with txfull := false }, cyc := 20 }
     s.fault = none ∧ s.seq.halted = false ∧ s.seq.cur = some .start ∧
      periph s.cfg s.cyc s.clk = .error (.underrun 20)) :=
  ⟨⟨⟨rfl, rfl, rfl⟩, .inl rfl, by decide⟩, ⟨⟨rfl, rfl, rfl⟩, .inl rfl, by rfl⟩, ⟨⟨rfl, rfl, rfl⟩, rfl, by rfl⟩,
    ⟨⟨rfl, rfl, rfl⟩, .inl rfl, by rfl, by rfl⟩,
    ⟨rfl, rfl, rfl, rfl, rfl, rfl⟩, ⟨rfl, rfl, rfl, by rfl⟩⟩

/-- For CycAdvancesUnlessAFaultIsRecorded and ConfigurationAndCommandMemoryAreFixed: a step that records a fault, and one
that does not. -/
theorem witness_Step :
    (∃ t, step State.reset = .next t ∧ t.fault ≠ none) ∧
    (∃ t, step (ready Config.ref [0x01000000]) = .next t ∧ t.fault = none) :=
  ⟨⟨_, rfl, by decide⟩, ⟨_, rfl, by decide⟩⟩

/-- Each register changes in the last cycle of a command that writes it. -/
theorem witness_RegistersChangeOnlyByTheirCommands :
    (∃ t, step { lastCycle .getf with osc := toned } = .next t ∧ t.seq.sreg ≠ 0) ∧
    (∃ t, step (lastCycle (.ldlc 3)) = .next t ∧ t.seq.lc ≠ 0 ∧ t.seq.pc ≠ 0) ∧
    (∃ t, step (lastCycle (.tone 440 100)) = .next t ∧ t.osc ≠ Oscillator.initial) ∧
    (∃ t, step (lastCycle .cfg) = .next t ∧ t.clk.st ≠ .unconfigured ∧ t.clk.mode ≠ false ∧ t.clk.bocr ≠ 0 ∧
      t.clk.wocr ≠ 0) ∧
    (∃ t, step { lastCycle .start with clk := heldUnit Config.ref } = .next t ∧ t.clk.hold ≠ true ∧
      t.clk.release ≠ none) ∧
    (∃ t, step (lastCycle .halt) = .next t ∧ t.seq.halted ≠ false) :=
  ⟨⟨_, rfl, by decide⟩, ⟨_, rfl, by decide⟩, ⟨_, rfl, by decide⟩, ⟨_, rfl, by decide⟩, ⟨_, rfl, by decide⟩,
    ⟨_, rfl, by decide⟩⟩

/-- The transmit buffer is filled by TXI in a configured unit without a fault; TXFULL is cleared at the load point k = 8
while a NOP runs. -/
theorem witness_RegistersChangeOnlyByTheirCommands_buffer :
    (let s := { lastCycle (.txi 5) with clk := heldUnit Config.ref }
     s.clk.st ≠ .unconfigured ∧ s.clk.txfull = false ∧ ∃ t, step s = .next t ∧ t.fault = none ∧
      t.clk.txbuf ≠ s.clk.txbuf ∧ t.clk.txt ≠ s.clk.txt ∧ t.clk.txfull = true) ∧
    (let s := { lastCycle .nop with clk := beforeLoad 0, cyc := 20 }
     s.clk.txfull = true ∧ (∃ u, periph s.cfg s.cyc s.clk = .ok u) ∧
      ∃ t, step s = .next t ∧ t.fault = none ∧ t.clk.txfull = false) :=
  ⟨⟨by decide, rfl, _, rfl, by decide⟩, rfl, ⟨_, rfl⟩, _, rfl, by decide⟩

/-- I changes in the first cycle of CFG. With I = 1 an issue needs a draw of `false`, and no draw can be evaluated, so
the witness stands under that draw. -/
theorem witness_RegistersChangeOnlyByTheirCommands_I (h : Config.stallDraw 0 = false) :
    ∃ t, step { ready Config.ref [0x10000000] with seq := Sequencer.initial true } = .next t ∧ t.seq.i ≠ true :=
  ⟨_, step_issue ⟨rfl, rfl, rfl⟩ (.inr h) (i := .cfg) rfl, by decide⟩

/-- I = 1 and TVALID = 1 stay inside a NOP. -/
theorem witness_StatusMovesForwardOnly :
    ∃ t, step { lastCycle .nop with
      osc := toned, seq := { Sequencer.initial true with cur := some .nop, busy := 1 } } = .next t ∧
      t.seq.i = true ∧ t.osc.tvalid = true :=
  ⟨_, rfl, rfl, rfl⟩

/-- A configured state inside its invariants that takes a step. -/
def configured : State := { ready Config.ref [0x01000000] with clk := heldUnit Config.ref }

/-- A running state inside its invariants, k = 0. -/
def running : State := { ready Config.ref [0x01000000] with clk := releasedUnit Config.ref 0, cyc := 1 }

theorem unitInv_configured : UnitInv configured where
  config := by decide
  masked := by decide
  unconfigured := by decide
  configured := fun _ => ⟨0, false, none, rfl⟩
  running := fun h => absurd h (by decide)
  released := fun h => absurd h (by decide)
  interrupts := fun _ => rfl
  buffered := fun h => absurd h (by decide)

theorem witness_NothingMovesBeforeTheRelease :
    ClockUnit.initial.mode = false ∧ (heldUnit Config.ref).hold = true ∧
    UnitInv configured ∧ configured.clk.st = .configured ∧ ∃ t, step configured = .next t :=
  ⟨rfl, rfl, unitInv_configured, rfl, _, rfl⟩

theorem witness_OscillatorIgnoresTheClockUnit :
    (∃ t, exec .getn { State.reset with osc := toned } = .next t) ∧ (∃ m, exec .getn State.reset = .fault m) :=
  ⟨⟨_, rfl⟩, ⟨_, rfl⟩⟩

theorem witness_SequencerInvKept : SequencerInv running ∧ ∃ t, step running = .next t :=
  ⟨{ config := by decide, memory := by decide, idle := fun _ => rfl
     busy := fun _ h => absurd h (by simp [running, ready, State.initial, Sequencer.initial])
     word := fun _ h => absurd h (by simp [running, ready, State.initial, Sequencer.initial])
     masked := by decide, halted := by decide
     record := fun _ h => absurd h (by simp [running, ready, State.initial]) }, _, rfl⟩

/-- The closed form at the release of REF. -/
theorem signalAt_released : SignalAt Config.ref 0 (releasedUnit Config.ref 0) := by
  constructor <;> decide

theorem unitInv_running : UnitInv running where
  config := by decide
  masked := by decide
  unconfigured := by decide
  configured := fun h => absurd h (by decide)
  running := fun _ => by constructor <;> decide
  released := fun _ => ⟨0, rfl, by decide⟩
  interrupts := fun _ => rfl
  buffered := fun h => absurd h (by decide)

theorem witness_UnitInvKept : UnitInv running ∧ ∃ t, step running = .next t := ⟨unitInv_running, _, rfl⟩

theorem witness_SignalInvKept : SignalInv running ∧ ∃ t, step running = .next t :=
  ⟨⟨unitInv_running, fun _ _ => ⟨0, 0, rfl, rfl, signalAt_released⟩⟩, _, rfl⟩

theorem witness_OscillatorInvKept :
    OscillatorInv { lastCycle .getn with osc := toned } ∧ ∃ t, step { lastCycle .getn with osc := toned } = .next t :=
  ⟨{ config := by decide, unset := by decide, increment := by decide, elapsed := by decide, current := by decide },
    _, rfl⟩

/-- For LaunchEstablishesTheInvariants, LaunchPutsTheResetValues and LoadedImageIsWhatIsFetched: a program with
I_LAUNCH = 1, and no program. -/
theorem witness_Launch :
    (∃ s, launchWords Config.ref [0x3F000000] (some true) = .next s) ∧ ∃ s, launchWords Config.ref [] none = .next s :=
  ⟨⟨_, rfl⟩, ⟨_, rfl⟩⟩

/-- The closed form one cycle before REF's load point of slot 0, by K11. -/
theorem signalAt_beforeLoad (x : Nat) : SignalAt Config.ref 7 (beforeLoad x) := by
  constructor <;> rfl

theorem witness_PeripheralStepKeepsTheSignalForm :
    Config.ref.WellFormed = true ∧ SignalAt Config.ref 7 (beforeLoad 0) ∧
    ∃ v, periph Config.ref 20 (beforeLoad 0) = .ok v :=
  ⟨by decide, signalAt_beforeLoad 0, _, rfl⟩

/-- The same in the USART variant, in the last dead cycle (K16: EPOCH = 2). -/
theorem witness_PeripheralStepInTheDeadTime :
    (let c := { Config.ref with variant := .usart, startLatency := 6 }
     let u := { releasedUnit c 12 with dead := 1, wcnt := 255 }
     c.WellFormed = true ∧ SignalAt c 1 u ∧ ∃ v, periph c 14 u = .ok v) :=
  ⟨by decide, by constructor <;> decide, _, rfl⟩

/-- SD changes at k = 8 (K6); WS changes at k = 96 (K15). -/
theorem witness_LinesChangeOnlyAtBitBoundaries :
    (∃ v, periph Config.ref 20 (beforeLoad 0) = .ok v ∧ v.sd ≠ (beforeLoad 0).sd) ∧
    (let u := { beforeLoad 0 with wcnt := 95, bitpos := 11 }
     SignalAt Config.ref 95 u ∧ ∃ v, periph Config.ref 108 u = .ok v ∧ v.ws ≠ u.ws) :=
  ⟨⟨_, rfl, by decide⟩, by constructor <;> rfl, _, rfl, by decide⟩

/-- A load point at k = 8, none at k = 1. -/
theorem witness_LoadPointsFallOnTheCadence :
    (atLoadPoint Config.ref (beforeLoad 0) ∧ 7 + 1 = Config.ref.epoch + 2 * Config.ref.h * (0 * Config.ref.w + 1)) ∧
    (SignalAt Config.ref 0 (releasedUnit Config.ref 0) ∧ ¬ atLoadPoint Config.ref (releasedUnit Config.ref 0)) :=
  ⟨⟨⟨rfl, rfl, rfl, rfl⟩, rfl⟩, signalAt_released, fun h => absurd h.2.2.1 (by decide)⟩

/-- No word; a word 7 cycles old; a word 8 cycles old. -/
theorem witness_LoadPointTakesTheWordOrFaults :
    Config.ref.WellFormed = true ∧ atLoadPoint Config.ref (beforeLoad 13) ∧
    atLoadPoint Config.ref { beforeLoad 13 with txfull := false } ∧
    ((beforeLoad 13).txfull = true ∧ (beforeLoad 13).txt = some 13 ∧ 20 < 13 + 2 * Config.ref.h) ∧
    13 + 2 * Config.ref.h ≤ 21 :=
  ⟨by decide, ⟨rfl, rfl, rfl, rfl⟩, ⟨rfl, rfl, rfl, rfl⟩, ⟨rfl, rfl, by decide⟩, by decide⟩

/-- The first and the last cycle of a slot. -/
theorem witness_SlotCarriesItsWordMsbFirst :
    Config.ref.WellFormed = true ∧ SignalAt Config.ref 7 (beforeLoad 12) ∧ atLoadPoint Config.ref (beforeLoad 12) ∧
    (beforeLoad 12).txfull = true ∧ (beforeLoad 12).txt = some 12 ∧ 12 + 2 * Config.ref.h ≤ 20 ∧
    0 < Config.ref.samplePeriod ∧ 95 < Config.ref.samplePeriod :=
  ⟨by decide, signalAt_beforeLoad 12, ⟨rfl, rfl, rfl, rfl⟩, rfl, rfl, by decide, by decide, by decide⟩

/-- The last cycle before the load of slot 0 in REF, k = 7. -/
theorem witness_SdIsLowBeforeTheFirstLoad :
    Config.ref.WellFormed = true ∧ ConfiguredForm Config.ref (heldUnit Config.ref) ∧ 7 < Config.ref.loadCycle 0 ∧
    ∃ v, periphRun Config.ref 13 7 (releaseUnit 12 (heldUnit Config.ref)) = .ok v :=
  ⟨by decide, ⟨0, false, none, rfl⟩, by decide, _, rfl⟩

/-- For slot 0 of REF (load point k = 8, release at 12), seen from k = 0: a transmit before START, one at k = 0, which is
the last in time, and one at k = 1, which is too late. For slot 1, seen from the load point of slot 0: k = 96 is the last
in time. -/
theorem witness_TransmitWindowEndsOneBitBeforeTheLoad :
    Config.ref.WellFormed = true ∧
    (∀ x, let u := { releasedUnit Config.ref 12 with txfull := true, txt := some x }
      SignalAt Config.ref 0 u ∧ u.txfull = true ∧ u.txt = some x) ∧
    0 < Config.ref.loadCycle 0 ∧ (∀ q, q < 0 → Config.ref.loadCycle q ≤ 0) ∧
    (11 + 2 * Config.ref.h ≤ 12 + Config.ref.loadCycle 0 ∧ 12 + 2 * Config.ref.h ≤ 12 + Config.ref.loadCycle 0 ∧
      ¬ 13 + 2 * Config.ref.h ≤ 12 + Config.ref.loadCycle 0) ∧
    (8 < Config.ref.loadCycle 1 ∧ (∀ q, q < 1 → Config.ref.loadCycle q ≤ 8) ∧
      108 + 2 * Config.ref.h ≤ 12 + Config.ref.loadCycle 1 ∧ ¬ 109 + 2 * Config.ref.h ≤ 12 + Config.ref.loadCycle 1) :=
  ⟨by decide, fun _ => ⟨by constructor <;> rfl, rfl, rfl⟩, by decide, fun _ h => absurd h (by omega), by decide,
    by decide, by decide, by decide, by decide⟩

/-- A word handed over in the cycle before START, which primes slot 0. -/
theorem witness_TransmitWindowEndsOneBitBeforeTheLoad_primed :
    (let u := { heldUnit Config.ref with txbuf := 0x0ABC, txfull := true, txt := some 11 }
     ConfiguredForm Config.ref u ∧ u.txfull = true ∧ u.txt = some 11 ∧ 11 < 12) :=
  ⟨⟨0x0ABC, true, some 11, rfl⟩, rfl, rfl, by decide⟩

/-- The last value of the first half, and the first of the second. -/
theorem witness_OutputIsTheAmplitudeInTheFirstHalf :
    (7999999 : Word).toNat < Config.ref.fCpu / 2 ∧
    (Config.ref.fCpu / 2 ≤ (8000000 : Word).toNat ∧ Config.ref.waveNeg = .negate) ∧
    Config.waveNeg { Config.ref with waveNeg := .zero } = .zero := by decide

/-- O7: the sum reaches P exactly. -/
theorem witness_AdvanceWrapsOnceAtThePeriod :
    Config.WellFormed { Config.ref with fCpu := 1920 } = true ∧ (960 : Word).toNat < 1920 ∧
    (waveAdvance { Config.ref with fCpu := 1920 } 960 960).toNat = 0 := by decide

theorem witness_NthSampleFollowsThePhase :
    Config.ref.WellFormed = true ∧ Config.ref.framePeriod * (65535 : Half).toNat < Config.ref.fCpu := by decide

/-- Both loops occur within the range. -/
theorem witness_DelayPlanCostsExactlyN :
    .dly8 5 ∈ planDelay 16 ∧ .dly8 255 ∈ planDelay 767 ∧ .dly16 192 ∈ planDelay 768 ∧
    .dly16 65535 ∈ planDelay 262143 ∧ 262143 ≤ 262143 := by decide

theorem witness_UnrollYieldsNNops : 5 < 2 ^ 3 := by decide

/-- DELAY 16 from reset. -/
theorem witness_DelayRunsForExactlyN :
    (let s := ready Config.ref [0x02000005, 0x01000000]
     16 ≤ 262143 ∧ Boundary s ∧ s.seq.busy = 0 ∧ s.seq.i = false ∧ s.cfg.progWords ≤ 65536 ∧
      Loaded s s.seq.pc.toNat (planDelay 16) ∧ periphRun s.cfg s.cyc 16 s.clk = .ok s.clk) := by
  refine ⟨by decide, ⟨rfl, rfl, rfl⟩, rfl, rfl, by decide, ?_, periphRun_held _ _ (.inl rfl) _ _⟩
  intro j i h
  match j, h with
  | 0, h => cases h; exact ⟨by decide, by decide⟩
  | 1, h => cases h; exact ⟨by decide, by decide⟩
  | _ + 2, h => cases h

/-- The words of a loop of one NOP closed by DJNZ 0 (R131). -/
theorem loaded_loop (q : Sequencer) :
    Loaded { ready Config.ref [0x01000000, 0x31000000] with seq := q } 0 ([.nop] ++ [.djnz 0]) := by
  have h0 : (Memory.loadWords [] 0 [0x01000000, 0x31000000]).readWord 0 = encode .nop := by decide
  have h1 : (Memory.loadWords [] 0 [0x01000000, 0x31000000]).readWord 1 = encode (.djnz 0) := by decide
  intro j i h
  match j, h with
  | 0, h => cases h; exact ⟨by show 0 < 256; decide, h0⟩
  | 1, h => cases h; exact ⟨by show 1 < 256; decide, h1⟩
  | _ + 2, h => cases h

/-- For every LC, so for LC = 1 and for LC = 0, which runs 65536 times. -/
theorem witness_LoopTakesLcTimesItsCost (lc : Half) :
    (let s := { ready Config.ref [0x01000000, 0x31000000] with seq := { Sequencer.initial false with lc := lc } }
     Boundary s ∧ s.seq.busy = 0 ∧ s.seq.i = false ∧ s.cfg.WellFormed = true ∧ (∀ i ∈ [Instr.nop], isDelay i) ∧
      Loaded s s.seq.pc.toNat ([.nop] ++ [.djnz s.seq.pc]) ∧
      ∀ T, periphRun s.cfg s.cyc T s.clk = .ok s.clk) :=
  ⟨⟨rfl, rfl, rfl⟩, rfl, rfl, by show Config.ref.WellFormed = true; decide,
    fun i hi => .inl (by rw [List.mem_singleton.mp hi]; rfl), loaded_loop _, fun _ => periphRun_held _ _ (.inl rfl) _ _⟩

/-- The smallest and the largest frame of R8; both variants; and K16's USART unit at its last idle cycle and at its first
edge, k = START_LATENCY = 6. -/
theorem witness_DerivedConstantsAndRanges :
    (Config.WellFormed { Config.ref with h := 1, w := 1 } = true ∧ Config.framePeriod { Config.ref with h := 1, w := 1 } = 4) ∧
    (Config.WellFormed { Config.ref with h := 8, w := 16 } = true ∧
      Config.framePeriod { Config.ref with h := 8, w := 16 } = 512) ∧
    Config.ref.variant = .toggle ∧
    (let c := { Config.ref with variant := .usart, startLatency := 6 }
     c.WellFormed = true ∧ c.variant = .usart ∧ ConfiguredForm c (heldUnit c) ∧ 5 ≤ c.epoch + c.h ∧ 6 ≤ c.epoch + c.h) :=
  ⟨by decide, by decide, rfl, by decide, rfl, ⟨0, false, none, rfl⟩, by decide, by decide⟩

/-- R9, R103: in the USART variant the first BCLK edge falls START_LATENCY cycles after the release. -/
theorem test_first_edge :
    (let c := { Config.ref with variant := .usart, startLatency := 6 }
     (∃ v, periphRun c 13 5 (releasedUnit c 12) = .ok v ∧ v.bclk = false) ∧
      ∃ v, periphRun c 13 6 (releasedUnit c 12) = .ok v ∧ v.bclk = true) :=
  ⟨⟨_, rfl, rfl⟩, _, rfl, rfl⟩

/-- An illegal record; an image of PROG_WORDS words; one word more. -/
theorem witness_OnlyLegalConfigurationsLaunch :
    Config.WellFormed { Config.ref with h := 9 } = false ∧
    (Config.WellFormed { Config.ref with progWords := 1 } = true ∧ [0x3F000000].length ≤ 1) ∧
    1 < [(0x3F000000 : Word), 0].length := by decide

theorem witness_ByteImageIsLittleEndian :
    wordsOfImage [0xFA, 0x00, 0x00, 0x03] = some [0x030000FA] ∧ [(0xFA : Byte), 0, 0, 3, 1].length % 4 ≠ 0 := by decide

/-- The first and the last register of the window; a half-word, an address below, one above, one misaligned. -/
theorem witness_HostReadsOnlyAlignedWindowWords :
    ((0 < 256 ∧ 0 % 4 = 0) ∧ 252 < 256 ∧ 252 % 4 = 0) ∧ (2 ≠ 4) ∧ 255 < 256 ∧ 256 + 256 ≤ 512 ∧ (257 - 256) % 4 ≠ 0 := by
  decide

/-- A state in each STATE, and the first reserved offset. -/
theorem witness_WindowShowsTheFieldsItNames :
    (State.reset.cfg.WellFormed = true ∧ State.reset.clk.st = .unconfigured) ∧
    (configured.cfg.WellFormed = true ∧ configured.clk.st = .configured) ∧
    (running.cfg.WellFormed = true ∧ running.clk.st = .running) ∧ 0x50 ≤ 0x50 := by decide

/-- A program that assembles; an ill-formed statement; a well-formed statement of numbers; and the ends of R80's
ranges. -/
theorem witness_AssemblerEmitsOnlyLegalWords :
    (∃ words, assemble [⟨none, some ⟨.command .halt, []⟩⟩] = .ok words ∧ words = [0x3F000000]) ∧
    Statement.WellFormed ⟨.command .dly8, [.num 256]⟩ = false ∧
    [Statement.mk (.command .tone) [.num 0, .num (-128)], ⟨.command .tone, [.num 65535, .num 127]⟩,
      ⟨.command .dly8, [.num 0]⟩, ⟨.command .dly8, [.num 255]⟩, ⟨.command .dly16, [.num 0]⟩,
      ⟨.command .dly16, [.num 65535]⟩, ⟨.command .txi, [.num (-32768)]⟩, ⟨.command .txi, [.num 65535]⟩,
      ⟨.command .ldlc, [.num 0]⟩, ⟨.command .ldlc, [.num 65535]⟩, ⟨.command .djnz, [.num 0]⟩,
      ⟨.command .jmp, [.num 65535]⟩, ⟨.delay, [.num 0]⟩, ⟨.delay, [.num 262143]⟩].all (·.WellFormed) = true :=
  ⟨⟨_, rfl, by decide⟩, by decide, by decide⟩

/-- E1's words of TXI and TONE with a negative operand, and the DELAY words at R87's boundaries 15, 16, 767, 768 (D7). -/
theorem test_statement_words :
    statementWords [] ⟨.command .txi, [.num (-100)]⟩ = .ok [0x1200FF9C] ∧
    statementWords [] ⟨.command .tone, [.num 40000, .num (-5)]⟩ = .ok [0x209C40FB] ∧
    statementWords [] ⟨.delay, [.num 15]⟩ = .ok (List.replicate 15 0x01000000) ∧
    statementWords [] ⟨.delay, [.num 16]⟩ = .ok [0x02000005, 0x01000000] ∧
    statementWords [] ⟨.delay, [.num 767]⟩ = .ok [0x020000FF, 0x01000000, 0x01000000] ∧
    statementWords [] ⟨.delay, [.num 768]⟩ = .ok [0x030000C0] := ⟨rfl, rfl, rfl, rfl, rfl, rfl⟩

/-- P1's lines, with a label at word 1, and a JMP to it: both branches have the label's index in their words. -/
theorem witness_LabelBecomesTheIndexOfItsStatement :
    (let label := ['L']
     let before := [Line.mk none (some ⟨.command .ldlc, [.num 3]⟩)]
     let line := Line.mk (some label) (some ⟨.command .dly8, [.num 5]⟩)
     let djnz := Line.mk none (some ⟨.command .djnz, [.label label]⟩)
     let jmp := Line.mk none (some ⟨.command .jmp, [.label label]⟩)
     assemble (before ++ line :: [djnz, jmp]) = .ok [0x30000003, 0x02000005, 0x31000001, 0x32000001] ∧
      line.label = some label ∧ before ++ line :: [djnz, jmp] = (before ++ [line]) ++ djnz :: [jmp] ∧
      before ++ line :: [djnz, jmp] = (before ++ [line, djnz]) ++ jmp :: []) := ⟨rfl, rfl, rfl, rfl⟩

/-- Labels that differ in case are two labels (log 13). -/
theorem test_label_case :
    assembleText "l: NOP\nL: JMP l".toList = .ok [0x01000000, 0x32000000] ∧
    assembleText "L: NOP\nL: JMP L".toList = .error .duplicateLabel ∧
    assembleText "L: JMP l".toList = .error .unknownLabel := ⟨by rfl, by rfl, by rfl⟩

end Sys2Proof.Tests
end

/-! The launch checks (R6, R7): what `WellFormed` and `firstFailure` say of the named checks, and what a launch answers. -/

namespace Sys2Proof.Config

/-- A record is legal exactly when it passes every named check (R7). -/
theorem wellFormed_iff_passes {c : Config} : c.WellFormed = true ↔ ∀ k, c.passes k = true := by
  constructor
  · intro h k
    refine List.all_eq_true.mp h k ?_
    cases k <;> decide
  · exact fun h => List.all_eq_true.mpr fun k _ => h k

/-- No check fails exactly when the record is legal. -/
theorem firstFailure_eq_none_iff {c : Config} : c.firstFailure = none ↔ c.WellFormed = true := by
  simp [firstFailure, WellFormed, List.find?_eq_none]

/-- The check a launch is refused under is one the record fails. -/
theorem passes_of_firstFailure {c : Config} {k : ConfigCheck} (h : c.firstFailure = some k) : c.passes k = false := by
  simpa using List.find?_some h

theorem passes_h_iff {c : Config} : c.passes .h = true ↔ 1 ≤ c.h ∧ c.h ≤ 8 := by
  simp [passes, checkH]

theorem passes_w_iff {c : Config} : c.passes .w = true ↔ 1 ≤ c.w ∧ c.w ≤ 16 := by
  simp [passes, checkW]

theorem passes_p_iff {c : Config} : c.passes .p = true ↔ 2 ≤ c.fCpu ∧ c.fCpu ≤ 2 ^ 31 := by
  simp [passes, checkP]

theorem passes_lat_iff {c : Config} : c.passes .lat = true ↔ (c.variant = .usart → c.h ≤ c.startLatency) := by
  cases hv : c.variant <;> simp [passes, checkLat, hv]

theorem passes_fit_iff {c : Config} : c.passes .fit = true ↔ c.epoch + c.samplePeriod ≤ 256 := by
  simp [passes, checkFit]

theorem passes_mem_iff {c : Config} : c.passes .mem = true ↔ 1 ≤ c.progWords ∧ c.progWords ≤ 65536 := by
  simp [passes, checkMem]

theorem passes_cost_iff {c : Config} : c.passes .cost = true ↔
    ∀ cost ∈ [c.cCfg, c.cStart, c.cTx, c.cTone, c.cGetf, c.cGetn, c.cLdlc, c.cDjnz, c.cJmp, c.cHalt], 1 ≤ cost := by
  simp [passes, checkCost, and_assoc]

theorem passes_base_iff {c : Config} : c.passes .base = true ↔ ∃ m, c.mmioBase = 256 * m := by
  simp [passes, checkBase, ← Nat.dvd_iff_mod_eq_zero, Dvd.dvd]

theorem passes_toggleLat_iff {c : Config} :
    c.passes .toggleLat = true ↔ (c.variant = .toggle → c.startLatency = 0) := by
  cases hv : c.variant <;> simp [passes, checkToggleLat, hv]

end Sys2Proof.Config

namespace Sys2Proof.Machine

/-- The launch of an illegal record is refused under the first check it fails (R138). -/
theorem launchWords_of_firstFailure {c : Config} {k : ConfigCheck} (h : c.firstFailure = some k) (words : List Word)
    (i : Option Bool) : launchWords c words i = .refused (.configuration k) := by
  simp [launchWords, h]

/-- The launch of a legal record is decided by the length of the image alone (R148). -/
theorem launchWords_of_wellFormed {c : Config} (h : c.WellFormed = true) (words : List Word) (i : Option Bool) :
    launchWords c words i = if c.progWords < words.length then .refused .imageTooLong
      else .next (State.initial c (Memory.loadWords [] 0 words) (i.getD false)) := by
  simp [launchWords, Config.firstFailure_eq_none_iff.mpr h]

/-- An illegal record is refused under the name of a check it fails, whatever the image (R7, R138). -/
theorem launchWords_of_not_wellFormed {c : Config} (h : c.WellFormed = false) (words : List Word) (i : Option Bool) :
    ∃ k, launchWords c words i = .refused (.configuration k) ∧ c.passes k = false := by
  cases hk : c.firstFailure with
  | none => rw [Config.firstFailure_eq_none_iff.mp hk] at h; cases h
  | some k => exact ⟨k, launchWords_of_firstFailure hk words i, Config.passes_of_firstFailure hk⟩

/-- Settles O53: a launch asks `firstFailure` first and the image's length second, and each named check is its
inequality. -/
theorem onlyLegalConfigurationsLaunch : Obligations.OnlyLegalConfigurationsLaunch := by
  intro c words i
  refine ⟨fun h => launchWords_of_not_wellFormed h words i, fun h hl => ?fits, fun h hl => ?tooLong,
    Config.wellFormed_iff_passes, Config.passes_h_iff, Config.passes_w_iff, Config.passes_p_iff, Config.passes_lat_iff,
    Config.passes_fit_iff, Config.passes_mem_iff, Config.passes_cost_iff, Config.passes_base_iff,
    Config.passes_toggleLat_iff⟩
  case fits => exact ⟨_, by rw [launchWords_of_wellFormed h, if_neg (by omega)]⟩
  case tooLong => rw [launchWords_of_wellFormed h, if_pos hl]

end Sys2Proof.Machine

/-! The ranges of the derived constants (R8, R9). -/

namespace Sys2Proof.Config

theorem two_le_samplePeriod {c : Config} (h : c.Legal) : 2 ≤ c.samplePeriod := by
  have h1 : 2 ≤ c.bitPeriod := by have := h.h; unfold bitPeriod; omega
  calc 2 = 2 * 1 := rfl
    _ ≤ c.bitPeriod * c.w := Nat.mul_le_mul h1 h.w.1

theorem epoch_of_toggle {c : Config} (hv : c.variant = .toggle) : c.epoch = 0 := by
  simp [epoch, hv]

/-- In the USART variant START_LATENCY is EPOCH and the half bit to the first edge (R9). -/
theorem epoch_add_h_of_usart {c : Config} (h : c.Legal) (hv : c.variant = .usart) : c.epoch + c.h = c.startLatency := by
  have := h.lat hv
  simp only [epoch, hv]; omega

end Sys2Proof.Config

/-! The released unit in closed form (R97 to R105): START puts it at k = 0, and every peripheral step without a fault takes
it from k to k + 1. Both counting units compare with a period minus one, which is a question of divisibility. -/

namespace Sys2Proof.Machine

/-- A counter stands at its compare value exactly when the next count is a multiple of the period. -/
theorem mod_eq_pred_iff_dvd_succ {m p : Nat} (hp : 0 < p) : m % p = p - 1 ↔ p ∣ m + 1 := by
  obtain ⟨q, rfl⟩ : ∃ q, p = q + 1 := ⟨p - 1, by omega⟩
  rw [Nat.dvd_iff_mod_eq_zero, Nat.succ_mod_succ_eq_zero_iff]; simp

/-- Off its compare value a counter counts up by one. -/
theorem succ_mod_of_not_dvd {m p : Nat} (h : ¬ p ∣ m + 1) : (m + 1) % p = m % p + 1 := by
  have h1 := Nat.div_add_mod m p
  have h2 := Nat.div_add_mod (m + 1) p
  rw [Nat.succ_div_of_not_dvd h] at h2; omega

theorem odd_succ (n : Nat) : odd (n + 1) = !odd n := by
  rcases Nat.mod_two_eq_zero_or_one n with h | h <;> simp [odd, h, Nat.add_mod]

@[simp] theorem odd_zero : odd 0 = false := rfl

section
variable {c : Config} {k t : Nat} {u v : ClockUnit}

/-- START puts a configured unit at k = 0 of the closed form (R93, R103). -/
theorem signalAt_release (hc : c.Legal) (hu : ConfiguredForm c u) (r : Nat) : SignalAt c 0 (releaseUnit r u) := by
  obtain ⟨b, f, x, rfl⟩ := hu
  have hh := hc.h
  have hfit := hc.fit
  have hS := Config.samplePeriod_pos hc
  refine ⟨rfl, rfl, ?bocr, ?wocr, ?dead, ?bcnt, ?bclk, ?wcnt, ?ws, ?bitpos⟩ <;>
    simp only [releaseUnit, configureUnit, BitVec.toNat_ofNat]
  case bocr => exact Nat.mod_eq_of_lt (by omega)
  case wocr => exact Nat.mod_eq_of_lt (by omega)
  case dead => exact Nat.mod_eq_of_lt (by omega)
  case bcnt => simp
  case bclk => simp
  case wcnt => split_ifs <;> simp <;> omega
  case ws => simp
  case bitpos => simp

/-- In the dead time the BCLK unit counts DEAD down and nothing else (R98). -/
theorem bclkUnit_of_lt_epoch (h : SignalAt c k u) (hk : k < c.epoch) :
    bclkUnit c u = ({ u with dead := u.dead - 1 }, false) := by
  have := h.dead
  rw [bclkUnit, if_pos (by omega)]

/-- At the end of a half bit BCLK toggles; the cycle is a bit boundary after an odd number of half bits (R98, R100). -/
theorem bclkUnit_of_dvd (hc : c.Legal) (h : SignalAt c k u) (hk : c.epoch ≤ k) (hd : c.h ∣ k - c.epoch + 1) :
    bclkUnit c u = ({ u with bcnt := 0, bclk := !u.bclk }, odd ((k - c.epoch) / c.h)) := by
  have hdead := h.dead
  have hcnt : u.bcnt = u.bocr := by
    rw [← BitVec.toNat_inj, h.bcnt, h.bocr, mod_eq_pred_iff_dvd_succ (by have := hc.h; omega)]; exact hd
  have hedge : ((!u.bclk) == c.bclkIdle) = odd ((k - c.epoch) / c.h) := by
    rw [h.bclk]; cases c.bclkIdle <;> cases odd ((k - c.epoch) / c.h) <;> rfl
  rw [bclkUnit, if_neg (by omega), if_pos hcnt, hedge]

/-- Inside a half bit the BCLK unit counts (R98). -/
theorem bclkUnit_of_not_dvd (hc : c.Legal) (h : SignalAt c k u) (hk : c.epoch ≤ k) (hd : ¬ c.h ∣ k - c.epoch + 1) :
    bclkUnit c u = ({ u with bcnt := u.bcnt + 1 }, false) := by
  have hdead := h.dead
  have hcnt : ¬ u.bcnt = u.bocr := by
    rw [← BitVec.toNat_inj, h.bcnt, h.bocr, mod_eq_pred_iff_dvd_succ (by have := hc.h; omega)]; exact hd
  rw [bclkUnit, if_neg (by omega), if_neg hcnt]

/-- The bit boundaries are the multiples of BIT_PERIOD after EPOCH (R100, R105). -/
theorem bclkUnit_boundary_iff (hc : c.Legal) (h : SignalAt c k u) :
    (bclkUnit c u).2 = true ↔ c.epoch ≤ k ∧ 2 * c.h ∣ k - c.epoch + 1 := by
  have hh : 0 < c.h := by have := hc.h; omega
  rcases Nat.lt_or_ge k c.epoch with hk | hk
  · simp [bclkUnit_of_lt_epoch h hk, Nat.not_le.mpr hk]
  · by_cases hd : c.h ∣ k - c.epoch + 1
    · rw [bclkUnit_of_dvd hc h hk hd]
      have hq := Nat.succ_div_of_dvd hd
      obtain ⟨q, hm⟩ := hd
      rw [hm, Nat.mul_div_cancel_left q hh] at hq
      rw [hm, Nat.mul_comm 2, Nat.mul_dvd_mul_iff_left hh]
      simp only [odd, beq_iff_eq]; omega
    · have : ¬ 2 * c.h ∣ k - c.epoch + 1 := fun h2 => hd (dvd_of_mul_left_dvd h2)
      simp [bclkUnit_of_not_dvd hc h hk hd, this]

/-- The BCLK side of one cycle in closed form (R98, R103). -/
theorem clocked_bclk (hc : c.Legal) (h : SignalAt c k u) :
    (clocked c u).dead.toNat = c.epoch - (k + 1) ∧ (clocked c u).bcnt.toNat = (k + 1 - c.epoch) % c.h ∧
      (clocked c u).bclk = xor c.bclkIdle (odd ((k + 1 - c.epoch) / c.h)) := by
  have hh := hc.h
  have hdead := h.dead
  have hbcnt := h.bcnt
  have hbclk := h.bclk
  obtain ⟨w1, w2, w3⟩ := wsUnit_bclk (bclkUnit c u).1
  rw [clocked, w1, w2, w3]
  rcases Nat.lt_or_ge k c.epoch with hk | hk
  · rw [bclkUnit_of_lt_epoch h hk]
    rw [Nat.sub_eq_zero_of_le hk.le] at hbcnt hbclk
    rw [Nat.sub_eq_zero_of_le (show k + 1 ≤ c.epoch from hk)]
    exact ⟨by dsimp only; bv_omega, hbcnt, hbclk⟩
  · have hd0 : u.dead.toNat = c.epoch - (k + 1) := by omega
    rw [Nat.succ_sub hk]
    by_cases hd : c.h ∣ k - c.epoch + 1
    · rw [bclkUnit_of_dvd hc h hk hd]
      refine ⟨hd0, (Nat.mod_eq_zero_of_dvd hd).symm, ?_⟩
      rw [Nat.succ_div_of_dvd hd, odd_succ]
      simp [hbclk]
    · rw [bclkUnit_of_not_dvd hc h hk hd]
      refine ⟨hd0, ?_, ?_⟩
      · have := Nat.mod_lt (k - c.epoch) hh.1
        rw [succ_mod_of_not_dvd hd]
        dsimp only; bv_omega
      · rw [Nat.succ_div_of_not_dvd hd]; exact hbclk

/-- What one cycle does to the WS side, whatever the BCLK side does (R99). -/
theorem clocked_wsSide (c : Config) (u : ClockUnit) :
    (clocked c u).wcnt = (if u.wcnt = u.wocr then 0 else u.wcnt + 1) ∧
      (clocked c u).ws = if u.wcnt = u.wocr then !u.ws else u.ws := by
  obtain ⟨h1, h2⟩ := bclkUnit_ws c u
  have h3 := (bclkUnit_sameUnit c u).wocr
  rw [clocked, wsUnit, h1, h2, h3]
  split_ifs <;> exact ⟨rfl, rfl⟩

/-- The WS side of one cycle in closed form (R99, R104). WCNT starts 256 − EPOCH below its wrap, past WOCR by check FIT, so
that it reaches 0 at EPOCH. -/
theorem clocked_ws (hc : c.Legal) (h : SignalAt c k u) :
    (clocked c u).wcnt.toNat =
        (if k + 1 < c.epoch then 256 - c.epoch + (k + 1) else (k + 1 - c.epoch) % c.samplePeriod) ∧
      (clocked c u).ws = odd ((k + 1 - c.epoch) / c.samplePeriod) := by
  have hfit := hc.fit
  have hS := Config.samplePeriod_pos hc
  have hwcnt := h.wcnt
  have hwocr := h.wocr
  have hws := h.ws
  obtain ⟨w1, w2⟩ := clocked_wsSide c u
  rw [w1, w2]
  rcases Nat.lt_or_ge k c.epoch with hk | hk
  · rw [if_pos hk] at hwcnt
    rw [Nat.sub_eq_zero_of_le hk.le] at hws
    have hne : ¬ u.wcnt = u.wocr := by rw [← BitVec.toNat_inj]; omega
    rw [if_neg hne, if_neg hne, Nat.sub_eq_zero_of_le (show k + 1 ≤ c.epoch from hk)]
    refine ⟨?_, hws⟩
    split_ifs <;> simp <;> omega
  · rw [if_neg (by omega)] at hwcnt
    rw [if_neg (show ¬ k + 1 < c.epoch by omega), Nat.succ_sub hk]
    have hiff : u.wcnt = u.wocr ↔ c.samplePeriod ∣ k - c.epoch + 1 := by
      rw [← BitVec.toNat_inj, hwcnt, hwocr, mod_eq_pred_iff_dvd_succ hS]
    by_cases hd : c.samplePeriod ∣ k - c.epoch + 1
    · rw [if_pos (hiff.mpr hd), if_pos (hiff.mpr hd), Nat.succ_div_of_dvd hd, odd_succ, hws]
      exact ⟨(Nat.mod_eq_zero_of_dvd hd).symm, rfl⟩
    · have := Nat.mod_lt (k - c.epoch) hS
      rw [if_neg (mt hiff.mp hd), if_neg (mt hiff.mp hd), Nat.succ_div_of_not_dvd hd, succ_mod_of_not_dvd hd]
      have hlt : u.wcnt.toNat + 1 < 256 := by
        have := mt (mod_eq_pred_iff_dvd_succ hS).mp hd
        omega
      exact ⟨by rw [← hwcnt]; simp [BitVec.toNat_add]; omega, hws⟩

/-- BITPOS in closed form advances at the bit boundaries and nowhere else (R100, R105). -/
theorem bitpos_succ (hc : c.Legal) (h : SignalAt c k u) :
    (k + 1 - c.epoch) / (2 * c.h) % c.w = if (bclkUnit c u).2 then (u.bitpos + 1) % c.w else u.bitpos := by
  have hb := bclkUnit_boundary_iff hc h
  rw [h.bitpos]
  rcases Nat.lt_or_ge k c.epoch with hk | hk
  · rw [if_neg (by rw [hb]; omega), Nat.sub_eq_zero_of_le hk.le, Nat.sub_eq_zero_of_le (show k + 1 ≤ c.epoch from hk)]
  · rw [Nat.succ_sub hk]
    by_cases hd : 2 * c.h ∣ k - c.epoch + 1
    · rw [if_pos (hb.mpr ⟨hk, hd⟩), Nat.succ_div_of_dvd hd, Nat.mod_add_mod]
    · rw [if_neg (fun h2 => hd (hb.mp h2).2), Nat.succ_div_of_not_dvd hd]

/-- A unit whose counters are those of one cycle's two counting units, and whose BITPOS is at k + 1, is at k + 1. -/
theorem SignalAt.succ (hc : c.Legal) (h : SignalAt c k u) (hu : SameUnit u v) (hv : SameCounters (clocked c u) v)
    (hp : v.bitpos = (k + 1 - c.epoch) / (2 * c.h) % c.w) : SignalAt c (k + 1) v := by
  obtain ⟨hdead, hbcnt, hbclk⟩ := clocked_bclk hc h
  obtain ⟨hwcnt, hws⟩ := clocked_ws hc h
  exact {
    mode := hu.mode.trans h.mode
    hold := hu.hold.trans h.hold
    bocr := by rw [hu.bocr, h.bocr]
    wocr := by rw [hu.wocr, h.wocr]
    dead := by rw [hv.dead, hdead]
    bcnt := by rw [hv.bcnt, hbcnt]
    bclk := by rw [hv.bclk, hbclk]
    wcnt := by rw [hv.wcnt, hwcnt]
    ws := by rw [hv.ws, hws]
    bitpos := hp }

/-- Every peripheral step without a fault takes the released unit from k to k + 1 (R97, R103 to R105). -/
theorem signalAt_periph (hc : c.Legal) (h : SignalAt c k u) (hv : periph c t u = .ok v) : SignalAt c (k + 1) v := by
  have hu := periph_sameUnit hv
  have hp := bitpos_succ hc h
  have hb0 := (clocked_sameData c u).bitpos
  rcases periph_ok hv with ⟨hm | hh, _⟩ | ⟨_, _, hb, rfl⟩ | ⟨_, _, hb, l, hl, rfl⟩
  · rw [h.mode] at hm; cases hm
  · rw [h.hold] at hh; cases hh
  · exact h.succ hc hu ⟨rfl, rfl, rfl, rfl, rfl⟩ (by rw [hp, hb0, hb]; rfl)
  · rw [hb, if_pos rfl, ← hb0] at hp
    rcases loadPoint_ok hl with ⟨_, rfl⟩ | ⟨_, _, _, rfl⟩ <;> exact h.succ hc hu ⟨rfl, rfl, rfl, rfl, rfl⟩ hp.symm

/-- The data path can raise a fault only at a bit boundary (R97). -/
theorem periph_of_not_boundary (h : SignalAt c k u) (hb : (bclkUnit c u).2 = false) : periph c t u = .ok (clocked c u) := by
  simp [periph, advanceUnit, h.mode, h.hold, hb, clocked]

/-- Up to the first bit boundary, at k = EPOCH + 2H, the released unit runs without a fault, whatever the transmit buffer
holds (R97, R105). -/
theorem periphRun_before_first_boundary (hc : c.Legal) : ∀ (n k t : Nat) (u : ClockUnit), SignalAt c k u →
    k + n < c.epoch + 2 * c.h → ∃ v, periphRun c t n u = .ok v ∧ SignalAt c (k + n) v
  | 0, _, _, u, h, _ => ⟨u, rfl, h⟩
  | n + 1, k, t, u, h, hk => by
    have hb : (bclkUnit c u).2 = false := by
      rw [← Bool.not_eq_true, bclkUnit_boundary_iff hc h]
      rintro ⟨h1, h2⟩
      have := Nat.le_of_dvd (Nat.succ_pos _) h2
      omega
    have hv := periph_of_not_boundary (t := t) h hb
    obtain ⟨w, hw, hs⟩ := periphRun_before_first_boundary hc n (k + 1) (t + 1) _ (signalAt_periph hc h hv) (by omega)
    exact ⟨w, by rw [periphRun, hv]; exact hw, by rwa [Nat.add_assoc, Nat.add_comm 1] at hs⟩

/-- Through k = EPOCH + H, BCLK is at BCLK_IDLE exactly before its first edge there (R9, R103). -/
theorem SignalAt.bclk_eq_idle_iff (hc : c.Legal) (h : SignalAt c k u) (hk : k ≤ c.epoch + c.h) :
    u.bclk = c.bclkIdle ↔ k < c.epoch + c.h := by
  have hh : 0 < c.h := by have := hc.h; omega
  rw [h.bclk]
  rcases Nat.lt_or_ge k (c.epoch + c.h) with hlt | hge
  · rw [Nat.div_eq_of_lt (by omega)]; simp [hlt]
  · rw [show k - c.epoch = c.h by omega, Nat.div_self hh]; simp [odd, hge]

end

/-- Settles O52: the ranges are arithmetic on the checks of R7, and the first edge is the closed form of BCLK at
k = EPOCH + H, which lies before the first bit boundary. -/
theorem derivedConstantsAndRanges : Obligations.DerivedConstantsAndRanges := by
  intro c hw
  have hc := Config.legal_of_wellFormed hw
  have hh := hc.h
  have hfit := hc.fit
  have hS := Config.two_le_samplePeriod hc
  have hbit : c.bitPeriod = 2 * c.h := rfl
  have hframe : c.framePeriod = 2 * c.samplePeriod := rfl
  refine ⟨hbit, rfl, hframe, by omega, by omega, hS, by omega, by omega, by omega, Config.epoch_of_toggle,
    Config.epoch_add_h_of_usart hc, fun r n u hu hn => ?firstEdge⟩
  case firstEdge =>
    obtain ⟨v, hv, hs⟩ :=
      periphRun_before_first_boundary hc n 0 (r + 1) _ (signalAt_release hc hu r) (by omega)
    rw [Nat.zero_add] at hs
    exact ⟨v, hv, hs.bclk_eq_idle_iff hc hn⟩

end Sys2Proof.Machine

namespace Sys2Proof.Machine

/-! ### What one step changes -/

section
variable {s t r e : State} {i : Instr} {draw : Bool}

/-- Steps 2 to 4 write neither the configuration nor the command memory (R14, R69). -/
theorem StepRest.fixed (h : StepRest r t) : t.cfg = r.cfg ∧ t.mem = r.mem := by
  cases h with
  | periphFault m _ ht => subst ht; exact ⟨rfl, rfl⟩
  | idle u _ _ ht => subst ht; exact ⟨rfl, rfl⟩
  | busy u i _ _ _ ht => subst ht; exact ⟨rfl, rfl⟩
  | effect u i e _ _ _ he ht => subst ht; exact ⟨(exec_next he).1.cfg, (exec_next he).1.mem⟩
  | raised u i m _ _ _ _ ht => subst ht; exact ⟨rfl, rfl⟩

/-- Steps 2 to 4 advance cyc, or record a fault at the cycle and PC they started with (R43, R136). -/
theorem StepRest.time (h : StepRest r t) (hf : r.fault = none) :
    (t.fault = none ∧ t.cyc = r.cyc + 1) ∨
      ∃ m, t.fault = some ⟨m, r.cyc, r.seq.pc⟩ ∧ t.cyc = r.cyc ∧ t.seq.pc = r.seq.pc := by
  cases h with
  | periphFault m _ ht => subst ht; exact .inr ⟨m, rfl, rfl, rfl⟩
  | idle u _ _ ht => subst ht; exact .inl ⟨hf, rfl⟩
  | busy u i _ _ _ ht => subst ht; exact .inl ⟨hf, rfl⟩
  | effect u i e _ _ _ he ht =>
    have hs := (exec_next he).1
    subst ht
    exact .inl ⟨hs.fault.trans hf, congrArg (· + 1) hs.cyc⟩
  | raised u i m _ _ _ _ ht => subst ht; exact .inr ⟨m, rfl, rfl, rfl⟩

/-- Settles O27: step 1 keeps both fields, and so do steps 2 to 4. -/
theorem configurationAndCommandMemoryAreFixed : Obligations.ConfigurationAndCommandMemoryAreFixed := by
  intro s t h
  obtain ⟨_, _, hs⟩ := step_next h
  cases hs with
  | fetchFault m _ _ ht => subst ht; exact ⟨rfl, rfl⟩
  | cycle r h1 h2 =>
    obtain ⟨hcfg, hmem, -⟩ := h1.same
    exact ⟨h2.fixed.1.trans hcfg, h2.fixed.2.trans hmem⟩

/-- Settles O26: a fault of step 1 is recorded at once, and steps 2 to 4 end in one of the two ways. -/
theorem cycAdvancesUnlessAFaultIsRecorded : Obligations.CycAdvancesUnlessAFaultIsRecorded := by
  intro s t h
  obtain ⟨hf, _, hs⟩ := step_next h
  cases hs with
  | fetchFault m _ _ ht => subst ht; exact .inr ⟨m, rfl, rfl, rfl⟩
  | cycle r h1 h2 =>
    obtain ⟨-, -, -, -, hcyc, hfault, hpc, -⟩ := h1.same
    rw [← hcyc, ← hpc]
    exact h2.time (hfault.trans hf)

end

/-! ### The sequencer's invariant -/

section
variable {s t r e : State} {i : Instr} {draw : Bool}

/-- Every command of a legal configuration costs at least one cycle (R42, R153). -/
theorem one_le_cost {c : Config} (hc : c.WellFormed = true) (i : Instr) : 1 ≤ cost c i := by
  cases i with
  | nop => exact Laws.Cost.nop c hc
  | dly8 k => exact Laws.Cost.dly8 k c hc
  | dly16 k => exact Laws.Cost.dly16 k c hc
  | cfg => exact Laws.Cost.cfg c hc
  | start => exact Laws.Cost.start c hc
  | txi v => exact Laws.Cost.txi v c hc
  | txs => exact Laws.Cost.txs c hc
  | tone f a => exact Laws.Cost.tone f a c hc
  | getf => exact Laws.Cost.getf c hc
  | getn => exact Laws.Cost.getn c hc
  | ldlc v => exact Laws.Cost.ldlc v c hc
  | djnz t => exact Laws.Cost.djnz t c hc
  | jmp t => exact Laws.Cost.jmp t c hc
  | halt => exact Laws.Cost.halt c hc

/-- Recording a fault at the present cycle and PC keeps the sequencer's invariant (R135). -/
theorem SequencerInv.recordFault (h : SequencerInv s) (m : ModelFault) : SequencerInv (recordFault m s) where
  config := h.config
  memory := h.memory
  idle := h.idle
  busy := h.busy
  word := h.word
  masked := h.masked
  halted := h.halted
  record := fun _ hr => by cases hr; exact ⟨rfl, rfl⟩

/-- The sequencer's invariant does not read the unit. -/
theorem SequencerInv.setClk (h : SequencerInv s) (u : ClockUnit) : SequencerInv (setClk u s) :=
  ⟨h.config, h.memory, h.idle, h.busy, h.word, h.masked, h.halted, h.record⟩

/-- Nor does it read the counter of stall draws. -/
theorem SequencerInv.takeDraw (h : SequencerInv s) : SequencerInv (takeDraw s) := by
  unfold Machine.takeDraw
  split_ifs
  · exact ⟨h.config, h.memory, h.idle, h.busy, h.word, h.masked, h.halted, h.record⟩
  · exact h

/-- cyc may advance while no fault is recorded. -/
theorem SequencerInv.tick (h : SequencerInv s) (hf : s.fault = none) : SequencerInv (tick s) where
  config := h.config
  memory := h.memory
  idle := h.idle
  busy := h.busy
  word := h.word
  masked := h.masked
  halted := h.halted
  record := fun _ hr => nomatch hf.symm.trans hr

/-- BUSY may count down while more than one cycle remains (R39). -/
theorem SequencerInv.countDown (h : SequencerInv s) (hb : 1 < s.seq.busy) : SequencerInv (countDown s) where
  config := h.config
  memory := h.memory
  idle := fun hc => by have := h.idle hc; omega
  busy := fun i hc => by have := h.busy i hc; simp; omega
  word := h.word
  masked := h.masked
  halted := h.halted
  record := h.record

/-- The issue of the command that PC holds establishes what the invariant says of a command in progress (R42). -/
theorem SequencerInv.beginCommand (h : SequencerInv s) (hh : s.seq.halted = false) (hf : fetchDecode s = .ok i) :
    SequencerInv (beginCommand i s) where
  config := by simpa using h.config
  memory := by simpa using h.memory
  idle := by simp
  busy := fun j hj => by
    obtain rfl : i = j := by simpa using hj
    simpa using one_le_cost h.config i
  word := fun j hj => by
    obtain rfl : i = j := by simpa using hj
    rw [← hf]
    exact fetchDecode_congr (by simp) (by simp) (by simp)
  masked := fun hj => by
    obtain rfl : i = .cfg := by simpa using hj
    simp
  halted := by simp [hh]
  record := by simpa using h.record

/-- A retired sequencer is inside its invariant, wherever PC stands (R43 step 3). -/
theorem sequencerInv_retire (hc : s.cfg.WellFormed = true) (hm : s.mem.wf = true) (hf : s.fault = none) :
    SequencerInv (retire s) where
  config := hc
  memory := hm
  idle := fun _ => rfl
  busy := nofun
  word := nofun
  masked := nofun
  halted := fun _ => rfl
  record := fun _ hr => nomatch hf.symm.trans hr

/-- Step 1 keeps the sequencer's invariant. -/
theorem StepOne.sequencerInv (h1 : StepOne draw s r) (h : SequencerInv s) (hh : s.seq.halted = false) :
    SequencerInv r := by
  cases h1 with
  | inside i _ hr => exact hr ▸ h
  | stall _ _ _ hr => exact hr ▸ h.takeDraw
  | issue i _ _ hf hr =>
    refine hr ▸ h.takeDraw.beginCommand (by simpa using hh) ?_
    rw [← hf]
    exact fetchDecode_congr (by simp) (by simp) (by simp)

/-- Steps 2 to 4 keep the sequencer's invariant. -/
theorem StepRest.sequencerInv (h2 : StepRest r t) (h : SequencerInv r) (hf : r.fault = none) : SequencerInv t := by
  cases h2 with
  | periphFault m _ ht => exact ht ▸ h.recordFault m
  | idle u _ _ ht => exact ht ▸ (h.setClk u).tick hf
  | busy u i _ _ hb ht => exact ht ▸ ((h.setClk u).countDown hb).tick hf
  | effect u i e _ _ _ he ht =>
    have hs := (exec_next he).1
    have hef : e.fault = none := hs.fault.trans hf
    exact ht ▸ (sequencerInv_retire (hs.cfg ▸ h.config) (hs.mem ▸ h.memory) hef).tick hef
  | raised u i m _ _ _ _ ht => exact ht ▸ (h.setClk u).recordFault m

/-- Settles O32: step 1 and steps 2 to 4 each keep the invariant, and a fault of step 1 is recorded where it arises. -/
theorem sequencerInvKept : Obligations.SequencerInvKept := by
  intro s t h hstep
  obtain ⟨hf, hh, hs⟩ := step_next hstep
  cases hs with
  | fetchFault m _ _ ht => exact ht ▸ h.recordFault m
  | cycle r h1 h2 =>
    obtain ⟨-, -, -, -, -, hfault, -⟩ := h1.same
    exact h2.sequencerInv (h1.sequencerInv h hh) (hfault.trans hf)

end

end Sys2Proof.Machine

namespace Sys2Proof.Machine

/-! ### What a command does to the unit, the oscillator and the sequencer -/

section
variable {s t r e : State} {i : Instr} {draw : Bool}

/-- A transmit at cycle n: the word stands in the buffer with its time (R94). -/
def bufferWord (n : Nat) (v : Half) (u : ClockUnit) : ClockUnit :=
  { u with txbuf := v, txfull := true, txt := some n }

/-- The unit after a command: as it was, or as CFG, START or a transmit leaves it (R92 to R94). -/
theorem Effect.unit (h : Effect i s t) :
    t.clk = s.clk ∨
    (i = .cfg ∧ s.clk.st = .unconfigured ∧ t.clk = configureUnit s.cfg s.clk) ∨
    (i = .start ∧ s.clk.st = .configured ∧ t.clk = releaseUnit s.cyc s.clk) ∨
    ((i = .txs ∨ ∃ v, i = .txi v) ∧ s.clk.st ≠ .unconfigured ∧ s.clk.txfull = false ∧
      ∃ v, t.clk = bufferWord s.cyc v s.clk) := by
  cases i with
  | cfg =>
    obtain ⟨hst, hclk, -⟩ := h
    exact .inr (.inl ⟨rfl, hst, hclk⟩)
  | start =>
    obtain ⟨hst, hclk, -⟩ := h
    exact .inr (.inr (.inl ⟨rfl, hst, hclk⟩))
  | txi v =>
    obtain ⟨hst, hfull, hclk, -⟩ := h
    exact .inr (.inr (.inr ⟨.inr ⟨v, rfl⟩, hst, hfull, v, hclk⟩))
  | txs =>
    obtain ⟨hst, hfull, hclk, -⟩ := h
    exact .inr (.inr (.inr ⟨.inl rfl, hst, hfull, s.seq.sreg, hclk⟩))
  | tone f a | getf =>
    obtain ⟨-, -, hclk, -⟩ := h
    exact .inl hclk
  | getn =>
    obtain ⟨-, -, -, hclk, -⟩ := h
    exact .inl hclk
  | ldlc v | djnz t | halt =>
    obtain ⟨-, hclk, -⟩ := h
    exact .inl hclk
  | nop | dly8 k | dly16 k | jmp t => exact .inl h.1

end

/-! ### The unit's invariant -/

/-- The clauses of `UnitInv` that speak of the unit alone, for a configuration and the cycle number. -/
structure UnitForm (c : Config) (n : Nat) (u : ClockUnit) : Prop where
  unconfigured : u.st = .unconfigured → u = ClockUnit.initial
  configured : u.st = .configured → ConfiguredForm c u
  running : u.st = .running → RunningForm c u
  released : u.st = .running → ∃ r, u.release = some r ∧ r < n
  buffered : u.txfull = true → ∃ x, u.txt = some x ∧ x < n

/-- The unit's invariant is its form, with a legal configuration and the two clauses on I. -/
theorem unitInv_iff {s : State} : UnitInv s ↔
    s.cfg.WellFormed = true ∧ (s.seq.cur = some .cfg → s.seq.i = false) ∧
      (s.clk.st ≠ .unconfigured → s.seq.i = false) ∧ UnitForm s.cfg s.cyc s.clk :=
  ⟨fun h => ⟨h.config, h.masked, h.interrupts, h.unconfigured, h.configured, h.running, h.released, h.buffered⟩,
    fun ⟨hc, hm, hi, hu⟩ => ⟨hc, hm, hu.unconfigured, hu.configured, hu.running, hu.released, hi, hu.buffered⟩⟩

section
variable {c : Config} {n n' : Nat} {u v : ClockUnit} {s t r e : State} {i : Instr} {draw : Bool}

/-- The form outlives the cycle: its times lie before every later cycle as well. -/
theorem UnitForm.mono (h : UnitForm c n u) (hn : n ≤ n') : UnitForm c n' u where
  unconfigured := h.unconfigured
  configured := h.configured
  running := h.running
  released := fun hs => let ⟨r, hr, hlt⟩ := h.released hs; ⟨r, hr, by omega⟩
  buffered := fun hs => let ⟨x, hx, hlt⟩ := h.buffered hs; ⟨x, hx, by omega⟩

theorem lowBits_toNat_lt (w n : Nat) : (lowBits w n).toNat < 2 ^ w :=
  calc (lowBits w n).toNat = n % 2 ^ w % 2 ^ 16 := BitVec.toNat_ofNat _ _
    _ ≤ n % 2 ^ w := Nat.mod_le _ _
    _ < 2 ^ w := Nat.mod_lt _ (by positivity)

/-- A peripheral step keeps the shift register within W bits and BITPOS below W (R36, R97). -/
theorem periph_data_bounds (hw : 0 < c.w) (h : periph c n u = .ok v) (hp : u.bitpos < c.w)
    (hr : u.sr.toNat < 2 ^ c.w) : v.bitpos < c.w ∧ v.sr.toNat < 2 ^ c.w := by
  rcases periph_ok h with ⟨_, rfl⟩ | ⟨_, _, _, rfl⟩ | ⟨_, _, _, l, _, rfl⟩
  · exact ⟨hp, hr⟩
  · have hd := clocked_sameData c u
    exact ⟨by rwa [hd.bitpos], by rwa [hd.sr]⟩
  · exact ⟨Nat.mod_lt _ hw, lowBits_toNat_lt _ _⟩

theorem RunningForm.periph (hw : 0 < c.w) (h : RunningForm c u) (hv : periph c n u = .ok v) : RunningForm c v := by
  have hu := periph_sameUnit hv
  obtain ⟨hp, hr⟩ := periph_data_bounds hw hv h.bitpos h.sr
  exact ⟨hu.mode.trans h.mode, hu.hold.trans h.hold, by rw [hu.bocr, h.bocr], by rw [hu.wocr, h.wocr], hp, hr⟩

/-- Before START the unit is off or held. -/
theorem UnitForm.idle_or_running (h : UnitForm c n u) : (u.mode = false ∨ u.hold = true) ∨ u.st = .running := by
  cases hs : u.st with
  | unconfigured => rw [h.unconfigured hs]; exact .inl (.inl rfl)
  | configured => obtain ⟨b, f, x, rfl⟩ := h.configured hs; exact .inl (.inr rfl)
  | running => exact .inr rfl

/-- The peripheral step keeps the form: it moves a running unit only, and never fills the buffer (R97, R101). -/
theorem UnitForm.periph (hw : 0 < c.w) (h : UnitForm c n u) (hv : periph c n u = .ok v) : UnitForm c n v := by
  rcases h.idle_or_running with hidle | hrun
  · rw [periph_held c n u hidle] at hv
    cases hv
    exact h
  · have hu := periph_sameUnit hv
    have hst : v.st = .running := hu.st.trans hrun
    refine ⟨fun hs => ?_, fun hs => ?_, fun _ => (h.running hrun).periph hw hv, fun _ => ?_, fun hfull => ?_⟩
    · rw [hst] at hs; cases hs
    · rw [hst] at hs; cases hs
    · rw [hu.release]; exact h.released hrun
    · rw [hu.txt]
      rcases periph_txfull hv with hkeep | ⟨hclear, -⟩
      · exact h.buffered (hkeep ▸ hfull)
      · rw [hclear] at hfull; cases hfull

/-- CFG gives the configured form to the unit at reset (R92). -/
theorem UnitForm.configureUnit (h : UnitForm c n u) (hs : u.st = .unconfigured) :
    UnitForm c n (configureUnit c u) := by
  rw [h.unconfigured hs]
  exact ⟨nofun, fun _ => ⟨0, false, none, rfl⟩, nofun, nofun, nofun⟩

/-- The compare values of CFG are not truncated in a legal configuration (R92, log 15). -/
theorem ConfiguredForm.releaseUnit (hc : c.Legal) (h : ConfiguredForm c u) : RunningForm c (releaseUnit n u) := by
  obtain ⟨b, f, x, rfl⟩ := h
  have hh := hc.h
  have hfit := hc.fit
  refine ⟨rfl, rfl, ?bocr, ?wocr, hc.w.1, Nat.two_pow_pos _⟩ <;>
    refine (BitVec.toNat_ofNat _ _).trans (Nat.mod_eq_of_lt ?_) <;> omega

/-- START takes the unit from the configured to the running form, released at this cycle (R93). -/
theorem UnitForm.releaseUnit (hc : c.Legal) (h : UnitForm c n u) (hs : u.st = .configured) :
    UnitForm c (n + 1) (releaseUnit n u) where
  unconfigured := nofun
  configured := nofun
  running := fun _ => (h.configured hs).releaseUnit hc
  released := fun _ => ⟨n, rfl, Nat.lt_succ_self n⟩
  buffered := (h.mono (Nat.le_succ n)).buffered

/-- A transmit keeps the form, with this cycle as its time (R94). -/
theorem UnitForm.bufferWord (h : UnitForm c n u) (hs : u.st ≠ .unconfigured) (w : Half) :
    UnitForm c (n + 1) (bufferWord n w u) where
  unconfigured := fun hu => absurd hu hs
  configured := fun hu => by
    obtain ⟨b, f, x, rfl⟩ := h.configured hu
    exact ⟨w, true, some n, rfl⟩
  running := fun hu =>
    let ⟨hmode, hhold, hbocr, hwocr, hbitpos, hsr⟩ := h.running hu
    ⟨hmode, hhold, hbocr, hwocr, hbitpos, hsr⟩
  released := (h.mono (Nat.le_succ n)).released
  buffered := fun _ => ⟨n, rfl, Nat.lt_succ_self n⟩

/-- Every command keeps the unit's form, into the next cycle. -/
theorem Effect.unitForm (he : Effect i s e) (hc : s.cfg.Legal) (h : UnitForm s.cfg s.cyc s.clk) :
    UnitForm s.cfg (s.cyc + 1) e.clk := by
  rcases he.unit with hclk | ⟨-, hst, hclk⟩ | ⟨-, hst, hclk⟩ | ⟨-, hst, -, v, hclk⟩ <;> rw [hclk]
  · exact h.mono (Nat.le_succ _)
  · exact (h.configureUnit hst).mono (Nat.le_succ _)
  · exact h.releaseUnit hc hst
  · exact h.bufferWord hst v

/-- Only CFG makes a unit that is not unconfigured out of one that is. -/
theorem Effect.cfg_of_configures (he : Effect i s e) (hs : s.clk.st = .unconfigured) (ht : e.clk.st ≠ .unconfigured) :
    i = .cfg := by
  rcases he.unit with hclk | ⟨hi, -⟩ | ⟨-, hst, -⟩ | ⟨-, hst, -⟩
  · rw [hclk] at ht; exact absurd hs ht
  · exact hi
  · rw [hs] at hst; cases hst
  · exact absurd hs hst

/-- Step 1 keeps the unit's invariant: the issue of CFG masks interrupts (R42, R66). -/
theorem StepOne.unitInv (h1 : StepOne draw s r) (h : UnitInv s) : UnitInv r := by
  cases h1 with
  | inside i _ hr => exact hr ▸ h
  | stall _ _ _ hr => subst hr; simpa [unitInv_iff] using unitInv_iff.mp h
  | issue i _ _ _ hr =>
    obtain ⟨hc, -, hi, hu⟩ := unitInv_iff.mp h
    subst hr
    refine unitInv_iff.mpr ⟨by simpa using hc, fun hcur => ?_, fun hst => ?_, by simpa using hu⟩
    · obtain rfl : i = .cfg := by simpa using hcur
      simp
    · simp [hi (by simpa using hst)]

/-- The peripheral step keeps the unit's invariant. -/
theorem UnitInv.setClk (h : UnitInv r) (hp : Machine.periph r.cfg r.cyc r.clk = .ok u) : UnitInv (setClk u r) := by
  obtain ⟨hc, hm, hi, hu⟩ := unitInv_iff.mp h
  have hw := (Config.legal_of_wellFormed hc).w.1
  exact unitInv_iff.mpr ⟨hc, hm, fun hst => hi ((periph_sameUnit hp).st ▸ hst), hu.periph hw hp⟩

/-- The time may pass. -/
theorem UnitInv.tick (h : UnitInv s) : UnitInv (tick s) :=
  let ⟨hc, hm, hi, hu⟩ := unitInv_iff.mp h
  unitInv_iff.mpr ⟨hc, hm, hi, hu.mono (Nat.le_succ _)⟩

/-- A command that takes effect and retires keeps the unit's invariant (R43 step 3). -/
theorem UnitInv.effect (h : UnitInv s) (hcur : s.seq.cur = some i) (he : exec i s = .next e) :
    UnitInv (Machine.tick (retire e)) := by
  obtain ⟨hframe, heff⟩ := exec_next he
  obtain ⟨hc, hm, hi, hu⟩ := unitInv_iff.mp h
  refine unitInv_iff.mpr ⟨hframe.cfg ▸ hc, nofun, fun hst => hframe.i.trans ?_, ?_⟩
  · by_cases hs : s.clk.st = .unconfigured
    · exact hm (heff.cfg_of_configures hs hst ▸ hcur)
    · exact hi hs
  · have := heff.unitForm (Config.legal_of_wellFormed hc) hu
    rwa [← hframe.cfg, ← hframe.cyc] at this

/-- Recording a fault writes nothing that the unit's invariant reads. -/
theorem UnitInv.recordFault (h : UnitInv s) (m : ModelFault) : UnitInv (recordFault m s) :=
  let ⟨hc, hm, hi, hu⟩ := unitInv_iff.mp h
  unitInv_iff.mpr ⟨hc, hm, hi, hu⟩

/-- Nor does counting BUSY down. -/
theorem UnitInv.countDown (h : UnitInv s) : UnitInv (countDown s) :=
  let ⟨hc, hm, hi, hu⟩ := unitInv_iff.mp h
  unitInv_iff.mpr ⟨hc, hm, hi, hu⟩

/-- Steps 2 to 4 keep the unit's invariant. -/
theorem StepRest.unitInv (h2 : StepRest r t) (h : UnitInv r) : UnitInv t := by
  cases h2 with
  | periphFault m _ ht => exact ht ▸ h.recordFault m
  | idle u hp _ ht => exact ht ▸ (h.setClk hp).tick
  | busy u i hp _ _ ht => exact ht ▸ (h.setClk hp).countDown.tick
  | effect u i e hp hc _ he ht => exact ht ▸ (h.setClk hp).effect hc he
  | raised u i m hp _ _ _ ht => exact ht ▸ (h.setClk hp).recordFault m

/-- Settles O33: the issue masks interrupts for CFG, the peripheral step moves a running unit only, and each command takes
the unit from one of its forms to another. -/
theorem unitInvKept : Obligations.UnitInvKept := by
  intro s t h hstep
  obtain ⟨-, -, hs⟩ := step_next hstep
  cases hs with
  | fetchFault m _ _ ht => exact ht ▸ h.recordFault m
  | cycle r h1 h2 => exact h2.unitInv (h1.unitInv h)

end

end Sys2Proof.Machine

namespace Sys2Proof.Machine

/-! ### One cycle and one command -/

section
variable {s : State} {i : Instr} {u : ClockUnit}

/-- The state an issue leaves is in progress with the command, and has not ended. -/
theorem beginCommand_inside (hb : Boundary s) (i : Instr) :
    (beginCommand i (takeDraw s)).fault = none ∧ (beginCommand i (takeDraw s)).seq.halted = false ∧
      (beginCommand i (takeDraw s)).seq.cur = some i := by
  obtain ⟨hf, hh, -⟩ := hb
  simp [hf, hh]

/-- An issue takes no cycle of its own: the step that issues a command is the first step inside it (R42, R43). -/
theorem step_issue_eq_step_inside (hb : Boundary s) (hn : NoStall s) (hf : fetchDecode s = .ok i) :
    step s = step (beginCommand i (takeDraw s)) := by
  obtain ⟨h1, h2, h3⟩ := beginCommand_inside hb i
  rw [step_issue hb hn hf, step_inside h1 h2 h3]

/-- Inside a command, with more than one cycle left, a step runs the unit and counts BUSY down (R43). -/
theorem step_inside_busy (h1 : s.fault = none) (h2 : s.seq.halted = false) (h3 : s.seq.cur = some i)
    (hp : periph s.cfg s.cyc s.clk = .ok u) (hb : 1 < s.seq.busy) :
    step s = .next (tick (countDown (setClk u s))) :=
  (step_inside h1 h2 h3).trans (stepTwoOn_busy hp h3 hb)

/-- In a command's last cycle a step runs the unit and applies the command's meaning (R43). -/
theorem step_inside_effect (h1 : s.fault = none) (h2 : s.seq.halted = false) (h3 : s.seq.cur = some i)
    (hp : periph s.cfg s.cyc s.clk = .ok u) (hb : s.seq.busy ≤ 1) :
    step s = settleEffect (setClk u s) (exec i (setClk u s)) :=
  (step_inside h1 h2 h3).trans (stepTwoOn_effect hp h3 hb)

/-- Settles O21: the two ways a step inside a command can go without a fault. -/
theorem stepInsideACommand : Obligations.StepInsideACommand := by
  intro s i u h1 h2 h3 hp
  refine ⟨fun hb => step_inside_busy h1 h2 h3 hp hb, fun hb t ht => ?lastCycle⟩
  case lastCycle =>
    rw [step_inside_effect h1 h2 h3 hp hb.le]
    exact congrArg (settleEffect (setClk u s)) ht

/-- Settles O20: the step that issues is the first step inside the command, with BUSY at its cost. -/
theorem stepRunsTheDecodedCommand : Obligations.StepRunsTheDecodedCommand := by
  intro s i u hb hn hpc hd hp e he
  obtain ⟨h1, h2, h3⟩ := beginCommand_inside hb i
  have hp' : periph (beginCommand i (takeDraw s)).cfg (beginCommand i (takeDraw s)).cyc
      (beginCommand i (takeDraw s)).clk = .ok u := by simpa using hp
  have heq : setClk u (beginCommand i (takeDraw s)) = e := by
    rw [beginCommand_takeDraw hb.2.2, he]
    rfl
  rw [step_issue_eq_step_inside hb hn (fetchDecode_ok.mpr ⟨hpc, hd⟩)]
  refine ⟨fun hc => ?busy, fun hc t ht => ?lastCycle⟩
  case busy =>
    rw [step_inside_busy h1 h2 h3 hp' (by simpa using hc), heq, he]
    rfl
  case lastCycle =>
    rw [step_inside_effect h1 h2 h3 hp' (by simpa using hc.le), heq, ht]
    rfl

/-- A run of one cycle is one step. -/
theorem run_one (s : State) : run 1 s = step s := by
  rw [run]
  cases step s <;> rfl

/-- The peripheral steps of n + 1 cycles are one and then n. -/
theorem periphRun_succ {c : Config} {t n : Nat} {w : ClockUnit} :
    periphRun c t (n + 1) u = .ok w ↔ ∃ v, periph c t u = .ok v ∧ periphRun c (t + 1) n v = .ok w := by
  rw [periphRun]
  cases periph c t u <;> simp

/-- The rest of a command, from any of its cycles with n + 1 left: the unit runs for n + 1 cycles, and the meaning is
applied in the last, at cycle cyc + n (R43). -/
theorem run_inside (i : Instr) (u : ClockUnit) : ∀ (n : Nat) (s : State), s.fault = none → s.seq.halted = false →
    s.seq.cur = some i → s.seq.busy = n + 1 → periphRun s.cfg s.cyc (n + 1) s.clk = .ok u →
    ∀ e : State, e = { s with seq := { s.seq with busy := 1 }, clk := u, cyc := s.cyc + n } →
    run (n + 1) s = settleEffect e (exec i e)
  | 0, s, h1, h2, h3, hb, hp, e, he => by
    obtain ⟨v, hv, hrest⟩ := periphRun_succ.mp hp
    cases hrest
    have heq : setClk u s = e := by
      rw [he]
      ext <;> simp [hb]
    rw [run_one, step_inside_effect h1 h2 h3 hv hb.le, heq]
  | n + 1, s, h1, h2, h3, hb, hp, e, he => by
    obtain ⟨v, hv, hrest⟩ := periphRun_succ.mp hp
    rw [run_succ (step_inside_busy h1 h2 h3 hv (by omega))]
    refine run_inside i u n (tick (countDown (setClk v s))) h1 h2 h3 (by simp [hb]) hrest e ?_
    have hcyc : s.cyc + 1 + n = s.cyc + (n + 1) := by omega
    rw [he]
    ext <;> simp [hcyc]

/-- Settles O22: the issue is the first of the command's cycles, and `run_inside` takes them all. -/
theorem commandRunsForExactlyItsCost : Obligations.CommandRunsForExactlyItsCost := by
  intro s i u hb hn hf hc hp e he
  obtain ⟨n, hcost⟩ : ∃ n, cost s.cfg i = n + 1 := ⟨cost s.cfg i - 1, by omega⟩
  obtain ⟨h1, h2, h3⟩ := beginCommand_inside hb i
  rw [hcost] at hp
  have hrun : run (cost s.cfg i) s = settleEffect e (exec i e) := by
    rw [hcost, run, step_issue_eq_step_inside hb hn hf, ← run]
    refine run_inside i u n _ h1 h2 h3 (by simpa using hcost) (by simpa using hp) e ?_
    rw [he, beginCommand_takeDraw hb.2.2, hcost]
    rfl
  exact ⟨fun t ht => by rw [hrun, ht]; rfl, fun m hm => by rw [hrun, hm]; rfl⟩

/-- Step 1 reads the draw between commands with I = 1 only (R44). -/
theorem stepOne_draw_irrelevant (h : s.seq.i = false ∨ s.seq.cur ≠ none) (d e : Bool) : stepOne d s = stepOne e s := by
  unfold stepOne
  cases hc : s.seq.cur with
  | some i => rfl
  | none =>
    have hi : s.seq.i = false := h.resolve_right (not_not_intro hc)
    simp only [hi, Bool.false_and]

/-- A stall between commands leaves step 1's state with the draw counted and nothing else changed (R44). -/
theorem stepOne_stall (hc : s.seq.cur = none) (hi : s.seq.i = true) : stepOne true s = .ok (takeDraw s) := by
  simp [stepOne, hc, hi]

/-- A run that has not ended takes its cycle. -/
theorem cycleWith_of_not_ended (hf : s.fault = none) (hh : s.seq.halted = false) (d : Bool) :
    cycleWith d s = runningCycle d s := by
  simp [cycleWith, hf, hh]

/-- Between commands a cycle takes the unit's step and the time step only (R43). -/
theorem stepTwoOn_idle (hp : periph s.cfg s.cyc s.clk = .ok u) (hc : s.seq.cur = none) :
    stepTwoOn s = .next (tick (setClk u s)) := by
  simp [stepTwoOn, stepTwo, hp, stepThree, hc]

/-- Settles O23: a stall issues nothing, so steps 2 to 4 run the unit only; and step 1 is where the draw is read. -/
theorem stallRunsOnlyThePeripheral : Obligations.StallRunsOnlyThePeripheral := by
  refine ⟨fun s u hb hi hp => ?stall, fun s d e h => ?noDraw, fun _ => rfl⟩
  case stall =>
    obtain ⟨hf, hh, hc⟩ := hb
    have hdraw : takeDraw s = { s with draws := s.draws + 1 } := by simp [takeDraw, drawsNow, hc, hi]
    rw [cycleWith_of_not_ended hf hh, runningCycle, stepOne_stall hc hi, hdraw]
    exact stepTwoOn_idle hp hc
  case noDraw => rw [cycleWith, cycleWith, runningCycle, runningCycle, stepOne_draw_irrelevant h d e]

/-- Settles O24: the two ends of a run are the first two questions of a cycle. -/
theorem stepsExactlyUntilTheRunEnds : Obligations.StepsExactlyUntilTheRunEnds := by
  refine ⟨fun s r hr => ?recorded, fun s hf hh => ?halted, fun s hf hh => step_total hf hh⟩
  case recorded => simp [step, cycleWith, hr]
  case halted => simp [step, cycleWith, hf, hh]

end

end Sys2Proof.Machine

namespace Sys2Proof.Machine

/-! ### Launch and reset -/

section
variable {c : Config} {m : Memory} {words : List Word} {s : State}

/-- A launch answers the state of R46 of a legal configuration, with the image loaded (R148). -/
theorem launchWords_next {i : Option Bool} (h : launchWords c words i = .next s) :
    c.WellFormed = true ∧ s = State.initial c (Memory.loadWords [] 0 words) (i.getD false) := by
  cases hc : c.WellFormed with
  | false =>
    obtain ⟨k, hk, _⟩ := launchWords_of_not_wellFormed hc words i
    rw [hk] at h; cases h
  | true =>
    rw [launchWords_of_wellFormed hc] at h
    split_ifs at h
    cases h
    exact ⟨rfl, rfl⟩

/-- Between commands, with no fault, the sequencer's invariant asks for a legal configuration and a canonical memory. -/
theorem sequencerInv_initial (hc : c.WellFormed = true) (hm : m.wf = true) (i : Bool) :
    SequencerInv (State.initial c m i) where
  config := hc
  memory := hm
  idle := fun _ => rfl
  busy := nofun
  word := nofun
  masked := nofun
  halted := fun _ => rfl
  record := nofun

/-- The unit starts unconfigured, at reset, with an empty buffer. -/
theorem unitInv_initial (hc : c.WellFormed = true) (i : Bool) : UnitInv (State.initial c m i) where
  config := hc
  masked := nofun
  unconfigured := fun _ => rfl
  configured := nofun
  running := nofun
  released := nofun
  interrupts := fun h => absurd rfl h
  buffered := nofun

/-- The oscillator starts with TVALID = 0, at reset. -/
theorem oscillatorInv_initial (hc : c.WellFormed = true) (i : Bool) : OscillatorInv (State.initial c m i) where
  config := hc
  unset := fun _ => rfl
  increment := nofun
  elapsed := nofun
  current := nofun

/-- The state of R46 is inside the four invariants. -/
theorem initial_invariants (hc : c.WellFormed = true) (hm : m.wf = true) (i : Bool) :
    SequencerInv (State.initial c m i) ∧ UnitInv (State.initial c m i) ∧ OscillatorInv (State.initial c m i) ∧
      SignalInv (State.initial c m i) :=
  ⟨sequencerInv_initial hc hm i, unitInv_initial hc i, oscillatorInv_initial hc i, unitInv_initial hc i, nofun⟩

end

/-- Settles O36: a launch gives the state of R46 on a legal configuration, and loading words keeps a memory canonical. -/
theorem launchEstablishesTheInvariants : Obligations.LaunchEstablishesTheInvariants := by
  intro c words i s h
  obtain ⟨hc, rfl⟩ := launchWords_next h
  exact initial_invariants hc (Memory.wf_loadWords words [] 0 rfl) _

/-- Settles O37: REF is legal, and the empty memory is canonical. -/
theorem resetEstablishesTheInvariants : Obligations.ResetEstablishesTheInvariants :=
  initial_invariants (by decide) rfl false

/-- Settles O54: the launched state is `State.initial`, whose fields are the table of R46. -/
theorem launchPutsTheResetValues : Obligations.LaunchPutsTheResetValues := by
  intro c words i s h
  obtain ⟨-, rfl⟩ := launchWords_next h
  exact ⟨rfl, rfl, rfl, rfl, rfl, rfl, rfl, rfl, rfl, rfl, rfl, rfl⟩

/-! ### The register window -/

theorem bit_le_one (b : Bool) : bit b ≤ 1 := by
  cases b <;> decide

theorem DriverState.code_le_two (st : DriverState) : st.code ≤ 2 := by
  cases st <;> decide

/-- Bit k of a register is the flag that stands at 2^k in its number. -/
theorem getLsbD_ofNat_of_div_mod {n k : Nat} {b : Bool} (hk : k < 32) (h : n / 2 ^ k % 2 = bit b) :
    (BitVec.ofNat 32 n).getLsbD k = b := by
  rw [BitVec.getLsbD_ofNat, Nat.testBit_eq_decide_div_mod_eq, h]
  cases b <;> simp [hk, bit]

/-- A register's bits from k on are 0 when its number is below 2^k. -/
theorem ofNat_shiftRight_eq_zero {n k : Nat} (hk : k ≤ 32) (h : n < 2 ^ k) : BitVec.ofNat 32 n >>> k = 0 := by
  have hn : n < 2 ^ 32 := h.trans_le (Nat.pow_le_pow_right (by omega) hk)
  apply BitVec.eq_of_toNat_eq
  rw [BitVec.toNat_ushiftRight, BitVec.toNat_ofNat, Nat.mod_eq_of_lt hn, Nat.shiftRight_eq_div_pow, Nat.div_eq_of_lt h]
  rfl

/-- A field of a register as a number. -/
theorem extractLsb'_ofNat_toNat {n k w : Nat} (hn : n < 2 ^ 32) :
    ((BitVec.ofNat 32 n).extractLsb' k w).toNat = n / 2 ^ k % 2 ^ w := by
  rw [BitVec.extractLsb'_toNat, BitVec.toNat_ofNat, Nat.mod_eq_of_lt hn, Nat.shiftRight_eq_div_pow]

/-- CTRL (R22, R33). -/
theorem ctrlWord_fields (u : ClockUnit) :
    (ctrlWord u).getLsbD 0 = u.hold ∧ (ctrlWord u).getLsbD 1 = u.mode ∧ ctrlWord u >>> 2 = 0 := by
  have hhold := bit_le_one u.hold
  have hmode := bit_le_one u.mode
  exact ⟨getLsbD_ofNat_of_div_mod (by omega) (by omega), getLsbD_ofNat_of_div_mod (by omega) (by omega),
    ofNat_shiftRight_eq_zero (by omega) (by omega)⟩

/-- STATUS: the code of STATE (R19), the flags, and the reserved bits (R33). -/
theorem statusWord_fields (s : State) :
    ((statusWord s).extractLsb' 0 2).toNat = s.clk.st.code ∧
    (statusWord s).getLsbD 2 = s.clk.txfull ∧ (statusWord s).getLsbD 3 = s.clk.bclk ∧
    (statusWord s).getLsbD 4 = s.clk.ws ∧ (statusWord s).getLsbD 5 = s.clk.sd ∧
    (statusWord s).getLsbD 6 = s.osc.tvalid ∧ (statusWord s).getLsbD 7 = s.seq.i ∧
    (statusWord s).getLsbD 8 = s.seq.halted ∧ statusWord s >>> 9 = 0 := by
  have hst := s.clk.st.code_le_two
  have hfull := bit_le_one s.clk.txfull
  have hbclk := bit_le_one s.clk.bclk
  have hws := bit_le_one s.clk.ws
  have hsd := bit_le_one s.clk.sd
  have hvalid := bit_le_one s.osc.tvalid
  have hi := bit_le_one s.seq.i
  have hhalted := bit_le_one s.seq.halted
  unfold statusWord
  refine ⟨?state, ?_, ?_, ?_, ?_, ?_, ?_, ?_, ofNat_shiftRight_eq_zero (by omega) (by omega)⟩
  case state => rw [extractLsb'_ofNat_toNat (by omega)]; omega
  all_goals exact getLsbD_ofNat_of_div_mod (by omega) (by omega)

/-- The fields of CONFIG, none of them cut in a legal configuration, and its reserved bits (R31). -/
theorem configWord_fields {c : Config} (hc : c.Legal) :
    ((configWord c).extractLsb' 0 4).toNat = c.h ∧ ((configWord c).extractLsb' 4 5).toNat = c.w ∧
    (configWord c).getLsbD 9 = (c.variant == .usart) ∧ (configWord c).getLsbD 10 = c.bclkIdle ∧
    (configWord c).getLsbD 11 = (c.waveNeg == .zero) ∧ (configWord c).getLsbD 12 = c.waveLat ∧
    configWord c >>> 13 = 0 := by
  have hh := hc.h
  have hw := hc.w
  have hvariant := bit_le_one (c.variant == .usart)
  have hidle := bit_le_one c.bclkIdle
  have hneg := bit_le_one (c.waveNeg == .zero)
  have hlat := bit_le_one c.waveLat
  unfold configWord
  refine ⟨?h, ?w, ?variant, ?idle, ?neg, ?lat, ofNat_shiftRight_eq_zero (by omega) (by omega)⟩
  case h => rw [extractLsb'_ofNat_toNat (by omega)]; omega
  case w => rw [extractLsb'_ofNat_toNat (by omega)]; omega
  all_goals exact getLsbD_ofNat_of_div_mod (by omega) (by omega)

/-- The reserved offsets of the window (R34). -/
theorem windowRegister_reserved (s : State) {off : Nat} (h : 0x50 ≤ off) : windowRegister s off = 0 := by
  unfold windowRegister
  split
  any_goals omega
  rfl

/-- Settles O58: the three packed registers are sums of fields at powers of two, and the others are read as they are. -/
theorem windowShowsTheFieldsItNames : Obligations.WindowShowsTheFieldsItNames := by
  intro s hs
  obtain ⟨c0, c1, cz⟩ := ctrlWord_fields s.clk
  obtain ⟨hst, s2, s3, s4, s5, s6, s7, s8, sz⟩ := statusWord_fields s
  obtain ⟨g0, g4, g9, g10, g11, g12, gz⟩ := configWord_fields (Config.legal_of_wellFormed hs)
  refine ⟨c0, c1, cz, fun h => ?_, fun h => ?_, fun h => ?_, s2, s3, s4, s5, s6, s7, s8, sz, g0, g4,
    (Bool.eq_iff_iff.mp g9).trans beq_iff_eq, g10, (Bool.eq_iff_iff.mp g11).trans beq_iff_eq, g12, gz,
    rfl, rfl, rfl, rfl, rfl, rfl, rfl, rfl, rfl, rfl, rfl, rfl, fun off h => windowRegister_reserved s h⟩ <;>
  · rw [h] at hst
    exact BitVec.eq_of_toNat_eq hst

end Sys2Proof.Machine

namespace Sys2Proof.Machine

/-! ### Which command writes which register -/

section
variable {s t r e : State} {i : Instr} {draw : Bool}

/-- SREG is written by GETF and GETN only (R15). -/
theorem Effect.sreg (h : Effect i s t) : t.seq.sreg = s.seq.sreg ∨ i = .getf ∨ i = .getn := by
  cases i with
  | getf => exact .inr (.inl rfl)
  | getn => exact .inr (.inr rfl)
  | _ => exact .inl (by simp_all [Effect])

/-- LC is written by LDLC and DJNZ only (R15). -/
theorem Effect.lc (h : Effect i s t) : t.seq.lc = s.seq.lc ∨ ∃ v, i = .ldlc v ∨ i = .djnz v := by
  cases i with
  | ldlc v => exact .inr ⟨v, .inl rfl⟩
  | djnz v => exact .inr ⟨v, .inr rfl⟩
  | _ => exact .inl (by simp_all [Effect])

/-- HALTED is written by HALT only (R18). -/
theorem Effect.halted (h : Effect i s t) : t.seq.halted = s.seq.halted ∨ i = .halt := by
  cases i with
  | halt => exact .inr rfl
  | _ => exact .inl (by simp_all [Effect])

/-- The oscillator is written by TONE and GETN only (R114, R116). -/
theorem Effect.osc (h : Effect i s t) :
    t.osc = s.osc ∨ (i = .getn ∧ t.osc = advanceWave s.cfg s.osc) ∨ ∃ f a, i = .tone f a ∧ t.osc = newWave s.cfg f a := by
  cases i with
  | getn => exact .inr (.inl ⟨rfl, by simp_all [Effect]⟩)
  | tone f a => exact .inr (.inr ⟨f, a, rfl, by simp_all [Effect]⟩)
  | _ => exact .inl (by simp_all [Effect])

/-- The registers that nothing but a command's effect writes. -/
structure SameRegisters (s t : State) : Prop where
  pc : t.seq.pc = s.seq.pc
  lc : t.seq.lc = s.seq.lc
  sreg : t.seq.sreg = s.seq.sreg
  halted : t.seq.halted = s.seq.halted
  osc : t.osc = s.osc

/-- What a step does to the registers: nothing but the peripheral step's writes (which a fault can discard), or the effect of
the cycle's command on the state `p` after the peripheral step. -/
inductive StepEffect (s t : State) : Prop
  | none (hr : SameRegisters s t)
      (hclk : (t.clk = s.clk ∧ t.fault ≠ none) ∨ periph s.cfg s.cyc s.clk = .ok t.clk)
  | command (i : Instr) (p e : State) (hi : commandInCycle s = some i) (hr : SameRegisters s p) (hcfg : p.cfg = s.cfg)
      (hcyc : p.cyc = s.cyc) (hp : periph s.cfg s.cyc s.clk = .ok p.clk) (he : exec i p = .next e)
      (ht : t = tick (retire e))

/-- The command in progress after step 1 is the cycle's command (R42). -/
theorem StepOne.commandInCycle (h : StepOne draw s r) (hc : r.seq.cur = some i) : commandInCycle s = some i := by
  cases h with
  | inside j hj hr => subst hr; simp [Machine.commandInCycle, hc]
  | stall hn _ _ hr => subst hr; simp [hn] at hc
  | issue j hn _ hf hr =>
    subst hr
    obtain rfl : j = i := by simpa using hc
    simp [Machine.commandInCycle, hn, hf]

/-- Every step is one of the two. -/
theorem step_effect (h : step s = .next t) : StepEffect s t := by
  obtain ⟨-, -, hs⟩ := step_next h
  cases hs with
  | fetchFault m _ _ ht => subst ht; exact .none ⟨rfl, rfl, rfl, rfl, rfl⟩ (.inl ⟨rfl, nofun⟩)
  | cycle r h1 h2 =>
    obtain ⟨hcfg, -, hclk, hosc, hcyc, -, hpc, hlc, hsreg, hhalted⟩ := h1.same
    have hper : periph r.cfg r.cyc r.clk = periph s.cfg s.cyc s.clk := by rw [hcfg, hcyc, hclk]
    cases h2 with
    | periphFault m _ ht => subst ht; exact .none ⟨hpc, hlc, hsreg, hhalted, hosc⟩ (.inl ⟨hclk, nofun⟩)
    | idle u hp _ ht => subst ht; exact .none ⟨hpc, hlc, hsreg, hhalted, hosc⟩ (.inr (hper ▸ hp))
    | busy u i hp _ _ ht => subst ht; exact .none ⟨hpc, hlc, hsreg, hhalted, hosc⟩ (.inr (hper ▸ hp))
    | raised u i m hp _ _ _ ht => subst ht; exact .none ⟨hpc, hlc, hsreg, hhalted, hosc⟩ (.inr (hper ▸ hp))
    | effect u i e hp hc _ he ht =>
      exact .command i (setClk u r) e (h1.commandInCycle hc) ⟨hpc, hlc, hsreg, hhalted, hosc⟩ hcfg hcyc (hper ▸ hp) he ht

/-- I is written by CFG only, and cleared by it (R17, R42). -/
theorem step_i (h : step s = .next t) :
    t.seq.i = s.seq.i ∨ (commandInCycle s = some .cfg ∧ t.seq.i = false) := by
  obtain ⟨-, -, hs⟩ := step_next h
  cases hs with
  | fetchFault m _ _ ht => subst ht; exact .inl rfl
  | cycle r h1 h2 =>
    have hr : r.seq.i = s.seq.i ∨ (commandInCycle s = some .cfg ∧ r.seq.i = false) := by
      cases h1 with
      | inside j _ hr => subst hr; exact .inl rfl
      | stall _ _ _ hr => subst hr; exact .inl (by simp)
      | issue j hn hd hf hr =>
        by_cases hj : j = .cfg
        · have hc : r.seq.cur = some .cfg := by simp [hr, hj]
          exact .inr ⟨(StepOne.issue j hn hd hf hr).commandInCycle hc, by simp [hr, hj]⟩
        · exact .inl (by simp [hr, hj])
    have ht : t.seq.i = r.seq.i := by
      cases h2 with
      | periphFault m _ ht => subst ht; rfl
      | idle u _ _ ht => subst ht; rfl
      | busy u j _ _ _ ht => subst ht; rfl
      | effect u j e _ _ _ he ht => subst ht; exact (exec_next he).1.i
      | raised u j m _ _ _ _ ht => subst ht; rfl
    rwa [ht]

/-- The cycle's command is a transmit. -/
def Transmits (s : State) : Prop := commandInCycle s = some .txs ∨ ∃ v, commandInCycle s = some (.txi v)

/-- What a step makes of the unit: a fault leaves it alone, and otherwise it is the peripheral step's, with the writes of
CFG, START or a transmit in the cycle they take effect in (R92 to R94, R97). -/
inductive UnitStep (s t : State) : Prop
  | kept (hclk : t.clk = s.clk) (hf : t.fault ≠ none)
  | periph (hp : periph s.cfg s.cyc s.clk = .ok t.clk)
  | cfg (u : ClockUnit) (hp : Machine.periph s.cfg s.cyc s.clk = .ok u) (hi : commandInCycle s = some .cfg)
      (hst : u.st = .unconfigured) (hclk : t.clk = configureUnit s.cfg u)
  | start (u : ClockUnit) (hp : Machine.periph s.cfg s.cyc s.clk = .ok u) (hi : commandInCycle s = some .start)
      (hst : u.st = .configured) (hclk : t.clk = releaseUnit s.cyc u)
  | transmit (u : ClockUnit) (w : Half) (hp : Machine.periph s.cfg s.cyc s.clk = .ok u) (hi : Transmits s)
      (hst : u.st ≠ .unconfigured) (hfull : u.txfull = false) (hclk : t.clk = bufferWord s.cyc w u)

/-- Every step is one of these for the unit. -/
theorem step_unit (h : step s = .next t) : UnitStep s t := by
  cases step_effect h with
  | none _ hclk =>
    rcases hclk with ⟨hclk, hf⟩ | hp
    · exact .kept hclk hf
    · exact .periph hp
  | command i p e hi _ hcfg hcyc hp he ht =>
    have hclk : t.clk = e.clk := by rw [ht]; rfl
    rw [← hcfg, ← hcyc] at hp
    rcases (exec_next he).2.unit with hu | ⟨rfl, hst, hu⟩ | ⟨rfl, hst, hu⟩ | ⟨htx, hst, hfull, w, hu⟩
    · exact .periph (by rw [hclk, hu, ← hcfg, ← hcyc]; exact hp)
    · exact .cfg p.clk (by rwa [← hcfg, ← hcyc]) hi hst (by rw [hclk, hu, hcfg])
    · exact .start p.clk (by rwa [← hcfg, ← hcyc]) hi hst (by rw [hclk, hu, hcyc])
    · refine .transmit p.clk w (by rwa [← hcfg, ← hcyc]) ?_ hst hfull (by rw [hclk, hu, hcyc])
      rcases htx with rfl | ⟨v, rfl⟩
      · exact .inl hi
      · exact .inr ⟨v, hi⟩

end

/-! A field of the unit that the peripheral step never writes changes in a cycle of a command that writes it. -/

section
variable {s t : State} {α : Type} {f : ClockUnit → α}

/-- The command that changed the field is one of those that do not keep it in every unit. -/
theorem step_unit_field (h : step s = .next t) (hf : ∀ u, SameUnit s.clk u → f u = f s.clk) (hne : f t.clk ≠ f s.clk) :
    (commandInCycle s = some .cfg ∧ ¬ ∀ c u, f (configureUnit c u) = f u) ∨
    (commandInCycle s = some .start ∧ ¬ ∀ n u, f (releaseUnit n u) = f u) ∨
    (Transmits s ∧ ¬ ∀ n w u, f (bufferWord n w u) = f u) := by
  cases step_unit h with
  | kept hclk _ => rw [hclk] at hne; exact absurd rfl hne
  | periph hp => exact absurd (hf _ (periph_sameUnit hp)) hne
  | cfg u hp hi _ hclk =>
    rw [hclk, ← hf u (periph_sameUnit hp)] at hne
    exact .inl ⟨hi, fun hk => hne (hk _ _)⟩
  | start u hp hi _ hclk =>
    rw [hclk, ← hf u (periph_sameUnit hp)] at hne
    exact .inr (.inl ⟨hi, fun hk => hne (hk _ _)⟩)
  | transmit u w hp hi _ _ hclk =>
    rw [hclk, ← hf u (periph_sameUnit hp)] at hne
    exact .inr (.inr ⟨hi, fun hk => hne (hk _ _ _)⟩)

/-- A field that transmits leave alone changes in a cycle of CFG or START only. -/
theorem step_unit_field_cfg_start (h : step s = .next t) (hf : ∀ u, SameUnit s.clk u → f u = f s.clk)
    (htx : ∀ n w u, f (bufferWord n w u) = f u) (hne : f t.clk ≠ f s.clk) :
    commandInCycle s = some .cfg ∨ commandInCycle s = some .start := by
  rcases step_unit_field h hf hne with ⟨hi, -⟩ | ⟨hi, -⟩ | ⟨-, hk⟩
  · exact .inl hi
  · exact .inr hi
  · exact absurd htx hk

/-- A field that START leaves alone changes in a cycle of CFG or of a transmit only. -/
theorem step_unit_field_cfg_transmit (h : step s = .next t) (hf : ∀ u, SameUnit s.clk u → f u = f s.clk)
    (hstart : ∀ n u, f (releaseUnit n u) = f u) (hne : f t.clk ≠ f s.clk) :
    commandInCycle s = some .cfg ∨ Transmits s := by
  rcases step_unit_field h hf hne with ⟨hi, -⟩ | ⟨-, hk⟩ | ⟨hi, -⟩
  · exact .inl hi
  · exact absurd hstart hk
  · exact .inr hi

/-- A field that START and transmits leave alone changes in a cycle of CFG only. -/
theorem step_unit_field_cfg (h : step s = .next t) (hf : ∀ u, SameUnit s.clk u → f u = f s.clk)
    (hstart : ∀ n u, f (releaseUnit n u) = f u) (htx : ∀ n w u, f (bufferWord n w u) = f u)
    (hne : f t.clk ≠ f s.clk) : commandInCycle s = some .cfg := by
  rcases step_unit_field h hf hne with ⟨hi, -⟩ | ⟨-, hk⟩ | ⟨-, hk⟩
  · exact hi
  · exact absurd hstart hk
  · exact absurd htx hk

/-- R is written by START only (R38). -/
theorem step_release (h : step s = .next t) (hne : t.clk.release ≠ s.clk.release) :
    commandInCycle s = some .start := by
  rcases step_unit_field (f := (·.release)) h (fun _ hu => hu.release) hne with ⟨-, hk⟩ | ⟨hi, -⟩ | ⟨-, hk⟩
  · exact absurd (fun _ _ => rfl) hk
  · exact hi
  · exact absurd (fun _ _ _ => rfl) hk

/-- A buffer that a step fills was filled by a transmit: the peripheral step only empties it (R20). -/
theorem step_txfull_set (h : step s = .next t) (hs : s.clk.txfull = false) (ht : t.clk.txfull = true) : Transmits s := by
  have hempty : ∀ {u}, periph s.cfg s.cyc s.clk = .ok u → u.txfull = false := fun hp =>
    (periph_txfull hp).elim (fun hk => hk.trans hs) And.left
  cases step_unit h with
  | kept hclk _ => rw [hclk, hs] at ht; cases ht
  | periph hp => rw [hempty hp] at ht; cases ht
  | cfg u _ _ _ hclk => rw [hclk] at ht; cases ht
  | start u hp _ _ hclk =>
    rw [hclk] at ht
    exact absurd ht (by simp [releaseUnit, hempty hp])
  | transmit u w _ hi _ _ _ => exact hi

/-- A buffer that a step empties was emptied by CFG or at a load point (R20, R101). -/
theorem step_txfull_clear (h : step s = .next t) (hs : s.clk.txfull = true) (ht : t.clk.txfull = false) :
    commandInCycle s = some .cfg ∨ atLoadPoint s.cfg s.clk := by
  have hload : ∀ {u}, periph s.cfg s.cyc s.clk = .ok u → u.txfull = false → atLoadPoint s.cfg s.clk := fun hp hu =>
    (periph_txfull hp).elim (fun hk => nomatch hs.symm.trans (hk.symm.trans hu)) And.right
  cases step_unit h with
  | kept hclk _ => rw [hclk, hs] at ht; cases ht
  | periph hp => exact .inr (hload hp ht)
  | cfg u _ hi _ _ => exact .inl hi
  | start u hp _ _ hclk => rw [hclk] at ht; exact .inr (hload hp ht)
  | transmit u w _ _ _ _ hclk => rw [hclk] at ht; cases ht

/-- In a configured unit no command writes the counters, the lines or the shift register (R65). -/
theorem step_configured_unit (h : step s = .next t) (hs : s.clk.st ≠ .unconfigured) (hf : t.fault = none) :
    ∃ u, periph s.cfg s.cyc s.clk = .ok u ∧ SameCounters u t.clk ∧
      t.clk.sd = u.sd ∧ t.clk.sr = u.sr ∧ t.clk.bitpos = u.bitpos := by
  cases step_unit h with
  | kept _ hfault => exact absurd hf hfault
  | periph hp => exact ⟨_, hp, ⟨rfl, rfl, rfl, rfl, rfl⟩, rfl, rfl, rfl⟩
  | cfg u hp _ hst _ => exact absurd ((periph_sameUnit hp).st.symm.trans hst) hs
  | start u hp _ _ hclk => rw [hclk]; exact ⟨u, hp, ⟨rfl, rfl, rfl, rfl, rfl⟩, rfl, rfl, rfl⟩
  | transmit u w hp _ _ _ hclk => rw [hclk]; exact ⟨u, hp, ⟨rfl, rfl, rfl, rfl, rfl⟩, rfl, rfl, rfl⟩

/-- STATE stays, or moves one place forward (R19). -/
theorem step_st (h : step s = .next t) :
    t.clk.st = s.clk.st ∨ (s.clk.st = .unconfigured ∧ t.clk.st = .configured) ∨
      (s.clk.st = .configured ∧ t.clk.st = .running) := by
  cases step_unit h with
  | kept hclk _ => exact .inl (by rw [hclk])
  | periph hp => exact .inl (periph_sameUnit hp).st
  | cfg u hp _ hst hclk => exact .inr (.inl ⟨(periph_sameUnit hp).st.symm.trans hst, by rw [hclk]; rfl⟩)
  | start u hp _ hst hclk => exact .inr (.inr ⟨(periph_sameUnit hp).st.symm.trans hst, by rw [hclk]; rfl⟩)
  | transmit u w hp _ _ _ hclk => exact .inl (by rw [hclk]; exact (periph_sameUnit hp).st)

/-- A register of the sequencer or the oscillator that changes was changed by the cycle's command, in its last cycle. -/
theorem step_register {g : State → α} (h : step s = .next t) (hg : ∀ x, SameRegisters s x → g x = g s)
    (hend : ∀ x, g (tick (retire x)) = g x) (hne : g t ≠ g s) :
    ∃ i p e, commandInCycle s = some i ∧ g p = g s ∧ Effect i p e ∧ g e ≠ g p := by
  cases step_effect h with
  | none hr _ => exact absurd (hg t hr) hne
  | command i p e hi hr _ _ _ he ht =>
    refine ⟨i, p, e, hi, hg p hr, (exec_next he).2, fun heq => hne ?_⟩
    rw [ht, hend, heq, hg p hr]

theorem step_sreg (h : step s = .next t) (hne : t.seq.sreg ≠ s.seq.sreg) :
    commandInCycle s = some .getf ∨ commandInCycle s = some .getn := by
  obtain ⟨i, p, e, hi, -, he, hch⟩ := step_register (g := (·.seq.sreg)) h (fun _ hr => hr.sreg) (fun _ => rfl) hne
  rcases he.sreg with hk | rfl | rfl
  · exact absurd hk hch
  · exact .inl hi
  · exact .inr hi

theorem step_lc (h : step s = .next t) (hne : t.seq.lc ≠ s.seq.lc) :
    ∃ v, commandInCycle s = some (.ldlc v) ∨ commandInCycle s = some (.djnz v) := by
  obtain ⟨i, p, e, hi, -, he, hch⟩ := step_register (g := (·.seq.lc)) h (fun _ hr => hr.lc) (fun _ => rfl) hne
  rcases he.lc with hk | ⟨v, rfl | rfl⟩
  · exact absurd hk hch
  · exact ⟨v, .inl hi⟩
  · exact ⟨v, .inr hi⟩

theorem step_halted (h : step s = .next t) (hne : t.seq.halted ≠ s.seq.halted) : commandInCycle s = some .halt := by
  obtain ⟨i, p, e, hi, -, he, hch⟩ := step_register (g := (·.seq.halted)) h (fun _ hr => hr.halted) (fun _ => rfl) hne
  rcases he.halted with hk | rfl
  · exact absurd hk hch
  · exact hi

theorem step_osc (h : step s = .next t) (hne : t.osc ≠ s.osc) :
    commandInCycle s = some .getn ∨ ∃ f a, commandInCycle s = some (.tone f a) := by
  obtain ⟨i, p, e, hi, -, he, hch⟩ := step_register (g := (·.osc)) h (fun _ hr => hr.osc) (fun _ => rfl) hne
  rcases he.osc with hk | ⟨rfl, -⟩ | ⟨f, a, rfl, -⟩
  · exact absurd hk hch
  · exact .inl hi
  · exact .inr ⟨f, a, hi⟩

/-- PC changes where a command other than HALT retires (R16, R129). -/
theorem step_pc (h : step s = .next t) (hne : t.seq.pc ≠ s.seq.pc) :
    t.seq.cur = none ∧ ∃ i, commandInCycle s = some i ∧ i ≠ .halt ∧
      (t.seq.pc = s.seq.pc + 1 ∨ i = .jmp t.seq.pc ∨ i = .djnz t.seq.pc) := by
  cases step_effect h with
  | none hr _ => exact absurd hr.pc hne
  | command i p e hi hr _ _ _ he ht =>
    subst ht
    rw [← hr.pc] at hne ⊢
    rcases exec_pc he with ⟨-, hk⟩ | ⟨hhalt, hpc⟩
    · exact absurd hk hne
    · exact ⟨rfl, i, hi, hhalt, hpc⟩

/-- No command clears TVALID (R21). -/
theorem step_tvalid (h : step s = .next t) (hs : s.osc.tvalid = true) : t.osc.tvalid = true := by
  by_contra hne
  obtain ⟨i, p, e, -, hp, he, hch⟩ := step_register (g := (·.osc.tvalid)) h (fun _ hr => congrArg (·.tvalid) hr.osc)
    (fun _ => rfl) (fun heq => hne (heq.trans hs))
  rcases he.osc with hk | ⟨-, hk⟩ | ⟨f, a, -, hk⟩
  · exact hch (congrArg (·.tvalid) hk)
  · exact hch (congrArg (·.tvalid) hk)
  · exact hch ((congrArg (·.tvalid) hk).trans (hp.trans hs).symm)

end

/-- Settles O28: a change outside the peripheral step is the effect of the cycle's command, and each command's effect names
what it writes. -/
theorem registersChangeOnlyByTheirCommands : Obligations.RegistersChangeOnlyByTheirCommands := by
  refine ⟨fun s t h => ⟨step_sreg h, step_lc h, step_osc h, ?st, ?i, step_halted h, step_pc h, ?hold, ?mode, ?bocr, ?wocr,
    ?txbuf, ?txt, step_txfull_set h, step_txfull_clear h, step_release h, fun hs hf => ?unit⟩, fun c n u v h => ?frame⟩
  case st => exact step_unit_field_cfg_start h (fun _ hu => hu.st) (fun _ _ _ => rfl)
  case hold => exact step_unit_field_cfg_start h (fun _ hu => hu.hold) (fun _ _ _ => rfl)
  case mode => exact step_unit_field_cfg h (fun _ hu => hu.mode) (fun _ _ => rfl) (fun _ _ _ => rfl)
  case bocr => exact step_unit_field_cfg h (fun _ hu => hu.bocr) (fun _ _ => rfl) (fun _ _ _ => rfl)
  case wocr => exact step_unit_field_cfg h (fun _ hu => hu.wocr) (fun _ _ => rfl) (fun _ _ _ => rfl)
  case txbuf => exact step_unit_field_cfg_transmit h (fun _ hu => hu.txbuf) (fun _ _ => rfl)
  case txt => exact step_unit_field_cfg_transmit h (fun _ hu => hu.txt) (fun _ _ => rfl)
  case i => exact fun hne => ((step_i h).resolve_left hne).1
  case unit =>
    obtain ⟨u, hp, hc, hsd, hsr, hpos⟩ := step_configured_unit h hs hf
    exact ⟨u, hp, hc.bcnt, hc.wcnt, hc.dead, hc.bclk, hc.ws, hsd, hsr, hpos⟩
  case frame =>
    have hu := periph_sameUnit h
    exact ⟨hu.st, hu.hold, hu.mode, hu.bocr, hu.wocr, hu.txbuf, hu.txt, hu.release⟩

/-- Settles O29: CFG alone writes I, and clears it; TONE and GETN alone write the oscillator, and leave TVALID = 1; CFG and
START alone write STATE. -/
theorem statusMovesForwardOnly : Obligations.StatusMovesForwardOnly := by
  intro s t h
  obtain ⟨hf, hh, -⟩ := step_next h
  refine ⟨fun hi => ?masked, step_tvalid h, step_st h, hh, hf⟩
  case masked =>
    rcases step_i h with hk | ⟨-, hclear⟩
    · exact hk.symm.trans hi
    · rw [hclear] at hi; cases hi

end Sys2Proof.Machine

namespace Sys2Proof.Machine

/-! ### The loaded image -/

/-- Settles O55: a launch loads the words from index 0 into the empty memory, whose words are 0. -/
theorem loadedImageIsWhatIsFetched : Obligations.LoadedImageIsWhatIsFetched := by
  intro c words i s h j
  obtain ⟨-, rfl⟩ := launchWords_next h
  have hempty : Memory.readWord [] j = 0 := by simp [Memory.readWord, Memory.unlisted, wordOfBytes]
  calc (Memory.loadWords [] 0 words).readWord j
      = words.getD (j - 0) (Memory.readWord [] j) := by
        rw [Memory.readWord_loadWords words [] 0 j rfl, if_pos (Nat.zero_le j)]
    _ = words.getD j 0 := by rw [Nat.sub_zero, hempty]

/-! ### The byte image -/

/-- The number of two fields put side by side. -/
theorem toNat_append_eq_add {m n : Nat} (x : BitVec m) (y : BitVec n) :
    (x ++ y).toNat = 2 ^ n * x.toNat + y.toNat := by
  rw [BitVec.toNat_append, ← Nat.shiftLeft_add_eq_or_of_lt y.isLt, Nat.shiftLeft_eq, Nat.mul_comm]

/-- Byte k of a word weighs 256^k (R52). -/
theorem wordOfBytes_toNat (b0 b1 b2 b3 : Byte) :
    (wordOfBytes b0 b1 b2 b3).toNat = b0.toNat + 256 * b1.toNat + 65536 * b2.toNat + 16777216 * b3.toNat := by
  simp only [wordOfBytes, toNat_append_eq_add]
  omega

@[simp] theorem length_bytesOfWord (w : Word) : (bytesOfWord w).length = 4 := rfl

/-- A word's bytes at the head of an image are read as that word. -/
theorem wordsOfImage_bytesOfWord_append (w : Word) (bytes : List Byte) :
    wordsOfImage (bytesOfWord w ++ bytes) = (wordsOfImage bytes).map (w :: ·) := by
  simp only [bytesOfWord, List.cons_append, List.nil_append, wordsOfImage, wordOfBytes_bytesOfWord]

/-- The image of a list of words is read as those words. -/
@[simp] theorem wordsOfImage_flatMap_bytesOfWord (words : List Word) :
    wordsOfImage (words.flatMap bytesOfWord) = some words := by
  induction words with
  | nil => rfl
  | cons w words ih => rw [List.flatMap_cons, wordsOfImage_bytesOfWord_append, ih]; rfl

/-- An image that is read as words is the image of those words. -/
theorem flatMap_bytesOfWord_of_wordsOfImage {bytes : List Byte} {words : List Word}
    (h : wordsOfImage bytes = some words) : words.flatMap bytesOfWord = bytes := by
  induction bytes using wordsOfImage.induct generalizing words with
  | case1 => cases h; rfl
  | case2 b0 b1 b2 b3 rest ih =>
    obtain ⟨tail, htail, rfl⟩ := Option.map_eq_some_iff.mp h
    rw [List.flatMap_cons, bytesOfWord_wordOfBytes, ih htail]; rfl
  | case3 => simp [wordsOfImage] at h

/-- An image with a partial word is not read as words (R56). -/
theorem wordsOfImage_of_partialWord {bytes : List Byte} (h : bytes.length % 4 ≠ 0) : wordsOfImage bytes = none := by
  cases hw : wordsOfImage bytes with
  | none => rfl
  | some words =>
    have hlen : bytes.length = words.length * 4 := by
      rw [← flatMap_bytesOfWord_of_wordsOfImage hw]
      simp [List.length_flatMap]
    omega

/-- The launch of an image that is read as words is the launch of those words. -/
theorem launch_of_words {bytes : List Byte} {words : List Word} (h : wordsOfImage bytes = some words) (c : Config)
    (i : Option Bool) : launch c bytes i = launchWords c words i := by
  simp only [launch, h]

/-- Settles O56: `wordsOfImage` and `flatMap bytesOfWord` are inverse, so a partial word is the image of no words. -/
theorem byteImageIsLittleEndian : Obligations.ByteImageIsLittleEndian := by
  refine ⟨fun b0 b1 b2 b3 => ⟨_, rfl, wordOfBytes_toNat b0 b1 b2 b3⟩, wordsOfImage_flatMap_bytesOfWord,
    fun _ _ h => flatMap_bytesOfWord_of_wordsOfImage h,
    fun c words i => launch_of_words (wordsOfImage_flatMap_bytesOfWord words) c i, fun c bytes i h => ?partialWord⟩
  case partialWord => simp only [launch, wordsOfImage_of_partialWord h]

/-! ### The host's accesses -/

/-- R55's condition on a read, as arithmetic. -/
theorem legalRead_iff {c : Config} {addr size : Nat} : legalRead c addr size = true ↔
    size = 4 ∧ c.mmioBase ≤ addr ∧ addr < c.mmioBase + 256 ∧ (addr - c.mmioBase) % 4 = 0 := by
  simp [legalRead, and_assoc]

theorem hostAccess_read_of_legal {s : State} {addr size : Nat} (h : legalRead s.cfg addr size = true) :
    hostAccess s (.read addr size) = .next (windowRegister s (addr - s.cfg.mmioBase)) :=
  if_pos h

theorem hostAccess_read_of_not_legal {s : State} {addr size : Nat} (h : ¬ legalRead s.cfg addr size = true) :
    hostAccess s (.read addr size) = .refused .hostAccess :=
  if_neg h

/-- Settles O57: a read is answered exactly when it is legal, and no write is. -/
theorem hostReadsOnlyAlignedWindowWords : Obligations.HostReadsOnlyAlignedWindowWords := by
  intro s addr size v
  refine ⟨fun off hlt hal => ?legal, fun h => hostAccess_read_of_not_legal fun hl => ?illegal, rfl⟩
  case legal =>
    have hoff : s.cfg.mmioBase + off - s.cfg.mmioBase = off := by omega
    rw [hostAccess_read_of_legal (legalRead_iff.mpr ⟨rfl, by omega, by omega, by rw [hoff]; exact hal⟩), hoff]
  case illegal =>
    obtain ⟨hsize, hlo, hhi, hal⟩ := legalRead_iff.mp hl
    omega

end Sys2Proof.Machine

/-! The encoding (30_encoding.md): a word by its four bytes, `decode` by the rows of the opcode map, and the two round
trips. -/

namespace Sys2Proof

/-! ### A word by its bytes (R52, R71) -/

/-- Every word is the word of its four bytes. -/
theorem exists_wordOfBytes (w : Word) : ∃ b0 b1 b2 b3, w = wordOfBytes b0 b1 b2 b3 :=
  ⟨_, _, _, _, (wordOfBytes_bytesOfWord w).symm⟩

theorem wordOfBytes_inj {a0 a1 a2 a3 b0 b1 b2 b3 : Byte} :
    wordOfBytes a0 a1 a2 a3 = wordOfBytes b0 b1 b2 b3 ↔ a0 = b0 ∧ a1 = b1 ∧ a2 = b2 ∧ a3 = b3 := by
  constructor
  · intro h
    simpa [bytesOfWord_wordOfBytes] using congrArg bytesOfWord h
  · rintro ⟨rfl, rfl, rfl, rfl⟩
    rfl

theorem wordOfBytes_and (a0 a1 a2 a3 b0 b1 b2 b3 : Byte) :
    wordOfBytes a0 a1 a2 a3 &&& wordOfBytes b0 b1 b2 b3 =
      wordOfBytes (a0 &&& b0) (a1 &&& b1) (a2 &&& b2) (a3 &&& b3) := by
  simp only [wordOfBytes, ← BitVec.and_append]

theorem wordOfBytes_and_eq_zero_iff {b0 b1 b2 b3 m0 m1 m2 : Byte} :
    wordOfBytes b0 b1 b2 b3 &&& wordOfBytes m0 m1 m2 0#8 = 0 ↔
      b0 &&& m0 = 0#8 ∧ b1 &&& m1 = 0#8 ∧ b2 &&& m2 = 0#8 := by
  rw [wordOfBytes_and, show (0 : Word) = wordOfBytes 0#8 0#8 0#8 0#8 by decide, wordOfBytes_inj]
  simp

@[simp] theorem opcodeOf_wordOfBytes (b0 b1 b2 b3 : Byte) : opcodeOf (wordOfBytes b0 b1 b2 b3) = b3 := by
  apply BitVec.eq_of_toNat_eq
  rw [opcodeOf, BitVec.extractLsb'_toNat, Machine.wordOfBytes_toNat, Nat.shiftRight_eq_div_pow]
  omega

@[simp] theorem low8_wordOfBytes (b0 b1 b2 b3 : Byte) : low8 (wordOfBytes b0 b1 b2 b3) = b0 :=
  BitVec.extractLsb'_append_eq_right

@[simp] theorem low16_wordOfBytes (b0 b1 b2 b3 : Byte) : low16 (wordOfBytes b0 b1 b2 b3) = b1 ++ b0 := by
  apply BitVec.eq_of_toNat_eq
  rw [low16, BitVec.extractLsb'_toNat, Machine.wordOfBytes_toNat, toNat_append_add, Nat.shiftRight_eq_div_pow]
  omega

@[simp] theorem mid16_wordOfBytes (b0 b1 b2 b3 : Byte) : mid16 (wordOfBytes b0 b1 b2 b3) = b2 ++ b1 := by
  apply BitVec.eq_of_toNat_eq
  rw [mid16, BitVec.extractLsb'_toNat, Machine.wordOfBytes_toNat, toNat_append_add, Nat.shiftRight_eq_div_pow]
  omega

theorem wordNone_eq_wordOfBytes (op : Byte) : wordNone op = wordOfBytes 0#8 0#8 0#8 op :=
  BitVec.eq_of_toNat_eq (by simp [Machine.wordOfBytes_toNat, Nat.mul_comm])

theorem wordU8_eq_wordOfBytes (op k : Byte) : wordU8 op k = wordOfBytes k 0#8 0#8 op :=
  BitVec.eq_of_toNat_eq (by simp [Machine.wordOfBytes_toNat]; omega)

theorem wordU16_append_eq_wordOfBytes (op v1 v0 : Byte) : wordU16 op (v1 ++ v0) = wordOfBytes v0 v1 0#8 op :=
  BitVec.eq_of_toNat_eq
    (by rw [wordU16_toNat, toNat_append_add, Machine.wordOfBytes_toNat, BitVec.toNat_ofNat]; omega)

theorem wordTone_append_eq_wordOfBytes (op f1 f0 a : Byte) : wordTone op (f1 ++ f0) a = wordOfBytes a f0 f1 op :=
  BitVec.eq_of_toNat_eq (by rw [wordTone_toNat, toNat_append_add, Machine.wordOfBytes_toNat]; omega)

/-! ### The operand fields of the encoder's words (R72) -/

@[simp] theorem low8_wordU8 (op k : Byte) : low8 (wordU8 op k) = k :=
  BitVec.extractLsb'_append_eq_right

@[simp] theorem low16_wordU16 (op : Byte) (v : Half) : low16 (wordU16 op v) = v :=
  BitVec.extractLsb'_append_eq_right

@[simp] theorem low8_wordTone (op : Byte) (f : Half) (a : Byte) : low8 (wordTone op f a) = a :=
  BitVec.extractLsb'_append_eq_right

@[simp] theorem mid16_wordTone (op : Byte) (f : Half) (a : Byte) : mid16 (wordTone op f a) = f := by
  apply BitVec.eq_of_toNat_eq
  rw [mid16, BitVec.extractLsb'_toNat, wordTone_toNat, Nat.shiftRight_eq_div_pow]
  omega

/-! ### The must-be-0 bits of a form (R72) -/

/-- The word that a form makes of an opcode and of its operand fields as they stand in `w`. -/
def Form.wordFrom (f : Form) (op : Byte) (w : Word) : Word :=
  match f with
  | .none => wordNone op
  | .u8 => wordU8 op (low8 w)
  | .u16 => wordU16 op (low16 w)
  | .tone => wordTone op (mid16 w) (low8 w)

/-- The must-be-0 bits are all the bits of some of the word's lower three bytes. -/
theorem Form.mustBeZero_eq_wordOfBytes (f : Form) : f.mustBeZero =
    match f with
    | .none => wordOfBytes (BitVec.allOnes 8) (BitVec.allOnes 8) (BitVec.allOnes 8) 0#8
    | .u8 => wordOfBytes 0#8 (BitVec.allOnes 8) (BitVec.allOnes 8) 0#8
    | .u16 => wordOfBytes 0#8 0#8 (BitVec.allOnes 8) 0#8
    | .tone => wordOfBytes 0#8 0#8 0#8 0#8 := by
  cases f <;> decide

/-- A word has 0 in a form's must-be-0 bits exactly when the form makes it of its own opcode and fields: the one fact
behind both round trips. -/
theorem Form.and_mustBeZero_iff (f : Form) (w : Word) : w &&& f.mustBeZero = 0 ↔ w = f.wordFrom (opcodeOf w) w := by
  obtain ⟨b0, b1, b2, b3, rfl⟩ := exists_wordOfBytes w
  rw [f.mustBeZero_eq_wordOfBytes]
  cases f <;>
    simp only [wordFrom, wordNone_eq_wordOfBytes, wordU8_eq_wordOfBytes, wordU16_append_eq_wordOfBytes,
      wordTone_append_eq_wordOfBytes, opcodeOf_wordOfBytes, low8_wordOfBytes, low16_wordOfBytes, mid16_wordOfBytes,
      wordOfBytes_inj, wordOfBytes_and_eq_zero_iff, BitVec.and_allOnes, BitVec.and_zero, and_true, true_and]

/-! ### The rows of the opcode map (R74) -/

theorem row_eq_of_mnemonic : ∀ r ∈ opcodeMap, ∀ q ∈ opcodeMap, r.mnemonic = q.mnemonic → r = q := by decide

theorem row_eq_of_opcode : ∀ r ∈ opcodeMap, ∀ q ∈ opcodeMap, r.opcode = q.opcode → r = q := by decide

/-- A row's match word is its opcode with operand 0, and its mask the opcode's bits and the form's must-be-0 bits. -/
theorem row_match_mask : ∀ r ∈ opcodeMap,
    r.matchWord = wordNone r.opcode ∧ r.mask = 0xFF000000 ||| r.form.mustBeZero := by decide

/-- A row is the one that the decoder looks up for its opcode. -/
theorem find_row : ∀ r ∈ opcodeMap, (opcodeMap.find? fun q => q.opcode == r.opcode) = some r := by decide

/-! ### `decode` by rows (R75, R76) -/

theorem decode_of_row {w : Word} {r : OpRow} (hr : r ∈ opcodeMap) (ho : r.opcode = opcodeOf w) : decode w =
    if w &&& r.form.mustBeZero = 0 then .command (assembleFields r.mnemonic w) else .illegal .mustBeZero := by
  rw [decode, ← ho, find_row r hr]

theorem decode_of_no_row {w : Word} (h : ∀ r ∈ opcodeMap, r.opcode ≠ opcodeOf w) :
    decode w = .illegal .unknownOpcode := by
  rw [decode, List.find?_eq_none.mpr (by simpa using h)]

theorem no_row_or_row (w : Word) :
    (∀ r ∈ opcodeMap, r.opcode ≠ opcodeOf w) ∨ ∃ r ∈ opcodeMap, r.opcode = opcodeOf w := by
  by_cases h : ∃ r ∈ opcodeMap, r.opcode = opcodeOf w
  · exact .inr h
  · exact .inl fun r hr ho => h ⟨r, hr, ho⟩

theorem decode_eq_command_iff {w : Word} {i : Instr} : decode w = .command i ↔
    ∃ r ∈ opcodeMap, r.opcode = opcodeOf w ∧ w &&& r.form.mustBeZero = 0 ∧ assembleFields r.mnemonic w = i := by
  constructor
  · intro h
    rcases no_row_or_row w with hno | ⟨r, hr, ho⟩
    · rw [decode_of_no_row hno] at h
      cases h
    · rw [decode_of_row hr ho] at h
      split_ifs at h with hz
      exact ⟨r, hr, ho, hz, Decoded.command.inj h⟩
  · rintro ⟨r, hr, ho, hz, rfl⟩
    rw [decode_of_row hr ho, if_pos hz]

theorem decode_illegal_iff {w : Word} : (∃ why, decode w = .illegal why) ↔
    (∀ r ∈ opcodeMap, r.opcode ≠ opcodeOf w) ∨
      ∃ r ∈ opcodeMap, r.opcode = opcodeOf w ∧ w &&& r.form.mustBeZero ≠ 0 := by
  constructor
  · rintro ⟨why, h⟩
    refine (no_row_or_row w).imp_right ?_
    rintro ⟨r, hr, ho⟩
    refine ⟨r, hr, ho, fun hz => ?_⟩
    rw [decode_of_row hr ho, if_pos hz] at h
    cases h
  · rintro (hno | ⟨r, hr, ho, hz⟩)
    · exact ⟨_, decode_of_no_row hno⟩
    · exact ⟨_, by rw [decode_of_row hr ho, if_neg hz]⟩

/-! ### The round trips -/

@[simp] theorem mnemonic_assembleFields (m : Mnemonic) (w : Word) : (assembleFields m w).mnemonic = m := by
  cases m <;> rfl

/-- The encoder makes of the fields that the decoder reads the word of the row's form. -/
theorem encode_assembleFields (w : Word) : ∀ r ∈ opcodeMap,
    encode (assembleFields r.mnemonic w) = r.form.wordFrom r.opcode w := by
  simp only [opcodeMap, List.forall_mem_cons]
  exact ⟨rfl, rfl, rfl, rfl, rfl, rfl, rfl, rfl, rfl, rfl, rfl, rfl, rfl, rfl, List.forall_mem_nil _⟩

/-- The decoder's field readers give back the operands of a command. -/
theorem assembleFields_encode (i : Instr) : assembleFields i.mnemonic (encode i) = i := by
  cases i <;> simp [Instr.mnemonic, encode, assembleFields]

/-- Every command's word has the opcode of the row of its mnemonic. -/
theorem opcode_statement (i : Instr) : Laws.Opcode.Statement i := by
  cases i with
  | nop => exact Laws.Opcode.nop
  | dly8 k => exact Laws.Opcode.dly8 k
  | dly16 k => exact Laws.Opcode.dly16 k
  | cfg => exact Laws.Opcode.cfg
  | start => exact Laws.Opcode.start
  | txi v => exact Laws.Opcode.txi v
  | txs => exact Laws.Opcode.txs
  | tone f a => exact Laws.Opcode.tone f a
  | getf => exact Laws.Opcode.getf
  | getn => exact Laws.Opcode.getn
  | ldlc v => exact Laws.Opcode.ldlc v
  | djnz t => exact Laws.Opcode.djnz t
  | jmp t => exact Laws.Opcode.jmp t
  | halt => exact Laws.Opcode.halt

theorem decode_encode (i : Instr) : decode (encode i) = .command i := by
  obtain ⟨r, hfind, hm⟩ := opcode_statement i
  have hr : r ∈ opcodeMap := List.mem_of_find?_eq_some hfind
  have ho : r.opcode = opcodeOf (encode i) := by simpa using List.find?_some hfind
  have hback : assembleFields r.mnemonic (encode i) = i := by rw [hm, assembleFields_encode]
  have hword : encode i = r.form.wordFrom (opcodeOf (encode i)) (encode i) := by
    rw [← ho, ← encode_assembleFields _ r hr, hback]
  exact decode_eq_command_iff.mpr ⟨r, hr, ho, (r.form.and_mustBeZero_iff _).mpr hword, hback⟩

theorem encode_of_decode {w : Word} {i : Instr} (h : decode w = .command i) : encode i = w := by
  obtain ⟨r, hr, ho, hz, rfl⟩ := decode_eq_command_iff.mp h
  calc encode (assembleFields r.mnemonic w)
      = r.form.wordFrom (opcodeOf w) w := by rw [encode_assembleFields w r hr, ho]
    _ = w := ((r.form.and_mustBeZero_iff w).mp hz).symm

/-- Settles O1: the encoder's word has its row's opcode and is made of its own fields, so the decoder takes it. -/
theorem decodeOfEncode : Obligations.DecodeOfEncode := decode_encode

/-- Settles O2: a decoded word is the one that its row's form makes of its fields, and the encoder makes the same. -/
theorem encodeOfDecode : Obligations.EncodeOfDecode := fun _ _ => encode_of_decode

/-- Settles O5, by running the decoder on each word. -/
theorem sampleWordsDecode : Obligations.SampleWordsDecode := by
  unfold Obligations.SampleWordsDecode
  decide

/-! ### Match words and masks (R74) -/

/-- A mask of the opcode's bits and the must-be-0 bits compares the opcode and asks for 0 in the others. -/
theorem and_mask_iff (f : Form) (op : Byte) (w : Word) :
    w &&& (0xFF000000 ||| f.mustBeZero) = wordNone op ↔ op = opcodeOf w ∧ w &&& f.mustBeZero = 0 := by
  obtain ⟨b0, b1, b2, b3, rfl⟩ := exists_wordOfBytes w
  obtain ⟨m0, m1, m2, hm, hmask⟩ : ∃ m0 m1 m2, f.mustBeZero = wordOfBytes m0 m1 m2 0#8 ∧
      0xFF000000 ||| f.mustBeZero = wordOfBytes m0 m1 m2 (BitVec.allOnes 8) := by
    rw [f.mustBeZero_eq_wordOfBytes]
    cases f <;> exact ⟨_, _, _, rfl, by decide⟩
  rw [hmask, hm, wordOfBytes_and, wordNone_eq_wordOfBytes, wordOfBytes_inj, wordOfBytes_and_eq_zero_iff,
    opcodeOf_wordOfBytes, BitVec.and_allOnes]
  constructor
  · rintro ⟨h0, h1, h2, h3⟩
    exact ⟨h3.symm, h0, h1, h2⟩
  · rintro ⟨h3, h0, h1, h2⟩
    exact ⟨h0, h1, h2, h3.symm⟩

theorem and_mask_eq_matchWord_iff {r : OpRow} (hr : r ∈ opcodeMap) (w : Word) :
    w &&& r.mask = r.matchWord ↔ r.opcode = opcodeOf w ∧ w &&& r.form.mustBeZero = 0 := by
  obtain ⟨hmatch, hmask⟩ := row_match_mask r hr
  rw [hmatch, hmask, and_mask_iff]

/-- Settles O3: a word matches under a row's mask exactly when its opcode is the row's and no must-be-0 bit is 1. -/
theorem wordEncodesRowExactlyWhenItMatches : Obligations.WordEncodesRowExactlyWhenItMatches := by
  refine ⟨fun w r hr => ⟨?decoded, ?matching⟩, fun w r q hr hq h h' => ?overlap, fun w => decode_of_no_row⟩
  case decoded =>
    rintro ⟨i, hi, hm⟩
    obtain ⟨q, hq, ho, hz, rfl⟩ := decode_eq_command_iff.mp hi
    obtain rfl : q = r := row_eq_of_mnemonic q hq r hr (by rw [← hm, mnemonic_assembleFields])
    exact (and_mask_eq_matchWord_iff hr w).mpr ⟨ho, hz⟩
  case matching =>
    intro h
    obtain ⟨ho, hz⟩ := (and_mask_eq_matchWord_iff hr w).mp h
    exact ⟨_, decode_eq_command_iff.mpr ⟨r, hr, ho, hz, rfl⟩, mnemonic_assembleFields _ _⟩
  case overlap =>
    obtain ⟨ho, -⟩ := (and_mask_eq_matchWord_iff hr w).mp h
    obtain ⟨ho', -⟩ := (and_mask_eq_matchWord_iff hq w).mp h'
    exact row_eq_of_opcode r hr q hq (ho.trans ho'.symm)

/-! ### Illegal words (R76) -/

/-- Of the 256 opcodes the map lists 14 different ones. -/
theorem length_unlisted_opcodes :
    ((List.range 256).filter fun n => opcodeMap.all fun r => r.opcode.toNat != n).length = 242 := by
  have hlisted : ((List.range 256).filter fun n => !opcodeMap.all fun r => r.opcode.toNat != n).Perm
      (opcodeMap.map fun r => r.opcode.toNat) := by
    refine (List.perm_ext_iff_of_nodup (List.nodup_range.filter _) (by decide)).mpr fun n => ?_
    have hlt (r : OpRow) : r.opcode.toNat < 256 := r.opcode.isLt
    simp only [List.mem_filter, List.mem_range, List.mem_map, Bool.not_eq_true', List.all_eq_false, bne_iff_ne, ne_eq,
      not_not]
    exact ⟨And.right, fun ⟨r, hr, hn⟩ => ⟨hn ▸ hlt r, r, hr, hn⟩⟩
  have hsplit := List.length_eq_length_filter_add (l := List.range 256)
    fun n => opcodeMap.all fun r => r.opcode.toNat != n
  rw [hlisted.length_eq, List.length_map, List.length_range] at hsplit
  exact Nat.add_right_cancel hsplit.symm

theorem fetchDecode_illegal {s : Machine.State} {why : DecodeReject} (hp : s.seq.pc.toNat < s.cfg.progWords)
    (hd : decode (s.mem.readWord s.seq.pc.toNat) = .illegal why) :
    Machine.fetchDecode s = .error (.illegal (s.mem.readWord s.seq.pc.toNat)) := by
  rw [Machine.fetchDecode, if_neg (Nat.not_le.mpr hp), hd]

/-- Settles O4: `decode` by rows, the count of the opcodes outside the map, and the step that records the fetch's
fault. -/
theorem illegalWordsAreExactlyThese : Obligations.IllegalWordsAreExactlyThese :=
  ⟨fun _ => decode_illegal_iff, length_unlisted_opcodes, ⟨_, rfl⟩, ⟨_, rfl⟩,
    fun _ _ hb hn hp hd => Machine.step_fetch_fault hb hn (fetchDecode_illegal hp hd)⟩

/-! ### Words of operands given as numbers (R80's word column) -/

theorem wordU8_ofInt_of_range (op : Byte) {k : Int} (h0 : 0 ≤ k) (h1 : k ≤ 255) :
    wordU8 op (BitVec.ofInt 8 k) = BitVec.ofInt 32 (op.toNat * 2 ^ 24 + k) := by
  apply BitVec.eq_of_toNat_eq
  rw [wordU8_toNat, BitVec.toNat_ofInt, BitVec.toNat_ofInt]
  omega

theorem wordU16_ofInt (op : Byte) (v : Int) :
    wordU16 op (BitVec.ofInt 16 v) = BitVec.ofInt 32 (op.toNat * 2 ^ 24 + v % 65536) := by
  apply BitVec.eq_of_toNat_eq
  rw [wordU16_toNat, BitVec.toNat_ofInt, BitVec.toNat_ofInt]
  omega

theorem wordU16_ofInt_of_range (op : Byte) {v : Int} (h0 : 0 ≤ v) (h1 : v ≤ 65535) :
    wordU16 op (BitVec.ofInt 16 v) = BitVec.ofInt 32 (op.toNat * 2 ^ 24 + v) := by
  rw [wordU16_ofInt, Int.emod_eq_of_lt h0 (by omega)]

theorem wordTone_ofInt_of_range (op : Byte) {f : Int} (h0 : 0 ≤ f) (h1 : f ≤ 65535) (a : Int) :
    wordTone op (BitVec.ofInt 16 f) (BitVec.ofInt 8 a) =
      BitVec.ofInt 32 (op.toNat * 2 ^ 24 + f * 256 + a % 256) := by
  apply BitVec.eq_of_toNat_eq
  rw [wordTone_toNat, BitVec.toNat_ofInt, BitVec.toNat_ofInt, BitVec.toNat_ofInt]
  omega

theorem wordU8_ofNat (op : Byte) {n : Nat} (h : n < 256) :
    wordU8 op (BitVec.ofNat 8 n) = BitVec.ofNat 32 (op.toNat * 2 ^ 24 + n) := by
  apply BitVec.eq_of_toNat_eq
  rw [wordU8_toNat, BitVec.toNat_ofNat, BitVec.toNat_ofNat]
  omega

theorem wordU16_ofNat (op : Byte) {n : Nat} (h : n < 65536) :
    wordU16 op (BitVec.ofNat 16 n) = BitVec.ofNat 32 (op.toNat * 2 ^ 24 + n) := by
  apply BitVec.eq_of_toNat_eq
  rw [wordU16_toNat, BitVec.toNat_ofNat, BitVec.toNat_ofNat]
  omega

/-! ### The statements of R80's table -/

/-- A row of R80's table with its operand count and ranges, or DELAY with R87's range. -/
def Statement.InTable (s : Statement) : Prop :=
  s ∈ [⟨.command .nop, []⟩, ⟨.command .cfg, []⟩, ⟨.command .start, []⟩, ⟨.command .txs, []⟩, ⟨.command .getf, []⟩,
    ⟨.command .getn, []⟩, ⟨.command .halt, []⟩] ∨
  (∃ k : Int, 0 ≤ k ∧ k ≤ 255 ∧ s = ⟨.command .dly8, [.num k]⟩) ∨
  (∃ k : Int, 0 ≤ k ∧ k ≤ 65535 ∧ s = ⟨.command .dly16, [.num k]⟩) ∨
  (∃ v : Int, -32768 ≤ v ∧ v ≤ 65535 ∧ s = ⟨.command .txi, [.num v]⟩) ∨
  (∃ f a : Int, 0 ≤ f ∧ f ≤ 65535 ∧ -128 ≤ a ∧ a ≤ 127 ∧ s = ⟨.command .tone, [.num f, .num a]⟩) ∨
  (∃ v : Int, 0 ≤ v ∧ v ≤ 65535 ∧ s = ⟨.command .ldlc, [.num v]⟩) ∨
  (∃ t : Int, 0 ≤ t ∧ t ≤ 65535 ∧ (s = ⟨.command .djnz, [.num t]⟩ ∨ s = ⟨.command .jmp, [.num t]⟩)) ∨
  (∃ name, s = ⟨.command .djnz, [.label name]⟩ ∨ s = ⟨.command .jmp, [.label name]⟩) ∨
  (∃ n : Int, 0 ≤ n ∧ n ≤ 262143 ∧ s = ⟨.delay, [.num n]⟩)

theorem Statement.inTable_of_wellFormed {s : Statement} (h : s.WellFormed = true) : s.InTable := by
  obtain ⟨head, operands⟩ := s
  unfold WellFormed at h
  dsimp only at h
  split at h
  -- the rows of one number: DLY8, DLY16, TXI, LDLC and DELAY
  case h_2 | h_3 | h_6 | h_11 | h_15 =>
    obtain ⟨n, rfl, hlo, hhi⟩ := numIn_iff.mp h
    simp [InTable, hlo, hhi]
  -- TONE
  case h_8 =>
    obtain ⟨hf, ha⟩ := Bool.and_eq_true_iff.mp h
    obtain ⟨f, rfl, hflo, hfhi⟩ := numIn_iff.mp hf
    obtain ⟨a, rfl, halo, hahi⟩ := numIn_iff.mp ha
    simp [InTable, hflo, hfhi, halo, hahi]
  -- DJNZ and JMP
  case h_12 | h_13 =>
    rcases target_iff.mp h with ⟨n, rfl, hlo, hhi⟩ | ⟨name, rfl⟩
    · simp [InTable, hlo, hhi]
    · simp [InTable]
  -- no row
  case h_16 => cases h
  -- the rows without operands
  all_goals exact .inl (by decide)

theorem Statement.wellFormed_of_inTable {s : Statement} (h : s.InTable) : s.WellFormed = true := by
  rcases h with h | ⟨k, h0, h1, rfl⟩ | ⟨k, h0, h1, rfl⟩ | ⟨v, h0, h1, rfl⟩ | ⟨f, a, h0, h1, h2, h3, rfl⟩ |
    ⟨v, h0, h1, rfl⟩ | ⟨t, h0, h1, rfl | rfl⟩ | ⟨name, rfl | rfl⟩ | ⟨n, h0, h1, rfl⟩
  · revert s
    decide
  all_goals simp [WellFormed, numIn, target, *]

end Sys2Proof

/-! The assembler (R80, R81, R87): the words of each statement, and the index that a label operand becomes. -/

namespace Sys2Proof.Machine

/-! ### The words of a statement -/

theorem statementWords_of_expand {labels : Labels} {s : Statement} {is : List Instr} (hs : s.InTable)
    (h : expandStatement labels s = .ok is) : statementWords labels s = .ok (is.map encode) := by
  rw [statementWords, assembleStatement_ok.mpr ⟨Statement.wellFormed_of_inTable hs, h⟩]
  rfl

theorem statementWords_of_encode {labels : Labels} {s : Statement} {i : Instr} {w : Word} (hs : s.InTable)
    (h : expandStatement labels s = .ok [i]) (hw : encode i = w) : statementWords labels s = .ok [w] := by
  rw [statementWords_of_expand hs h, ← hw, List.map_singleton]

/-- The words of plan(n) (R87). -/
theorem map_encode_planDelay {n : Nat} (h : n ≤ 262143) : (planDelay n).map encode =
    if n < 16 then List.replicate n 0x01000000
    else if n < 768 then BitVec.ofNat 32 (0x02000000 + n / 3) :: List.replicate (n % 3) 0x01000000
    else BitVec.ofNat 32 (0x03000000 + n / 4) :: List.replicate (n % 4) 0x01000000 := by
  have hnop : encode .nop = 0x01000000 := rfl
  unfold planDelay
  split_ifs with h16 h768
  · rw [List.map_replicate, hnop]
  · rw [List.map_cons, List.map_replicate, hnop, encode, wordU8_ofNat _ (by omega)]
    rfl
  · rw [List.map_cons, List.map_replicate, hnop, encode, wordU16_ofNat _ (by omega)]
    rfl

/-- A statement of the table whose operands are numbers assembles, whatever the labels. -/
theorem assembleStatement_of_numbers {labels : Labels} {s : Statement} (hs : s.WellFormed = true)
    (hn : ∀ o ∈ s.operands, ∃ n, o = .num n) : ∃ is, assembleStatement labels s = .ok is := by
  suffices ∃ is, expandStatement labels s = .ok is from
    this.imp fun _ he => assembleStatement_ok.mpr ⟨hs, he⟩
  rcases Statement.inTable_of_wellFormed hs with h | ⟨k, -, -, rfl⟩ | ⟨k, -, -, rfl⟩ | ⟨v, -, -, rfl⟩ |
    ⟨f, a, -, -, -, -, rfl⟩ | ⟨v, -, -, rfl⟩ | ⟨t, -, -, rfl | rfl⟩ | ⟨name, h⟩ | ⟨n, -, -, rfl⟩
  case inr.inr.inr.inr.inr.inr.inr.inl =>
    have hlabel : .label name ∈ s.operands := by rcases h with rfl | rfl <;> exact List.mem_singleton_self _
    obtain ⟨n, hnum⟩ := hn _ hlabel
    cases hnum
  case inl =>
    simp only [List.mem_cons, List.not_mem_nil, or_false] at h
    rcases h with rfl | rfl | rfl | rfl | rfl | rfl | rfl <;> exact ⟨_, rfl⟩
  all_goals exact ⟨_, rfl⟩

/-- Settles O59: every word is a command's; `WellFormed` is R80's table; and each row's words are those of its column. -/
theorem assemblerEmitsOnlyLegalWords : Obligations.AssemblerEmitsOnlyLegalWords := by
  refine ⟨fun program words h w hw => ?legal, fun labels s hs => ?refused,
    fun labels s => assembleStatement_of_numbers,
    fun s => ⟨Statement.inTable_of_wellFormed, Statement.wellFormed_of_inTable⟩, fun labels => ?words⟩
  case legal =>
    obtain ⟨-, is, -, rfl⟩ := assemble_ok.mp h
    obtain ⟨i, -, rfl⟩ := List.mem_map.mp hw
    exact ⟨i, decode_encode i⟩
  case refused =>
    rw [assembleStatement, hs]
    rfl
  case words =>
    refine ⟨rfl, rfl, rfl, rfl, rfl, rfl, rfl, fun k h0 h1 => ?dly8, fun k h0 h1 => ?dly16, fun v h0 h1 => ?txi,
      fun f a h0 h1 h2 h3 => ?tone, fun v h0 h1 => ?ldlc, fun t h0 h1 => ⟨?djnz, ?jmp⟩, fun n hn => ?delay⟩
    case dly8 =>
      exact statementWords_of_encode (by simp [Statement.InTable, h0, h1]) rfl (wordU8_ofInt_of_range 0x02 h0 h1)
    case dly16 =>
      exact statementWords_of_encode (by simp [Statement.InTable, h0, h1]) rfl (wordU16_ofInt_of_range 0x03 h0 h1)
    case txi => exact statementWords_of_encode (by simp [Statement.InTable, h0, h1]) rfl (wordU16_ofInt 0x12 v)
    case tone =>
      exact statementWords_of_encode (by simp [Statement.InTable, h0, h1, h2, h3]) rfl
        (wordTone_ofInt_of_range 0x20 h0 h1 a)
    case ldlc =>
      exact statementWords_of_encode (by simp [Statement.InTable, h0, h1]) rfl (wordU16_ofInt_of_range 0x30 h0 h1)
    case djnz =>
      exact statementWords_of_encode (by simp [Statement.InTable, h0, h1]) rfl (wordU16_ofInt_of_range 0x31 h0 h1)
    case jmp =>
      exact statementWords_of_encode (by simp [Statement.InTable, h0, h1]) rfl (wordU16_ofInt_of_range 0x32 h0 h1)
    case delay =>
      rw [← map_encode_planDelay hn]
      exact statementWords_of_expand (by simp [Statement.InTable]; omega) rfl

/-! ### Label operands -/

theorem resolveTarget_label {labels : Labels} {name : List Char} {n : Nat} (hd : labelsDistinct labels = true)
    (hm : (name, n) ∈ labels) : resolveTarget labels (.label name) =
      if n < 65536 then .ok (BitVec.ofNat 16 n) else .error .labelRange := by
  simp only [resolveTarget, find_of_labelsDistinct hd hm]

/-- A line that branches to a label begins with the branch to the label's index. -/
theorem assembleLines_branch {labels : Labels} {name : List Char} {n : Nat} (hd : labelsDistinct labels = true)
    (hm : (name, n) ∈ labels) {l : Line} {ls : List Line} {is : List Instr}
    (h : assembleLines labels (l :: ls) = .ok is) {s : Statement} {branch : Half → Instr} (hl : l.statement = some s)
    (hs : expandStatement labels s = (resolveTarget labels (.label name)).map fun t => [branch t]) :
    n < 65536 ∧ ∃ tail, is = branch (BitVec.ofNat 16 n) :: tail := by
  obtain ⟨x, tail, hx, -, rfl⟩ := assembleLines_cons.mp h
  rw [hl] at hx
  obtain ⟨-, hexpand⟩ := assembleStatement_ok.mp hx
  rw [hs, resolveTarget_label hd hm] at hexpand
  split_ifs at hexpand with hn
  · cases hexpand
    exact ⟨hn, tail, rfl⟩
  · cases hexpand

/-- Settles O60: an image is assembled in pieces, and a label's entry in the layout is the length of the piece before its
line. -/
theorem labelBecomesTheIndexOfItsStatement : Obligations.LabelBecomesTheIndexOfItsStatement := by
  intro program words h before line rest hprogram
  obtain ⟨hd, is, his, rfl⟩ := assemble_ok.mp h
  have pieces (a b : List Line) (hab : program = a ++ b) : ∃ x y, assembleLines (layout 0 program) a = .ok x ∧
      assembleLines (layout 0 program) b = .ok y ∧ is = x ++ y :=
    assembleLines_append.mp (hab ▸ his)
  obtain ⟨pre, post, hpre, hpost, rfl⟩ := pieces _ _ hprogram
  refine ⟨pre, post, hpre, hpost, rfl, fun name hname before' line' rest' hprogram' => ?_⟩
  obtain ⟨pre', post', hpre', hpost', hpieces⟩ := pieces _ _ hprogram'
  have hm : (name, pre.length) ∈ layout 0 program := by
    rw [assembleLines_length hpre, hprogram]
    exact mem_layout hname
  have hword (s : Statement) (branch : Half → Instr) (hl : line'.statement = some s)
      (hs : expandStatement (layout 0 program) s =
        (resolveTarget (layout 0 program) (.label name)).map fun t => [branch t]) :
      ((pre ++ post).map encode)[pre'.length]? = some (encode (branch (BitVec.ofNat 16 pre.length))) ∧
        pre.length < 65536 := by
    obtain ⟨hlt, tail, rfl⟩ := assembleLines_branch hd hm hpost' hl hs
    exact ⟨by simp [hpieces], hlt⟩
  refine ⟨pre', hpre', fun hl => ?jmp, fun hl => ?djnz⟩
  case jmp =>
    obtain ⟨hget, hlt⟩ := hword _ .jmp hl rfl
    exact ⟨hget.trans (congrArg some (wordU16_ofNat 0x32 hlt)), hlt⟩
  case djnz =>
    obtain ⟨hget, hlt⟩ := hword _ .djnz hl rfl
    exact ⟨hget.trans (congrArg some (wordU16_ofNat 0x31 hlt)), hlt⟩

end Sys2Proof.Machine

/-! The delay family (40_delay.md): its three commands, the plan of DELAY n, and the run of any list of its commands. -/

namespace Sys2Proof

/-! ### The words of the two loops (R72) -/

theorem wordU8_eq_wordNone_add (op k : Byte) : wordU8 op k = wordNone op + k.setWidth 32 := by
  apply BitVec.eq_of_toNat_eq
  rw [BitVec.toNat_add, wordU8_toNat, wordNone_toNat, BitVec.toNat_setWidth]
  omega

theorem wordU16_eq_wordNone_add (op : Byte) (v : Half) : wordU16 op v = wordNone op + v.setWidth 32 := by
  apply BitVec.eq_of_toNat_eq
  rw [BitVec.toNat_add, wordU16_toNat, wordNone_toNat, BitVec.toNat_setWidth]
  omega

end Sys2Proof

namespace Sys2Proof.Machine

/-! ### The three commands (R82 to R85) -/

section
variable {i : Instr} {c : Config}

theorem isDelay_iff : isDelay i ↔ i = .nop ∨ (∃ k, i = .dly8 k) ∨ ∃ k, i = .dly16 k := by
  cases i <;> simp [isDelay, Instr.mnemonic]

theorem isDelay_nop : isDelay .nop := .inl rfl
theorem isDelay_dly8 (k : Byte) : isDelay (.dly8 k) := .inr (.inl rfl)
theorem isDelay_dly16 (k : Half) : isDelay (.dly16 k) := .inr (.inr rfl)

/-- A delay command's whole effect is the fall through to the next word (R82). -/
theorem exec_of_isDelay (hi : isDelay i) (s : State) : exec i s = .next (advancePc s) := by
  rcases isDelay_iff.mp hi with rfl | ⟨k, rfl⟩ | ⟨k, rfl⟩ <;> rfl

/-- A delay command takes a cycle in any configuration, a legal one or not: its cost reads none of it (R83 to R85). -/
theorem one_le_cost_of_isDelay (hi : isDelay i) (c : Config) : 1 ≤ cost c i := by
  rcases isDelay_iff.mp hi with rfl | ⟨k, rfl⟩ | ⟨k, rfl⟩
  · exact Nat.le_refl 1
  · have := Laws.Cost.dly8Iterations_pos k
    simp only [cost]; omega
  · have := Laws.Cost.dly16Iterations_pos k
    simp only [cost]; omega

theorem cost_dly8 (k : Byte) : cost c (.dly8 k) = if k = 0 then 768 else 3 * k.toNat := by
  rw [cost, dly8Iterations, mul_ite]

theorem cost_dly16 (k : Half) : cost c (.dly16 k) = if k = 0 then 262144 else 4 * k.toNat := by
  rw [cost, dly16Iterations, mul_ite]

/-- A count that fits its field and is not 0 is the number of iterations (R84). -/
theorem cost_dly8_ofNat {n : Nat} (h0 : 0 < n) (h : n < 256) : cost c (.dly8 (BitVec.ofNat 8 n)) = 3 * n := by
  have hn : (BitVec.ofNat 8 n).toNat = n := Nat.mod_eq_of_lt h
  have hne : BitVec.ofNat 8 n ≠ 0 := fun he => by rw [he] at hn; exact h0.ne hn
  rw [cost_dly8, if_neg hne, hn]

/-- A count that fits its field and is not 0 is the number of iterations (R85). -/
theorem cost_dly16_ofNat {n : Nat} (h0 : 0 < n) (h : n < 65536) : cost c (.dly16 (BitVec.ofNat 16 n)) = 4 * n := by
  have hn : (BitVec.ofNat 16 n).toNat = n := Nat.mod_eq_of_lt h
  have hne : BitVec.ofNat 16 n ≠ 0 := fun he => by rw [he] at hn; exact h0.ne hn
  rw [cost_dly16, if_neg hne, hn]

end

/-- Settles O6: NOP is a delay command of one cycle. -/
theorem nopCostsOneAndAdvancesPc : Obligations.NopCostsOneAndAdvancesPc := fun s =>
  ⟨rfl, rfl, exec_of_isDelay isDelay_nop s⟩

/-- Settles O7: the word by its fields, the cost by the count, the effect as for every delay command. -/
theorem dly8CostsThreePerIteration : Obligations.Dly8CostsThreePerIteration := fun k s =>
  ⟨wordU8_eq_wordNone_add 0x02 k, cost_dly8 k, exec_of_isDelay (isDelay_dly8 k) s⟩

/-- Settles O8: the word by its fields, the cost by the count, the effect as for every delay command. -/
theorem dly16CostsFourPerIteration : Obligations.Dly16CostsFourPerIteration := fun k s =>
  ⟨wordU16_eq_wordNone_add 0x03 k, cost_dly16 k, exec_of_isDelay (isDelay_dly16 k) s⟩

/-! ### The plan of DELAY n (R87, R88) -/

section
variable {c : Config} {i : Instr} {n : Nat}

@[simp] theorem totalCost_nil : totalCost c [] = 0 := rfl

@[simp] theorem totalCost_cons (is : List Instr) : totalCost c (i :: is) = cost c i + totalCost c is := by
  simp [totalCost]

@[simp] theorem totalCost_replicate_nop (n : Nat) : totalCost c (List.replicate n .nop) = n := by
  simp [totalCost, cost]

/-- The three ranges of plan(n) and its words in each (R87). -/
theorem planDelay_cases (n : Nat) :
    (n < 16 ∧ planDelay n = List.replicate n .nop) ∨
    (16 ≤ n ∧ n < 768 ∧ planDelay n = .dly8 (BitVec.ofNat 8 (n / 3)) :: List.replicate (n % 3) .nop) ∨
    (768 ≤ n ∧ planDelay n = .dly16 (BitVec.ofNat 16 (n / 4)) :: List.replicate (n % 4) .nop) := by
  unfold planDelay
  split_ifs with h16 h768
  · exact .inl ⟨h16, rfl⟩
  · exact .inr (.inl ⟨by omega, h768, rfl⟩)
  · exact .inr (.inr ⟨by omega, rfl⟩)

/-- Quotient and remainder make up n, and no count is 0 or too big for its field (R87). -/
theorem totalCost_planDelay (c : Config) (h : n ≤ 262143) : totalCost c (planDelay n) = n := by
  rcases planDelay_cases n with ⟨-, hp⟩ | ⟨h16, h768, hp⟩ | ⟨h768, hp⟩ <;> rw [hp]
  · exact totalCost_replicate_nop n
  · rw [totalCost_cons, totalCost_replicate_nop, cost_dly8_ofNat (by omega) (by omega), Nat.div_add_mod]
  · rw [totalCost_cons, totalCost_replicate_nop, cost_dly16_ofNat (by omega) (by omega), Nat.div_add_mod]

theorem isDelay_of_mem_replicate_nop (h : i ∈ List.replicate n .nop) : isDelay i :=
  List.eq_of_mem_replicate h ▸ isDelay_nop

theorem isDelay_of_mem_planDelay (h : i ∈ planDelay n) : isDelay i := by
  rcases planDelay_cases n with ⟨-, hp⟩ | ⟨-, -, hp⟩ | ⟨-, hp⟩ <;> rw [hp] at h
  · exact isDelay_of_mem_replicate_nop h
  · rcases List.mem_cons.mp h with rfl | h
    · exact isDelay_dly8 _
    · exact isDelay_of_mem_replicate_nop h
  · rcases List.mem_cons.mp h with rfl | h
    · exact isDelay_dly16 _
    · exact isDelay_of_mem_replicate_nop h

/-- A DLY8 stands in the middle range only, with the quotient by 3 as its count. -/
theorem dly8_mem_planDelay {k : Byte} (h : .dly8 k ∈ planDelay n) : k.toNat = n / 3 ∧ 5 ≤ n / 3 := by
  rcases planDelay_cases n with ⟨-, hp⟩ | ⟨h16, h768, hp⟩ | ⟨-, hp⟩
  · simp [hp] at h
  · obtain rfl : k = BitVec.ofNat 8 (n / 3) := by simpa [hp] using h
    rw [BitVec.toNat_ofNat]
    omega
  · simp [hp] at h

/-- A DLY16 stands in the upper range only, with the quotient by 4 as its count. -/
theorem dly16_mem_planDelay {k : Half} (hn : n ≤ 262143) (h : .dly16 k ∈ planDelay n) :
    k.toNat = n / 4 ∧ 192 ≤ n / 4 := by
  rcases planDelay_cases n with ⟨-, hp⟩ | ⟨-, -, hp⟩ | ⟨h768, hp⟩
  · simp [hp] at h
  · simp [hp] at h
  · obtain rfl : k = BitVec.ofNat 16 (n / 4) := by simpa [hp] using h
    rw [BitVec.toNat_ofNat]
    omega

end

/-- Settles O48: the cost and the counts of the plan, range by range. -/
theorem delayPlanCostsExactlyN : Obligations.DelayPlanCostsExactlyN := fun c _ hn =>
  ⟨totalCost_planDelay c hn, fun _ => isDelay_of_mem_planDelay, fun _ => dly8_mem_planDelay,
    fun _ => dly16_mem_planDelay hn⟩

/-- The odd NOP of a halving (R88). -/
theorem odd_nop_eq_replicate (n : Nat) : (if n % 2 = 1 then [Instr.nop] else []) = List.replicate (n % 2) .nop := by
  rcases Nat.mod_two_eq_zero_or_one n with h | h <;> rw [h] <;> rfl

/-- Settles O49: two halves and the odd NOP are n NOPs, by induction on the depth. -/
theorem unrollYieldsNNops : Obligations.UnrollYieldsNNops := by
  intro depth
  induction depth with
  | zero =>
    intro n hn
    obtain rfl : n = 0 := Nat.lt_one_iff.mp hn
    rfl
  | succ depth ih =>
    intro n hn
    have hhalf : unroll depth (n / 2) = List.replicate (n / 2) .nop := ih _ (by rw [pow_succ] at hn; omega)
    rw [unroll]
    by_cases h0 : n = 0
    · rw [if_pos h0, h0]
      rfl
    · rw [if_neg h0, hhalf, odd_nop_eq_replicate, List.replicate_append_replicate, List.replicate_append_replicate]
      congr 1
      omega

/-! ### Running delay commands (R82, R90) -/

/-- The state after `words` words of delay commands that took `cycles` cycles, with the unit then at `u` (R82). -/
def afterDelay (words cycles : Nat) (u : ClockUnit) (s : State) : State :=
  { s with
    seq := { s.seq with pc := s.seq.pc + BitVec.ofNat 16 words }
    clk := u
    cyc := s.cyc + cycles }

section
variable {s t : State} {i : Instr} {is : List Instr} {u : ClockUnit}

theorem afterDelay_zero (s : State) : afterDelay 0 0 s.clk s = s := by
  ext <;> simp [afterDelay]

theorem afterDelay_afterDelay (w1 w2 c1 c2 : Nat) (u v : ClockUnit) (s : State) :
    afterDelay w2 c2 v (afterDelay w1 c1 u s) = afterDelay (w1 + w2) (c1 + c2) v s := by
  ext <;> simp [afterDelay, BitVec.ofNat_add, BitVec.add_assoc, Nat.add_assoc]

/-- The word at PC of loaded commands is the first of them. -/
theorem Loaded.fetchDecode (h : Loaded s s.seq.pc.toNat (i :: is)) : fetchDecode s = .ok i := by
  obtain ⟨hlt, hread⟩ := h 0 i rfl
  rw [Nat.add_zero] at hlt hread
  exact fetchDecode_ok.mpr ⟨hlt, hread ▸ decode_encode i⟩

/-- Past the first of them the rest is loaded at PC. PC + 1 wraps only at the end of a full command memory, where no
command is left (R16, R47). -/
theorem Loaded.advance (h : Loaded s s.seq.pc.toNat (i :: is)) (hw : s.cfg.progWords ≤ 65536)
    (hcfg : t.cfg = s.cfg) (hmem : t.mem = s.mem) (hpc : t.seq.pc = s.seq.pc + 1) : Loaded t t.seq.pc.toNat is := by
  intro j k hj
  obtain ⟨hlt, hread⟩ := h (j + 1) k hj
  have hnext : t.seq.pc.toNat + j = s.seq.pc.toNat + (j + 1) := by
    rw [hpc]
    bv_omega
  rw [hcfg, hmem, hnext]
  exact ⟨hlt, hread⟩

/-- One delay command, issued where no stall can fall, occupies its cost and writes PC only (R82, R90). -/
theorem run_delay (hb : Boundary s) (hbusy : s.seq.busy = 0) (hi : s.seq.i = false) (hf : fetchDecode s = .ok i)
    (hd : isDelay i) (hp : periphRun s.cfg s.cyc (cost s.cfg i) s.clk = .ok u) :
    run (cost s.cfg i) s = .next (afterDelay 1 (cost s.cfg i) u s) := by
  have h1 := one_le_cost_of_isDelay hd s.cfg
  have hcyc : s.cyc + (cost s.cfg i - 1) + 1 = s.cyc + cost s.cfg i := by omega
  rw [(commandRunsForExactlyItsCost s i u hb (.inl hi) hf h1 hp _ rfl).1 _ (exec_of_isDelay hd _)]
  congr 1
  ext <;> simp [afterDelay, hb.2.2, hbusy, hi, hcyc]

/-- Loaded delay commands, started where no stall can fall, run one after another for their total cost (R82, R90). -/
theorem run_delays : ∀ (is : List Instr) (s : State), Boundary s → s.seq.busy = 0 → s.seq.i = false →
    s.cfg.progWords ≤ 65536 → (∀ i ∈ is, isDelay i) → Loaded s s.seq.pc.toNat is →
    periphRun s.cfg s.cyc (totalCost s.cfg is) s.clk = .ok u →
    run (totalCost s.cfg is) s = .next (afterDelay is.length (totalCost s.cfg is) u s)
  | [], s, _, _, _, _, _, _, hp => by
    cases hp
    exact congrArg _ (afterDelay_zero s).symm
  | i :: is, s, hb, hbusy, hi, hw, hd, hl, hp => by
    rw [totalCost_cons] at hp
    obtain ⟨v, hv, hrest⟩ := (periphRun_add _ _ _ _ _ _).mp hp
    have hfirst := run_delay hb hbusy hi hl.fetchDecode (hd i List.mem_cons_self) hv
    have htail := run_delays is (afterDelay 1 (cost s.cfg i) v s) hb hbusy hi hw
      (fun k hk => hd k (List.mem_cons_of_mem i hk)) (hl.advance hw rfl rfl rfl) hrest
    rw [totalCost_cons, run_add _ _ _ _ hfirst]
    refine htail.trans (congrArg _ ?_)
    rw [afterDelay_afterDelay, List.length_cons, Nat.add_comm 1]
    rfl

end

/-- Settles O50: the plan is a list of delay commands whose total cost is n. -/
theorem delayRunsForExactlyN : Obligations.DelayRunsForExactlyN := by
  intro s n u hn hb hbusy hi hw hl hp
  have hcost := totalCost_planDelay s.cfg hn
  rw [← hcost] at hp
  have hrun := run_delays (planDelay n) s hb hbusy hi hw (fun _ => isDelay_of_mem_planDelay) hl hp
  rw [hcost] at hrun
  exact hrun

end Sys2Proof.Machine

/-! The clock driver (41_clock_driver.md): its four commands, its unit before the release and in every step after it, the
cadence of the load points, and the runs of the unit up to a load point and through a slot. -/

namespace Sys2Proof.Machine

/-! ### The four commands (R92 to R96) -/

section
variable {m : Mnemonic} {v : Half} {s : State}

/-- A configured unit with an empty buffer takes the word (R94). -/
theorem transmit_of_empty (hs : s.clk.st ≠ .unconfigured) (hf : s.clk.txfull = false) :
    transmit m v s = .ok (setClk (bufferWord s.cyc v s.clk) s) := by
  rw [transmit, if_neg hs, if_neg (by simp [hf]), bufferWord]

/-- The check of STATE comes first (R94). -/
theorem transmit_of_unconfigured (hs : s.clk.st = .unconfigured) : transmit m v s = .error (.state m) :=
  if_pos hs

/-- A full buffer takes no second word (R94). -/
theorem transmit_of_full (hs : s.clk.st ≠ .unconfigured) (hf : s.clk.txfull = true) :
    transmit m v s = .error (.txReject v) := by
  rw [transmit, if_neg hs, if_pos hf]

end

/-- Settles O9: the two outcomes of the check of STATE, and the first-cycle write, which is CFG's alone. -/
theorem cfgConfiguresOnce : Obligations.CfgConfiguresOnce := fun _ =>
  ⟨rfl, rfl, if_pos rfl, fun hs => congrArg complete (if_pos hs), fun hs => congrArg complete (if_neg hs)⟩

/-- Settles O10: the two outcomes of the check of STATE. -/
theorem startReleasesTheHold : Obligations.StartReleasesTheHold := fun _ =>
  ⟨rfl, rfl, fun hs => congrArg complete (if_pos hs), fun hs => congrArg complete (if_neg hs)⟩

/-- Settles O11: the three outcomes of a transmit, of the operand. -/
theorem txiHandsOverItsOperand : Obligations.TxiHandsOverItsOperand := fun v _ =>
  ⟨wordU16_eq_wordNone_add 0x12 v, rfl, fun hs hf => congrArg complete (transmit_of_empty hs hf),
    fun hs => congrArg complete (transmit_of_unconfigured hs), fun hs hf => congrArg complete (transmit_of_full hs hf)⟩

/-- Settles O12: the three outcomes of a transmit, of SREG. -/
theorem txsHandsOverSreg : Obligations.TxsHandsOverSreg := fun _ =>
  ⟨rfl, rfl, fun hs hf => congrArg complete (transmit_of_empty hs hf),
    fun hs => congrArg complete (transmit_of_unconfigured hs), fun hs hf => congrArg complete (transmit_of_full hs hf)⟩

/-! ### The closed form in every step (R97, R103, R109) -/

section
variable {c : Config} {k : Nat} {u : ClockUnit} {s : State}

/-- Before START the peripheral step leaves a configured unit as it is (R97, R109). -/
theorem ConfiguredForm.periph (h : ConfiguredForm c u) (t : Nat) : periph c t u = .ok u := by
  obtain ⟨b, f, x, rfl⟩ := h
  exact periph_held c t _ (.inr rfl)

/-- The closed form does not read the transmit buffer. -/
theorem SignalAt.bufferWord (h : SignalAt c k u) (n : Nat) (w : Half) : SignalAt c k (bufferWord n w u) :=
  ⟨h.mode, h.hold, h.bocr, h.wocr, h.dead, h.bcnt, h.bclk, h.wcnt, h.ws, h.bitpos⟩

/-- The peripheral step of a running unit gives what the invariant says of it one cycle later. -/
theorem SignalInv.periph (h : SignalInv s) (hrun : s.clk.st = .running) (hf : s.fault = none)
    (hp : periph s.cfg s.cyc s.clk = .ok u) :
    ∃ r k, u.release = some r ∧ s.cyc + 1 = r + k + 1 ∧ SignalAt s.cfg k u := by
  obtain ⟨r, k, hr, hcyc, hk⟩ := h.signal hrun hf
  have hc := Config.legal_of_wellFormed h.unit.config
  exact ⟨r, k + 1, (periph_sameUnit hp).release.trans hr, by omega, signalAt_periph hc hk hp⟩

end

/-- Settles O35: START puts the held unit at k = 0, every later step takes it from k to k + 1 as cyc advances, and a transmit
writes nothing that the closed form reads. -/
theorem signalInvKept : Obligations.SignalInvKept := by
  intro s t h hstep
  refine ⟨unitInvKept s t h.unit hstep, fun hrun hf => ?_⟩
  obtain ⟨hsf, -, -⟩ := step_next hstep
  have hcyc : t.cyc = s.cyc + 1 := by
    rcases cycAdvancesUnlessAFaultIsRecorded s t hstep with ⟨-, hcyc⟩ | ⟨m, hm, -⟩
    · exact hcyc
    · rw [hf] at hm; cases hm
  rw [hcyc, (configurationAndCommandMemoryAreFixed s t hstep).1]
  cases step_unit hstep with
  | kept _ hfault => exact absurd hf hfault
  | periph hp => exact h.periph ((periph_sameUnit hp).st.symm.trans hrun) hsf hp
  | cfg u _ _ _ hclk => rw [hclk] at hrun; cases hrun
  | start u hp _ hst hclk =>
    have hform := h.unit.configured ((periph_sameUnit hp).st.symm.trans hst)
    obtain rfl : s.clk = u := Except.ok.inj ((hform.periph s.cyc).symm.trans hp)
    rw [hclk]
    exact ⟨s.cyc, 0, rfl, rfl, signalAt_release (Config.legal_of_wellFormed h.unit.config) hform s.cyc⟩
  | transmit u w hp _ _ _ hclk =>
    rw [hclk] at hrun ⊢
    obtain ⟨r, k, hr, hk, hs⟩ := h.periph ((periph_sameUnit hp).st.symm.trans hrun) hsf hp
    exact ⟨r, k, hr, hk, hs.bufferWord s.cyc w⟩

/-- Settles O30: the peripheral step leaves a configured unit as it is, and neither START nor a transmit writes a counter, a
line or the shift register. -/
theorem nothingMovesBeforeTheRelease : Obligations.NothingMovesBeforeTheRelease := by
  refine ⟨periph_held, fun s t h hst hstep => ?_⟩
  have hheld := (h.configured hst).periph s.cyc
  cases step_unit hstep with
  | kept hclk _ => simp [hclk]
  | periph hp => simp [Except.ok.inj (hp.symm.trans hheld)]
  | cfg u hp _ hu _ =>
    rw [(periph_sameUnit hp).st, hst] at hu
    cases hu
  | start u hp _ _ hclk => simp [hclk, releaseUnit, Except.ok.inj (hp.symm.trans hheld)]
  | transmit u w hp _ _ _ hclk => simp [hclk, bufferWord, Except.ok.inj (hp.symm.trans hheld)]

/-- Settles O38: `signalAt_periph`. -/
theorem peripheralStepKeepsTheSignalForm : Obligations.PeripheralStepKeepsTheSignalForm :=
  fun _ _ _ _ _ hw h hv => signalAt_periph (Config.legal_of_wellFormed hw) h hv

/-! ### Bit boundaries and load points (R100, R101, R104, R105) -/

section
variable {c : Config} {k t : Nat} {u v : ClockUnit}

/-- At a bit boundary BCLK returns to BCLK_IDLE from the other level (R100, R103). -/
theorem SignalAt.bclk_at_boundary (hc : c.Legal) (h : SignalAt c k u) (h' : SignalAt c (k + 1) v)
    (hb : (bclkUnit c u).2 = true) : u.bclk ≠ c.bclkIdle ∧ v.bclk = c.bclkIdle := by
  obtain ⟨hk, hd⟩ := (bclkUnit_boundary_iff hc h).mp hb
  have hd : c.h ∣ k - c.epoch + 1 := dvd_of_mul_left_dvd hd
  have hodd : odd ((k - c.epoch) / c.h) = true := by rwa [bclkUnit_of_dvd hc h hk hd] at hb
  rw [h.bclk, h'.bclk, Nat.succ_sub hk, Nat.succ_div_of_dvd hd, odd_succ, hodd]
  simp

/-- A slot is a whole number of bits, so WS stays between two bit boundaries (R104). -/
theorem SignalAt.ws_off_boundary (hc : c.Legal) (h : SignalAt c k u) (h' : SignalAt c (k + 1) v)
    (hb : (bclkUnit c u).2 = false) : v.ws = u.ws := by
  rw [h.ws, h'.ws]
  rcases Nat.lt_or_ge k c.epoch with hk | hk
  · rw [Nat.sub_eq_zero_of_le hk.le, Nat.sub_eq_zero_of_le (show k + 1 ≤ c.epoch from hk)]
  · have hd : ¬ c.samplePeriod ∣ k - c.epoch + 1 := fun hd => by
      have hbit : 2 * c.h ∣ k - c.epoch + 1 := dvd_of_mul_right_dvd hd
      rw [(bclkUnit_boundary_iff hc h).mpr ⟨hk, hbit⟩] at hb
      cases hb
    rw [Nat.succ_sub hk, Nat.succ_div_of_not_dvd hd]

/-- Off a bit boundary a peripheral step leaves the data path alone (R97). -/
theorem periph_sameData (hb : (bclkUnit c u).2 = false) (hp : periph c t u = .ok v) : SameData u v := by
  rcases periph_ok hp with ⟨_, rfl⟩ | ⟨_, _, _, rfl⟩ | ⟨_, _, hb', _⟩
  · exact ⟨rfl, rfl, rfl, rfl⟩
  · exact clocked_sameData c u
  · rw [hb] at hb'; cases hb'

/-- The number of bits that are over at a bit boundary. -/
theorem succ_eq_of_dvd {m p : Nat} (hd : p ∣ m + 1) : m + 1 = p * (m / p + 1) := by
  rw [← Nat.succ_div_of_dvd hd, Nat.mul_div_cancel' hd]

/-- The load points are the cycles k_load(s) (R105): the bit boundaries after a whole number of words and one bit. -/
theorem atLoadPoint_iff (hc : c.Legal) (h : SignalAt c k u) : atLoadPoint c u ↔ ∃ s, k + 1 = c.loadCycle s := by
  have hload : atLoadPoint c u ↔ (c.epoch ≤ k ∧ 2 * c.h ∣ k - c.epoch + 1) ∧ c.w ∣ (k - c.epoch) / (2 * c.h) := by
    rw [← bclkUnit_boundary_iff hc h, Nat.dvd_iff_mod_eq_zero, ← h.bitpos, atLoadPoint]
    simp [h.mode, h.hold]
  rw [hload]
  constructor
  · rintro ⟨⟨hk, hd⟩, s, hs⟩
    have hbits := succ_eq_of_dvd hd
    rw [hs, Nat.mul_comm c.w] at hbits
    exact ⟨s, by rw [Config.loadCycle]; omega⟩
  · rintro ⟨s, hs⟩
    have hbit : 0 < 2 * c.h * (s * c.w + 1) := Nat.mul_pos (by have := hc.h; omega) (Nat.succ_pos _)
    rw [Config.loadCycle] at hs
    have hbits : k - c.epoch + 1 = 2 * c.h * (s * c.w + 1) := by omega
    have hd : 2 * c.h ∣ k - c.epoch + 1 := ⟨_, hbits⟩
    have hwords := Nat.eq_of_mul_eq_mul_left (by have := hc.h; omega) ((succ_eq_of_dvd hd).symm.trans hbits)
    exact ⟨⟨by omega, hd⟩, s, (Nat.succ.inj hwords).trans (Nat.mul_comm _ _)⟩

end

end Sys2Proof.Machine

namespace Sys2Proof.Config

theorem loadCycle_succ (c : Config) (s : Nat) : c.loadCycle (s + 1) = c.loadCycle s + c.samplePeriod := by
  simp only [loadCycle, samplePeriod, bitPeriod]; ring

theorem loadCycle_mono (c : Config) : Monotone c.loadCycle :=
  monotone_nat_of_le_succ fun s => by rw [loadCycle_succ]; exact Nat.le_add_right _ _

theorem bitPeriod_le_loadCycle (c : Config) (s : Nat) : 2 * c.h ≤ c.loadCycle s :=
  calc 2 * c.h ≤ c.loadCycle 0 := by simp [loadCycle]
    _ ≤ c.loadCycle s := c.loadCycle_mono (Nat.zero_le s)

end Sys2Proof.Config

namespace Sys2Proof.Machine

/-- Settles O39: off a bit boundary WS and SD stay, and at one BCLK returns to BCLK_IDLE. -/
theorem linesChangeOnlyAtBitBoundaries : Obligations.LinesChangeOnlyAtBitBoundaries := by
  intro c t k u v hw h hp hline
  have hc := Config.legal_of_wellFormed hw
  have h' := signalAt_periph hc h hp
  refine h.bclk_at_boundary hc h' (Bool.not_eq_false _ ▸ fun hb => ?_)
  exact hline.elim (· (h.ws_off_boundary hc h' hb)) (· (periph_sameData hb hp).sd)

/-- Settles O40: `atLoadPoint_iff`, with k_load(s) written out. -/
theorem loadPointsFallOnTheCadence : Obligations.LoadPointsFallOnTheCadence :=
  fun _ _ _ hw h => atLoadPoint_iff (Config.legal_of_wellFormed hw) h

/-! ### The shift register (R100, R101) -/

theorem lowBits_toNat {w : Nat} (hw : w ≤ 16) (n : Nat) : (lowBits w n).toNat = n % 2 ^ w := by
  have hn : n % 2 ^ w < 2 ^ 16 :=
    calc n % 2 ^ w < 2 ^ w := Nat.mod_lt _ (Nat.two_pow_pos w)
      _ ≤ 2 ^ 16 := Nat.pow_le_pow_right (by decide) hw
  exact (BitVec.toNat_ofNat _ _).trans (Nat.mod_eq_of_lt hn)

/-- Bit j of a word is out, and the shift register holds the bits after it (R100). -/
structure Shifted (c : Config) (word : Half) (j : Nat) (u : ClockUnit) : Prop where
  sd : u.sd = word.getLsbD (c.w - 1 - j)
  sr : u.sr = lowBits c.w (word.toNat * 2 ^ (j + 1))

section
variable {c : Config} {t j x : Nat} {word : Half} {u : ClockUnit}

/-- One shift sends the next bit of the word (R100). -/
theorem shiftOut_shifted (hc : c.Legal) (hj : j < c.w) (h : u.sr = lowBits c.w (word.toNat * 2 ^ j)) :
    Shifted c word j (shiftOut c u) where
  sd := by
    have hw := hc.w
    have hbit : (u.sr.toNat).testBit (c.w - 1) = word.toNat.testBit (c.w - 1 - j) := by
      rw [h, lowBits_toNat hw.2, Nat.testBit_mod_two_pow, Nat.testBit_mul_two_pow]
      simp only [show c.w - 1 < c.w by omega, show j ≤ c.w - 1 by omega, decide_true, Bool.true_and]
    rwa [BitVec.testBit_toNat, BitVec.testBit_toNat] at hbit
  sr := by
    rw [pow_succ, ← mul_assoc]
    show lowBits c.w (u.sr.toNat * 2) = _
    rw [h, lowBits_toNat hc.w.2, lowBits, Nat.mod_mul_mod, lowBits]

/-- Off a load point the peripheral step raises nothing (R101, R102). -/
theorem periph_total_of_not_load (c : Config) (t : Nat) (h : ¬ atLoadPoint c u) : ∃ v, periph c t u = .ok v := by
  cases hp : periph c t u with
  | ok v => exact ⟨v, rfl⟩
  | error m =>
    obtain ⟨hm, hh, hb, h0, -⟩ := periph_error hp
    exact absurd ⟨hm, hh, hb, h0⟩ h

/-- The shift register takes the low W bits of TXBUF and clears TXFULL (R101). -/
def takeWord (c : Config) (u : ClockUnit) : ClockUnit :=
  { u with sr := lowBits c.w u.txbuf.toNat, txfull := false }

/-- What a load point does (R101, R102): no word, a word inside the setup window, or the word taken and its first bit sent. -/
theorem periph_of_load (t : Nat) (h : atLoadPoint c u) : periph c t u =
    if u.txfull = false then .error (.underrun t)
    else if setupMet c t u.txt then .ok (shiftOut c (takeWord c (clocked c u))) else .error (.setup t u.txt) := by
  obtain ⟨hm, hh, hb, h0⟩ := h
  have hrun : periph c t u = dataPath c t (clocked c u) := by simp [periph, advanceUnit, hm, hh, hb, clocked]
  rw [← (clocked_sameData c u).txfull, ← (clocked_sameUnit c u).txt, hrun, dataPath, loadPoint,
    if_pos ((clocked_sameData c u).bitpos.trans h0), takeWord]
  split_ifs <;> rfl

/-- A word that has stood in the buffer for BIT_PERIOD is taken (R102). -/
theorem periph_of_load_in_time (h : atLoadPoint c u) (hfull : u.txfull = true) (htxt : u.txt = some x)
    (hx : x + 2 * c.h ≤ t) : periph c t u = .ok (shiftOut c (takeWord c (clocked c u))) := by
  rw [periph_of_load t h, if_neg (by simp [hfull]), if_pos ((setupMet_iff c t u.txt).mpr ⟨x, htxt, hx⟩)]

/-- A word that has stood there for less is F_SETUP (R102). -/
theorem periph_of_load_late (h : atLoadPoint c u) (hfull : u.txfull = true) (htxt : u.txt = some x)
    (hx : t < x + 2 * c.h) : periph c t u = .error (.setup t u.txt) := by
  have hlate : ¬ setupMet c t u.txt = true := by
    intro hmet
    obtain ⟨y, hy, hle⟩ := (setupMet_iff c t u.txt).mp hmet
    obtain rfl : x = y := Option.some.inj (htxt.symm.trans hy)
    exact absurd hle (Nat.not_le.mpr hx)
  rw [periph_of_load t h, if_neg (by simp [hfull]), if_neg hlate]

/-- The word a load point takes is the buffer's, and its first bit is out (R105). -/
theorem takeWord_shifted (hc : c.Legal) (u : ClockUnit) :
    Shifted c u.txbuf 0 (shiftOut c (takeWord c (clocked c u))) :=
  shiftOut_shifted hc hc.w.1 (by simp [takeWord, (clocked_sameUnit c u).txbuf])

end

/-- Settles O41: `periph_of_load` in its three cases. -/
theorem loadPointTakesTheWordOrFaults : Obligations.LoadPointTakesTheWordOrFaults := by
  intro c t u hw hload
  have hc := Config.legal_of_wellFormed hw
  refine ⟨fun hempty => ?underrun, fun x hfull htxt hx => periph_of_load_late hload hfull htxt hx,
    fun x hfull htxt hx => ?taken⟩
  case underrun => rw [periph_of_load t hload, if_pos hempty]
  case taken =>
    have hv := periph_of_load_in_time hload hfull htxt hx
    obtain ⟨-, -, -, h0⟩ := hload
    have hpos : (clocked c u).bitpos = 0 := (clocked_sameData c u).bitpos.trans h0
    have hshift := takeWord_shifted hc u
    refine ⟨_, hv, rfl, hshift.sd, ?_, congrArg (fun p => (p + 1) % c.w) hpos, (periph_sameUnit hv).txbuf,
      (periph_sameUnit hv).txt⟩
    rw [hshift.sr, lowBits_toNat hc.w.2, Nat.mod_mul_mod]
    rfl

/-! ### Runs of the unit (R105, R106) -/

/-- The peripheral steps of one cycle. -/
theorem periphRun_one (c : Config) (t : Nat) (u : ClockUnit) : periphRun c t 1 u = periph c t u := by
  rw [periphRun]
  cases periph c t u <;> rfl

/-- What a peripheral step without a fault carries from each of N cycles to the next holds after a run of up to N cycles,
which raises nothing. -/
theorem periphRun_induct {c : Config} {t N : Nat} {u : ClockUnit} {P : Nat → ClockUnit → Prop} (h0 : P 0 u)
    (hstep : ∀ n v, n < N → P n v → ∃ w, periph c (t + n) v = .ok w ∧ P (n + 1) w) :
    ∀ n, n ≤ N → ∃ v, periphRun c t n u = .ok v ∧ P n v
  | 0, _ => ⟨u, rfl, h0⟩
  | n + 1, hn => by
    obtain ⟨v, hv, hP⟩ := periphRun_induct h0 hstep n (by omega)
    obtain ⟨w, hw, hP'⟩ := hstep n v (by omega) hP
    exact ⟨w, (periphRun_add n 1 c t u w).mpr ⟨v, hv, (periphRun_one c _ v).trans hw⟩, hP'⟩

section
variable {c : Config} {k t j n s x : Nat} {word : Half} {u v : ClockUnit}

/-- Between two load points a bit boundary sends the next bit, and elsewhere the data path stays (R100). -/
theorem periph_shifted (hc : c.Legal) (h : SignalAt c k u) (hload : ¬ atLoadPoint c u) (hj : Shifted c word j u)
    (hnext : j + (if (bclkUnit c u).2 then 1 else 0) < c.w) (hp : periph c t u = .ok v) :
    Shifted c word (j + if (bclkUnit c u).2 then 1 else 0) v := by
  by_cases hb : (bclkUnit c u).2 = true
  · rw [if_pos hb] at hnext ⊢
    rcases periph_ok hp with ⟨hidle, _⟩ | ⟨_, _, hb', _⟩ | ⟨_, _, _, l, hl, rfl⟩
    · simp [h.mode, h.hold] at hidle
    · rw [hb] at hb'; cases hb'
    · rcases loadPoint_ok hl with ⟨_, rfl⟩ | ⟨h0, _⟩
      · exact shiftOut_shifted hc hnext ((clocked_sameData c u).sr.trans hj.sr)
      · exact absurd ⟨h.mode, h.hold, hb, (clocked_sameData c u).bitpos.symm.trans h0⟩ hload
  · have hd := periph_sameData (Bool.eq_false_iff.mpr hb) hp
    rw [if_neg hb]
    exact ⟨hd.sd.trans hj.sd, hd.sr.trans hj.sr⟩

/-- Cycle n of slot s, counted from its load point, with the word it carries (R105). -/
structure InSlot (c : Config) (word : Half) (s n : Nat) (u : ClockUnit) : Prop where
  signal : SignalAt c (c.loadCycle s + n) u
  shifted : Shifted c word (n / (2 * c.h)) u

/-- The bit boundaries of a slot, counted from its load point (R105). -/
theorem InSlot.boundary_iff (hc : c.Legal) (h : InSlot c word s n u) :
    (bclkUnit c u).2 = true ↔ 2 * c.h ∣ n + 1 := by
  have hbits : c.loadCycle s + n - c.epoch + 1 = 2 * c.h * (s * c.w + 1) + (n + 1) := by
    rw [Config.loadCycle]; omega
  rw [bclkUnit_boundary_iff hc h.signal, hbits, Nat.dvd_add_right (Nat.dvd_mul_right _ _), Config.loadCycle]
  exact and_iff_right (by omega)

/-- A slot goes on to its last cycle without a fault, with no load point in between (R105). -/
theorem InSlot.periph (hc : c.Legal) (h : InSlot c word s n u) (hn : n + 1 < c.samplePeriod) (t : Nat) :
    ∃ v, periph c t u = .ok v ∧ InSlot c word s (n + 1) v := by
  have hload : ¬ atLoadPoint c u := fun hload => by
    obtain ⟨q, hq⟩ := (atLoadPoint_iff hc h.signal).mp hload
    refine c.loadCycle_mono.ne_of_lt_of_lt_nat s (by omega) ?_ q hq.symm
    rw [Config.loadCycle_succ]; omega
  have hbit : (n + 1) / (2 * c.h) < c.w := Nat.div_lt_of_lt_mul hn
  have hj : (n + 1) / (2 * c.h) = n / (2 * c.h) + if (bclkUnit c u).2 then 1 else 0 := by
    simp only [Nat.succ_div, h.boundary_iff hc]
  obtain ⟨v, hv⟩ := periph_total_of_not_load c t hload
  exact ⟨v, hv, signalAt_periph hc h.signal hv,
    hj ▸ periph_shifted hc h.signal hload h.shifted (hj ▸ hbit) hv⟩

/-- A load point that takes a word begins its slot. -/
theorem inSlot_of_load (hc : c.Legal) (h : SignalAt c k u) (hk : k + 1 = c.loadCycle s)
    (hv : periph c t u = .ok (shiftOut c (takeWord c (clocked c u)))) :
    InSlot c u.txbuf s 0 (shiftOut c (takeWord c (clocked c u))) where
  signal := hk ▸ signalAt_periph hc h hv
  shifted := by rw [Nat.zero_div]; exact takeWord_shifted hc u

/-- Before the first load point there is no bit boundary (R105). -/
theorem SignalAt.not_boundary_before_first_load (hc : c.Legal) (h : SignalAt c k u) (hk : k + 1 < c.loadCycle 0) :
    (bclkUnit c u).2 = false := by
  rw [← Bool.not_eq_true, bclkUnit_boundary_iff hc h]
  rintro ⟨hepoch, hd⟩
  have hbit := Nat.le_of_dvd (Nat.succ_pos _) hd
  rw [Config.loadCycle, Nat.zero_mul, Nat.zero_add, Nat.mul_one] at hk
  omega

/-- A word that waits in the buffer for a load point (R94, R106). -/
structure Waiting (c : Config) (word : Half) (x k : Nat) (u : ClockUnit) : Prop where
  signal : SignalAt c k u
  txbuf : u.txbuf = word
  txfull : u.txfull = true
  txt : u.txt = some x

/-- Off a load point the word goes on waiting (R101). -/
theorem Waiting.periph (hc : c.Legal) (h : Waiting c word x k u) (hk : ∀ q, k + 1 ≠ c.loadCycle q) (t : Nat) :
    ∃ v, periph c t u = .ok v ∧ Waiting c word x (k + 1) v := by
  have hload : ¬ atLoadPoint c u := fun hload =>
    let ⟨q, hq⟩ := (atLoadPoint_iff hc h.signal).mp hload
    hk q hq
  obtain ⟨v, hv⟩ := periph_total_of_not_load c t hload
  have hu := periph_sameUnit hv
  exact ⟨v, hv, {
    signal := signalAt_periph hc h.signal hv
    txbuf := hu.txbuf.trans h.txbuf
    txfull := ((periph_txfull hv).resolve_right fun hl => hload hl.2).trans h.txfull
    txt := hu.txt.trans h.txt }⟩

/-- A waiting word reaches the next load point, and the run through it ends as that one peripheral step does (R106). -/
theorem Waiting.run_to_load (hc : c.Legal) (h : Waiting c word x k u) (hk : k < c.loadCycle s)
    (hpast : ∀ q, q < s → c.loadCycle q ≤ k) (r : Nat) :
    ∃ v, Waiting c word x (c.loadCycle s - 1) v ∧ atLoadPoint c v ∧
      ∀ w, periphRun c (r + k + 1) (c.loadCycle s - k) u = .ok w ↔ Machine.periph c (r + c.loadCycle s) v = .ok w := by
  obtain ⟨n, hn⟩ : ∃ n, c.loadCycle s = k + n + 1 := ⟨c.loadCycle s - k - 1, by omega⟩
  have hquiet : ∀ m, m < n → ∀ q, k + m + 1 ≠ c.loadCycle q := fun m hm q hq => by
    rcases Nat.lt_or_ge q s with hqs | hqs
    · have := hpast q hqs
      omega
    · have := c.loadCycle_mono hqs
      omega
  obtain ⟨v, hv, hw⟩ := periphRun_induct (P := fun m => Waiting c word x (k + m)) (t := r + k + 1) h
    (fun m v hm hw => hw.periph hc (hquiet m hm) _) n le_rfl
  have hload : atLoadPoint c v := (atLoadPoint_iff hc hw.signal).mpr ⟨s, hn.symm⟩
  refine ⟨v, by rwa [show c.loadCycle s - 1 = k + n by omega], hload, fun w => ?_⟩
  rw [show c.loadCycle s - k = n + 1 by omega, periphRun_add, show r + c.loadCycle s = r + k + 1 + n by omega]
  simp [hv, periphRun_one]

end

/-- Settles O42: the load point begins the slot, and `InSlot` is kept through its other cycles. -/
theorem slotCarriesItsWordMsbFirst : Obligations.SlotCarriesItsWordMsbFirst := by
  intro c k t n x u hw h hload hfull htxt hx hn
  have hc := Config.legal_of_wellFormed hw
  obtain ⟨s, hk⟩ := (atLoadPoint_iff hc h).mp hload
  have hfirst := periph_of_load_in_time hload hfull htxt hx
  obtain ⟨v, hv, hslot⟩ := periphRun_induct (P := InSlot c u.txbuf s) (t := t + 1) (N := c.samplePeriod - 1)
    (inSlot_of_load hc h hk hfirst) (fun m v hm hv => hv.periph hc (by omega) _) n (by omega)
  exact ⟨v, periphRun_succ.mpr ⟨_, hfirst, hv⟩, hslot.shifted.sd⟩

/-- Settles O43: the first load point is the first bit boundary, and off a bit boundary SD stays. -/
theorem sdIsLowBeforeTheFirstLoad : Obligations.SdIsLowBeforeTheFirstLoad := by
  intro c r n u v hw hu hn hv
  have hc := Config.legal_of_wellFormed hw
  have hlow : (releaseUnit r u).sd = false := by
    obtain ⟨b, f, x, rfl⟩ := hu
    rfl
  have hstep (m : Nat) (w : ClockUnit) (hm : m < n) (h : SignalAt c m w ∧ w.sd = false) :
      ∃ w', periph c (r + 1 + m) w = .ok w' ∧ SignalAt c (m + 1) w' ∧ w'.sd = false := by
    obtain ⟨hs, hsd⟩ := h
    have hb := hs.not_boundary_before_first_load hc (by omega)
    have hp := periph_of_not_boundary (t := r + 1 + m) hs hb
    exact ⟨_, hp, signalAt_periph hc hs hp, (periph_sameData hb hp).sd.trans hsd⟩
  obtain ⟨w, hrun, -, hsd⟩ := periphRun_induct ⟨signalAt_release hc hu r, hlow⟩ hstep n le_rfl
  obtain rfl : w = v := Except.ok.inj (hrun.symm.trans hv)
  exact hsd

/-- Settles O44: the waiting word reaches slot s's load point, which takes it or raises F_SETUP; a word from before START has
waited for BIT_PERIOD by then. -/
theorem transmitWindowEndsOneBitBeforeTheLoad : Obligations.TransmitWindowEndsOneBitBeforeTheLoad := by
  refine ⟨fun c r k s x u hw h hfull htxt hk hpast => ?window, fun c r x u hw hu hfull htxt hx => ?primed⟩
  case window =>
    have hc := Config.legal_of_wellFormed hw
    have hwait : Waiting c u.txbuf x k u := ⟨h, rfl, hfull, htxt⟩
    obtain ⟨v, hv, hload, hrun⟩ := hwait.run_to_load hc hk hpast r
    simp only [hrun]
    rcases Nat.lt_or_ge (r + c.loadCycle s) (x + 2 * c.h) with hx | hx
    · simp [periph_of_load_late hload hv.txfull hv.txt hx, hx]
    · simp [periph_of_load_in_time hload hv.txfull hv.txt hx, hx]
  case primed =>
    have hc := Config.legal_of_wellFormed hw
    have hwait : Waiting c u.txbuf x 0 (releaseUnit r u) := ⟨signalAt_release hc hu r, rfl, hfull, htxt⟩
    have hbit := c.bitPeriod_le_loadCycle 0
    have hh := hc.h
    obtain ⟨v, hv, hload, hrun⟩ := hwait.run_to_load (s := 0) hc (by omega) nofun r
    have htaken := periph_of_load_in_time (t := r + c.loadCycle 0) hload hv.txfull hv.txt (by omega)
    exact ⟨_, (hrun _).mpr htaken, hv.txbuf ▸ (takeWord_shifted hc v).sd, rfl⟩

end Sys2Proof.Machine

/-! The oscillator (42_tone.md): out(e) and adv(e), its three commands, its invariant, and the phase after n advances. -/

namespace Sys2Proof

/-- TONE's word by its two fields (R72). -/
theorem wordTone_eq_wordNone_add (op : Byte) (f : Half) (a : Byte) :
    wordTone op f a = wordNone op + (f.setWidth 32 <<< 8) + a.setWidth 32 := by
  apply BitVec.eq_of_toNat_eq
  rw [BitVec.toNat_add, BitVec.toNat_add, BitVec.toNat_shiftLeft, wordTone_toNat, wordNone_toNat, BitVec.toNat_setWidth,
    BitVec.toNat_setWidth, Nat.shiftLeft_eq]
  omega

end Sys2Proof

namespace Sys2Proof.Machine

/-! ### The output and the advance (R112, R113) -/

section
variable {c : Config} {a : Byte} {inc e : Word}

theorem toInt_amplitude (a : Byte) : (amplitude a).toInt = a.toInt :=
  BitVec.toInt_signExtend_of_le (by decide)

/-- No 8-bit amplitude is the one 16-bit value that has no negation, -2^15 (R112). -/
theorem toInt_neg_amplitude (a : Byte) : (-amplitude a).toInt = -a.toInt := by
  have hmin : amplitude a ≠ BitVec.intMin 16 := fun h => by
    have hge : -2 ^ 7 ≤ a.toInt := BitVec.le_toInt a
    rw [← toInt_amplitude, h] at hge
    exact absurd hge (by decide)
  rw [BitVec.toInt_neg_of_ne_intMin hmin, toInt_amplitude]

theorem waveOut_first_half (h : e.toNat < c.fCpu / 2) : waveOut c a e = amplitude a :=
  if_pos h

theorem waveOut_second_half_negate (h : c.fCpu / 2 ≤ e.toNat) (hn : c.waveNeg = .negate) :
    waveOut c a e = -amplitude a := by
  rw [waveOut, if_neg h.not_gt, hn]

theorem waveOut_second_half_zero (h : c.fCpu / 2 ≤ e.toNat) (hn : c.waveNeg = .zero) : waveOut c a e = 0 := by
  rw [waveOut, if_neg h.not_gt, hn]

/-- The sum, or the sum less P, fits in a word: P is at most 2^31, and a phase below P leaves less than the increment. -/
theorem toNat_waveAdvance (hc : c.Legal) (he : e.toNat < c.fCpu) :
    (waveAdvance c inc e).toNat =
      if c.fCpu ≤ e.toNat + inc.toNat then e.toNat + inc.toNat - c.fCpu else e.toNat + inc.toNat := by
  have hp := hc.p
  unfold waveAdvance
  split_ifs <;> exact Nat.mod_eq_of_lt (by omega)

/-- Wrapping once at P is reduction modulo P. -/
theorem toNat_waveAdvance_eq_mod (hc : c.Legal) (hi : inc.toNat < c.fCpu) (he : e.toNat < c.fCpu) :
    (waveAdvance c inc e).toNat = (e.toNat + inc.toNat) % c.fCpu := by
  rw [toNat_waveAdvance hc he, Nat.add_mod_eq_ite, Nat.mod_eq_of_lt hi, Nat.mod_eq_of_lt he]

theorem waveAdvance_lt (hc : c.Legal) (hi : inc.toNat < c.fCpu) (he : e.toNat < c.fCpu) :
    (waveAdvance c inc e).toNat < c.fCpu := by
  rw [toNat_waveAdvance_eq_mod hc hi he]
  exact Nat.mod_lt _ (by omega)

end

/-- Settles O45: the three cases of out(e), as integers. -/
theorem outputIsTheAmplitudeInTheFirstHalf : Obligations.OutputIsTheAmplitudeInTheFirstHalf := fun _ a _ =>
  ⟨fun h => waveOut_first_half h ▸ toInt_amplitude a,
    fun h hn => waveOut_second_half_negate h hn ▸ toInt_neg_amplitude a, waveOut_second_half_zero⟩

/-- Settles O46: the exact sum, and its bound by way of the remainder. -/
theorem advanceWrapsOnceAtThePeriod : Obligations.AdvanceWrapsOnceAtThePeriod := fun _ _ _ hw hi he =>
  have hc := Config.legal_of_wellFormed hw
  ⟨toNat_waveAdvance hc he, waveAdvance_lt hc hi he⟩

/-! ### The three commands (R114 to R116) -/

section
variable {c : Config} {f : Half} {a : Byte} {s : State} {i : Instr}

theorem exec_tone_in_range (h : toneIncrement s.cfg f < s.cfg.fCpu) :
    exec (.tone f a) s = .next (advancePc (setOsc (newWave s.cfg f a) s)) :=
  congrArg complete (if_neg h.not_ge)

theorem exec_tone_out_of_range (h : s.cfg.fCpu ≤ toneIncrement s.cfg f) :
    exec (.tone f a) s = .fault (.raised (.toneRange f (toneIncrement s.cfg f))) :=
  congrArg complete (if_pos h)

theorem exec_getf_of_valid (h : s.osc.tvalid = true) : exec .getf s = .next (advancePc (setSreg s.osc.tcur s)) :=
  congrArg complete (if_pos h)

theorem exec_getf_of_unset (h : s.osc.tvalid = false) : exec .getf s = .fault (.raised (.state .getf)) :=
  congrArg complete (if_neg (by simp [h]))

theorem exec_getn_of_valid (h : s.osc.tvalid = true) :
    exec .getn s = .next (advancePc (setOsc (advanceWave s.cfg s.osc) (setSreg (nextSample s.cfg s.osc) s))) :=
  congrArg complete (if_pos h)

theorem exec_getn_of_unset (h : s.osc.tvalid = false) : exec .getn s = .fault (.raised (.state .getn)) :=
  congrArg complete (if_neg (by simp [h]))

/-- A tone begins in its first half-period, with its amplitude (R114). -/
theorem newWave_eq (hp : 2 ≤ c.fCpu) (f : Half) (a : Byte) :
    newWave c f a = ⟨BitVec.ofNat 32 (toneIncrement c f), 0, a, amplitude a, true⟩ := by
  have hfirst : (0 : Word).toNat < c.fCpu / 2 := show 0 < c.fCpu / 2 by omega
  rw [newWave, waveOut_first_half hfirst]

/-- An outcome with the clock/framing unit of its next state, if it has one, replaced. -/
def replaceUnit (u : ClockUnit) : Host.Outcome State Fault Refusal → Host.Outcome State Fault Refusal
  | .next t => .next (setClk u t)
  | .fault m => .fault m
  | .refused r => .refused r

/-- An oscillator command carries the unit through unread (R124). -/
theorem exec_setClk_of_oscillator (hi : i = .getf ∨ i = .getn ∨ ∃ f a, i = .tone f a) (u : ClockUnit) (s : State) :
    exec i (setClk u s) = replaceUnit u (exec i s) := by
  rcases hi with rfl | rfl | ⟨f, a, rfl⟩
  · cases h : s.osc.tvalid with
    | true => rw [exec_getf_of_valid h, exec_getf_of_valid (s := setClk u s) h]; rfl
    | false => rw [exec_getf_of_unset h, exec_getf_of_unset (s := setClk u s) h]; rfl
  · cases h : s.osc.tvalid with
    | true => rw [exec_getn_of_valid h, exec_getn_of_valid (s := setClk u s) h]; rfl
    | false => rw [exec_getn_of_unset h, exec_getn_of_unset (s := setClk u s) h]; rfl
  · rcases Nat.lt_or_ge (toneIncrement s.cfg f) s.cfg.fCpu with h | h
    · rw [exec_tone_in_range h, exec_tone_in_range (s := setClk u s) h]; rfl
    · rw [exec_tone_out_of_range h, exec_tone_out_of_range (s := setClk u s) h]; rfl

end

/-- Settles O13: the word by its fields, and the two outcomes of the range check. -/
theorem toneCreatesTheWaveState : Obligations.ToneCreatesTheWaveState := fun f a s hp =>
  ⟨wordTone_eq_wordNone_add 0x20 f a, rfl,
    fun h => by rw [exec_tone_in_range h, newWave_eq hp]; rfl, exec_tone_out_of_range⟩

/-- Settles O14: the two outcomes of the check of TVALID. -/
theorem getfReturnsTheCurrentSample : Obligations.GetfReturnsTheCurrentSample := fun _ =>
  ⟨rfl, rfl, exec_getf_of_valid, exec_getf_of_unset⟩

/-- Settles O15: the two outcomes of the check of TVALID. -/
theorem getnAdvancesThePhase : Obligations.GetnAdvancesThePhase := fun _ =>
  ⟨rfl, rfl, exec_getn_of_valid, exec_getn_of_unset⟩

/-- Settles O31: the unit passes through unread, whatever the outcome. -/
theorem oscillatorIgnoresTheClockUnit : Obligations.OscillatorIgnoresTheClockUnit := fun s u _ hi =>
  have hu := exec_setClk_of_oscillator hi u s
  ⟨fun _ h => hu.trans (congrArg (replaceUnit u) h), fun _ h => hu.trans (congrArg (replaceUnit u) h)⟩

/-! ### The oscillator's invariant (R117, R118) -/

/-- The oscillator after a TONE: the increment and the phase are below P, and the sample is out of the phase. -/
structure Toned (c : Config) (o : Oscillator) : Prop where
  valid : o.tvalid = true
  increment : o.tinc.toNat < c.fCpu
  elapsed : o.telap.toNat < c.fCpu
  current : o.tcur = waveOut c o.tamp o.telap

section
variable {c : Config} {f : Half} {a : Byte} {o : Oscillator} {s t : State} {i : Instr}

theorem oscillatorInv_iff :
    OscillatorInv s ↔ s.cfg.WellFormed = true ∧ (s.osc = Oscillator.initial ∨ Toned s.cfg s.osc) := by
  constructor
  · intro h
    cases hv : s.osc.tvalid with
    | false => exact ⟨h.config, .inl (h.unset hv)⟩
    | true => exact ⟨h.config, .inr ⟨hv, h.increment hv, h.elapsed hv, h.current hv⟩⟩
  · rintro ⟨hc, ho | ho⟩
    · have hv : ¬ s.osc.tvalid = true := by simp [ho, Oscillator.initial]
      exact ⟨hc, fun _ => ho, (absurd · hv), (absurd · hv), (absurd · hv)⟩
    · exact ⟨hc, fun hv => absurd (hv.symm.trans ho.valid) Bool.false_ne_true, fun _ => ho.increment, fun _ => ho.elapsed,
        fun _ => ho.current⟩

/-- An increment in range fits in TINC. -/
theorem newWave_tinc (hc : c.Legal) (hf : toneIncrement c f < c.fCpu) :
    (newWave c f a).tinc.toNat = toneIncrement c f :=
  Nat.mod_eq_of_lt (by have := hc.p; omega)

theorem toned_newWave (hc : c.Legal) (hf : toneIncrement c f < c.fCpu) : Toned c (newWave c f a) where
  valid := rfl
  increment := newWave_tinc hc hf ▸ hf
  elapsed := show 0 < c.fCpu by omega
  current := rfl

theorem Toned.advanceWave (hc : c.Legal) (h : Toned c o) : Toned c (advanceWave c o) where
  valid := h.valid
  increment := h.increment
  elapsed := waveAdvance_lt hc h.increment h.elapsed
  current := rfl

/-- GETN advances a tone, TONE begins one in range, and no other command writes the oscillator. -/
theorem Effect.toned (he : Effect i s t) (hc : s.cfg.Legal) (h : s.osc = Oscillator.initial ∨ Toned s.cfg s.osc) :
    t.osc = Oscillator.initial ∨ Toned s.cfg t.osc := by
  rcases he.osc with hk | ⟨rfl, ho⟩ | ⟨f, a, rfl, ho⟩
  · rwa [hk]
  · obtain ⟨hv, -⟩ := he
    rcases h with hi | hi
    · rw [hi] at hv; cases hv
    · exact .inr (ho ▸ hi.advanceWave hc)
  · obtain ⟨hf, -⟩ := he
    exact .inr (ho ▸ toned_newWave hc hf)

end

/-- Settles O34: a step leaves the oscillator as it was, or as the cycle's command leaves it. -/
theorem oscillatorInvKept : Obligations.OscillatorInvKept := by
  intro s t h hstep
  obtain ⟨hw, ho⟩ := oscillatorInv_iff.mp h
  obtain ⟨hcfg, -⟩ := configurationAndCommandMemoryAreFixed s t hstep
  rw [oscillatorInv_iff, hcfg]
  refine ⟨hw, ?_⟩
  cases step_effect hstep with
  | none hr _ => rwa [hr.osc]
  | command i p e _ hr hp _ _ he ht =>
    rw [← hp, ← hr.osc] at ho
    subst ht
    rw [← hp]
    exact (exec_next he).2.toned (hp ▸ Config.legal_of_wellFormed hw) ho

/-! ### The phase after n advances (R119) -/

/-- The oscillator n advances after a TONE of increment `inc` and amplitude `a`. -/
structure AtPhase (c : Config) (inc : Nat) (a : Byte) (n : Nat) (o : Oscillator) : Prop where
  toned : Toned c o
  tinc : o.tinc.toNat = inc
  tamp : o.tamp = a
  telap : o.telap.toNat = n * inc % c.fCpu

section
variable {c : Config} {f : Half} {a : Byte} {inc n : Nat} {o : Oscillator}

theorem atPhase_newWave (hc : c.Legal) (hf : toneIncrement c f < c.fCpu) (a : Byte) :
    AtPhase c (toneIncrement c f) a 0 (newWave c f a) where
  toned := toned_newWave hc hf
  tinc := newWave_tinc hc hf
  tamp := rfl
  telap := by rw [Nat.zero_mul, Nat.zero_mod]; rfl

theorem AtPhase.advanceWave (hc : c.Legal) (h : AtPhase c inc a n o) : AtPhase c inc a (n + 1) (advanceWave c o) where
  toned := h.toned.advanceWave hc
  tinc := h.tinc
  tamp := h.tamp
  telap := calc
    (waveAdvance c o.tinc o.telap).toNat
    _ = (o.telap.toNat + o.tinc.toNat) % c.fCpu := toNat_waveAdvance_eq_mod hc h.toned.increment h.toned.elapsed
    _ = (n + 1) * inc % c.fCpu := by rw [h.telap, h.tinc, Nat.mod_add_mod, Nat.succ_mul]

theorem AtPhase.tcur (h : AtPhase c inc a n o) : o.tcur = waveOut c a (BitVec.ofNat 32 (n * inc % c.fCpu)) := by
  rw [h.toned.current, h.tamp, ← h.telap, BitVec.ofNat_toNat, BitVec.setWidth_eq]

theorem atPhase_iterate (hc : c.Legal) (hf : toneIncrement c f < c.fCpu) (a : Byte) (n : Nat) :
    AtPhase c (toneIncrement c f) a n ((advanceWave c)^[n] (newWave c f a)) := by
  induction n with
  | zero => exact atPhase_newWave hc hf a
  | succ n ih => rw [Function.iterate_succ_apply']; exact ih.advanceWave hc

/-- GETN's sample is of the state after the advance, or with WAVE_LAT = 1 of the state before it (R116). -/
theorem AtPhase.nextSample (hc : c.Legal) (h : AtPhase c inc a n o) :
    nextSample c o = waveOut c a (BitVec.ofNat 32 ((if c.waveLat then n else n + 1) * inc % c.fCpu)) := by
  unfold Machine.nextSample
  split_ifs
  · exact h.tcur
  · exact (h.advanceWave hc).tcur

end

/-- Settles O47: each advance adds the increment modulo P, by induction on n, and the sample follows the phase. -/
theorem nthSampleFollowsThePhase : Obligations.NthSampleFollowsThePhase := fun _ _ a n hw hf =>
  have hc := Config.legal_of_wellFormed hw
  have h := atPhase_iterate hc hf a n
  ⟨h.telap, h.nextSample hc⟩

end Sys2Proof.Machine

/-! The sequencer (43_sequencer.md): its loop and halt commands, and the run of a DJNZ loop of delay commands. -/

namespace Sys2Proof.Machine

/-! ### The four commands (R126 to R129) -/

/-- The word DJNZ goes to, by the count it leaves (R127). -/
def djnzNext (lc t pc : Half) : Half := if lc = 0 then pc + 1 else t

section
variable {lc t pc : Half} {n : Nat}

@[simp] theorem djnzNext_zero : djnzNext 0 t pc = pc + 1 := rfl

theorem djnzNext_of_ne_zero (h : lc ≠ 0) : djnzNext lc t pc = t := if_neg h

/-- DJNZ counts LC down and goes where the new count says; it writes nothing else (R127). -/
theorem exec_djnz (t : Half) (s : State) : exec (.djnz t) s =
    .next (setPc (djnzNext (s.seq.lc - 1) t s.seq.pc) (setLc (s.seq.lc - 1) s)) := by
  unfold djnzNext
  rw [exec, execDjnz]
  split_ifs <;> rfl

/-- The count is taken modulo 2^16, so that 65536, which the register holds as 0, counts down as any other (R127). -/
theorem ofNat_succ_sub_one (n : Nat) : BitVec.ofNat 16 (n + 1) - 1 = BitVec.ofNat 16 n := by
  rw [BitVec.ofNat_add]
  exact BitVec.add_sub_cancel _ _

theorem ofNat_succ_ne_zero (h : n + 1 < 65536) : BitVec.ofNat 16 (n + 1) ≠ 0 := by
  intro h0
  have hn := congrArg BitVec.toNat h0
  rw [BitVec.toNat_ofNat, Nat.mod_eq_of_lt h] at hn
  exact Nat.succ_ne_zero n hn

end

/-- Settles O16: the word by its fields, and the one register LDLC writes before it falls through. -/
theorem ldlcLoadsTheLoopCounter : Obligations.LdlcLoadsTheLoopCounter := fun v _ =>
  ⟨wordU16_eq_wordNone_add 0x30 v, rfl, rfl⟩

/-- Settles O17: the word by its fields, and the count and the next word in the three ranges of LC. -/
theorem djnzDecrementsAndBranches : Obligations.DjnzDecrementsAndBranches := by
  intro t s
  refine ⟨wordU16_eq_wordNone_add 0x31 t, rfl, fun h1 => ?fallThrough, fun h0 => ?wrap, fun h2 => ?branch⟩
  case fallThrough =>
    have hzero : (1 : Half) - 1 = 0 := by decide
    rw [exec_djnz, h1, hzero, djnzNext_zero]
    rfl
  case wrap =>
    have hwrap : (0 : Half) - 1 = 65535 := by decide
    rw [exec_djnz, h0, hwrap, djnzNext_of_ne_zero (by decide)]
    rfl
  case branch =>
    obtain ⟨n, hn⟩ : ∃ n, s.seq.lc.toNat = n + 2 := ⟨s.seq.lc.toNat - 2, by omega⟩
    have hlc : s.seq.lc = BitVec.ofNat 16 (n + 1 + 1) := by rw [← hn, BitVec.ofNat_toNat, BitVec.setWidth_eq]
    have hlt : n + 1 < 65536 := by have := s.seq.lc.isLt; omega
    rw [exec_djnz, hn, hlc, ofNat_succ_sub_one, djnzNext_of_ne_zero (ofNat_succ_ne_zero hlt)]
    rfl

/-- Settles O18: the word by its fields, and the target as it stands (R130). -/
theorem jmpSetsPc : Obligations.JmpSetsPc := fun t _ => ⟨wordU16_eq_wordNone_add 0x32 t, rfl, rfl⟩

/-- Settles O19: HALT's word and cost, and HALTED as the one field it writes. -/
theorem haltEndsTheRun : Obligations.HaltEndsTheRun := fun _ => ⟨rfl, rfl, rfl⟩

/-! ### Running a loop of delay commands (R131) -/

/-- The state after `cycles` cycles of a loop, at word `pc` with the count at `lc` and the unit at `u` (R131). -/
def afterLoop (lc pc : Half) (cycles : Nat) (u : ClockUnit) (s : State) : State :=
  { s with
    seq := { s.seq with lc := lc, pc := pc }
    clk := u
    cyc := s.cyc + cycles }

/-- A loop of delay commands, at its first word and where no stall can fall (R131). -/
structure AtLoop (body : List Instr) (s : State) : Prop where
  boundary : Boundary s
  idle : s.seq.busy = 0
  noStall : s.seq.i = false
  legal : s.cfg.WellFormed = true
  delays : ∀ i ∈ body, isDelay i
  loaded : Loaded s s.seq.pc.toNat (body ++ [.djnz s.seq.pc])

section
variable {s : State} {body is js : List Instr} {t lc : Half} {c : Nat} {u v : ClockUnit}

theorem afterLoop_afterLoop (lc1 pc1 lc2 pc2 : Half) (c1 c2 : Nat) (u v : ClockUnit) (s : State) :
    afterLoop lc2 pc2 c2 v (afterLoop lc1 pc1 c1 u s) = afterLoop lc2 pc2 (c1 + c2) v s := by
  ext <;> simp [afterLoop, Nat.add_assoc]

/-- The first part of a loaded list is loaded where the list is. -/
theorem Loaded.append_left {b : Nat} (h : Loaded s b (is ++ js)) : Loaded s b is := fun j k hj =>
  h j k (List.getElem?_append_left (List.getElem?_eq_some_iff.mp hj).1 ▸ hj)

/-- The second part of a loaded list is loaded where PC stands once the first has run. PC wraps only at the end of a full
command memory, where no command is left (R16, R47). -/
theorem Loaded.append_right (h : Loaded s s.seq.pc.toNat (is ++ js)) (hw : s.cfg.progWords ≤ 65536) :
    Loaded (afterDelay is.length c u s) (afterDelay is.length c u s).seq.pc.toNat js := by
  intro j k hj
  obtain ⟨hlt, hread⟩ := h (is.length + j) k (by rwa [List.getElem?_append_right (by omega), Nat.add_sub_cancel_left])
  have hpc : (s.seq.pc + BitVec.ofNat 16 is.length).toNat + j = s.seq.pc.toNat + (is.length + j) := by
    rw [BitVec.toNat_add, BitVec.toNat_ofNat]
    omega
  exact hpc ▸ ⟨hlt, hread⟩

/-- A branch back leaves the loop at its first word again. -/
theorem AtLoop.again (h : AtLoop body s) (lc : Half) (c : Nat) (u : ClockUnit) :
    AtLoop body (afterLoop lc s.seq.pc c u s) :=
  ⟨h.boundary, h.idle, h.noStall, h.legal, h.delays, h.loaded⟩

/-- DJNZ, issued where no stall can fall, occupies its cost and writes LC and PC only (R127). -/
theorem run_djnz (hb : Boundary s) (hbusy : s.seq.busy = 0) (hi : s.seq.i = false) (hc : 1 ≤ s.cfg.cDjnz)
    (hf : fetchDecode s = .ok (.djnz t)) (hp : periphRun s.cfg s.cyc s.cfg.cDjnz s.clk = .ok u) :
    run s.cfg.cDjnz s =
      .next (afterLoop (s.seq.lc - 1) (djnzNext (s.seq.lc - 1) t s.seq.pc) s.cfg.cDjnz u s) := by
  have hcyc : s.cyc + (s.cfg.cDjnz - 1) + 1 = s.cyc + s.cfg.cDjnz := by omega
  refine ((commandRunsForExactlyItsCost s (.djnz t) u hb (.inl hi) hf hc hp _ rfl).1 _ (exec_djnz t _)).trans ?_
  congr 1
  ext <;> simp [afterLoop, cost, hb.2.2, hbusy, hi, hcyc]

/-- One pass of the loop: the body, and the DJNZ behind it, which counts LC down (R131). -/
theorem AtLoop.run_pass (h : AtLoop body s)
    (hp : periphRun s.cfg s.cyc (totalCost s.cfg body + s.cfg.cDjnz) s.clk = .ok u) :
    run (totalCost s.cfg body + s.cfg.cDjnz) s = .next (afterLoop (s.seq.lc - 1)
      (djnzNext (s.seq.lc - 1) s.seq.pc (s.seq.pc + BitVec.ofNat 16 body.length))
      (totalCost s.cfg body + s.cfg.cDjnz) u s) := by
  obtain ⟨v, hv, hrest⟩ := (periphRun_add _ _ _ _ _ _).mp hp
  have hw := (Config.legal_of_wellFormed h.legal).mem.2
  have hbody := run_delays body s h.boundary h.idle h.noStall hw h.delays h.loaded.append_left hv
  have hfetch := (h.loaded.append_right (c := totalCost s.cfg body) (u := v) hw).fetchDecode
  rw [run_add _ _ _ _ hbody]
  refine (run_djnz (s := afterDelay body.length (totalCost s.cfg body) v s) h.boundary h.idle h.noStall
    (Laws.Cost.djnz s.seq.pc s.cfg h.legal) hfetch hrest).trans (congrArg _ ?_)
  ext <;> simp [afterLoop, afterDelay, Nat.add_assoc]

/-- The loop entered with n + 1 passes to go takes them all, by induction on n: the last pass falls through, every
other one branches back with a pass less to go (R131). -/
theorem AtLoop.run_passes : ∀ (n : Nat) (s : State), AtLoop body s → s.seq.lc = BitVec.ofNat 16 (n + 1) → n < 65536 →
    periphRun s.cfg s.cyc ((n + 1) * (totalCost s.cfg body + s.cfg.cDjnz)) s.clk = .ok u →
    run ((n + 1) * (totalCost s.cfg body + s.cfg.cDjnz)) s = .next (afterLoop 0
      (s.seq.pc + BitVec.ofNat 16 (body.length + 1)) ((n + 1) * (totalCost s.cfg body + s.cfg.cDjnz)) u s)
  | 0, s, h, hlc, _, hp => by
    have hzero : s.seq.lc - 1 = 0 := by rw [hlc]; rfl
    rw [Nat.one_mul] at hp ⊢
    rw [h.run_pass hp, hzero, djnzNext_zero, BitVec.add_assoc, BitVec.ofNat_add]
    rfl
  | n + 1, s, h, hlc, hn, hp => by
    have hcount : s.seq.lc - 1 = BitVec.ofNat 16 (n + 1) := by rw [hlc, ofNat_succ_sub_one]
    rw [Nat.succ_mul, Nat.add_comm] at hp ⊢
    obtain ⟨v, hv, hrest⟩ := (periphRun_add _ _ _ _ _ _).mp hp
    have hfirst := h.run_pass hv
    rw [hcount, djnzNext_of_ne_zero (ofNat_succ_ne_zero hn)] at hfirst
    rw [run_add _ _ _ _ hfirst]
    refine (AtLoop.run_passes n _ (h.again _ _ v) rfl (by omega) hrest).trans (congrArg _ ?_)
    exact afterLoop_afterLoop ..

end

/-- Settles O51: LC is the number of passes to go modulo 2^16, and every pass takes B + C_DJNZ cycles. -/
theorem loopTakesLcTimesItsCost : Obligations.LoopTakesLcTimesItsCost := by
  intro s body u hb hbusy hi hw hd hl v T hv hT hp
  obtain ⟨hpos, hle⟩ : 1 ≤ v ∧ v ≤ 65536 := hv ▸ Laws.Cost.dly16Iterations_pos s.seq.lc
  obtain ⟨n, rfl⟩ : ∃ n, v = n + 1 := ⟨v - 1, by omega⟩
  have hlc : s.seq.lc = BitVec.ofNat 16 (n + 1) := by
    rw [hv]
    split_ifs with h0
    · exact h0
    · rw [BitVec.ofNat_toNat, BitVec.setWidth_eq]
  subst hT
  exact AtLoop.run_passes n s ⟨hb, hbusy, hi, hw, hd, hl⟩ hlc (by omega) hp

end Sys2Proof.Machine

namespace Sys2Proof.Machine

/-! ### Precise faults (R136)

Each step of a cycle records its fault on the state the step before it left, which is what makes the fault precise. -/

section
variable {s : State} {i : Instr} {u : ClockUnit} {m : ModelFault}

/-- A fetch past the command memory raises F_FETCH before any word is read (R42, R137). -/
theorem fetchDecode_past_end (hp : s.cfg.progWords ≤ s.seq.pc.toNat) : fetchDecode s = .error (.fetch s.seq.pc) := by
  rw [fetchDecode, if_pos hp]

/-- A stalled cycle is the peripheral's cycle on the state with the draw counted (R44). -/
theorem cycleWith_stall (hb : Boundary s) (hi : s.seq.i = true) :
    cycleWith true s = stepTwoOn { s with draws := s.draws + 1 } := by
  obtain ⟨hf, hh, hc⟩ := hb
  have hdraw : takeDraw s = { s with draws := s.draws + 1 } := by simp [takeDraw, drawsNow, hc, hi]
  rw [cycleWith_of_not_ended hf hh, runningCycle, stepOne_stall hc hi, hdraw]

/-- The peripheral's fault in the cycle of an issue is recorded on the state the issue left (R42, R136). -/
theorem step_issue_periph_fault (hb : Boundary s) (hn : NoStall s) (hf : fetchDecode s = .ok i)
    (hp : periph s.cfg s.cyc s.clk = .error m) :
    step s = .next (recordFault m (beginCommand i (takeDraw s))) :=
  (step_issue hb hn hf).trans (stepTwoOn_fault (by simpa using hp))

/-- A command's fault is recorded on the state the peripheral step left (R136, log 11). -/
theorem step_inside_raised (h1 : s.fault = none) (h2 : s.seq.halted = false) (h3 : s.seq.cur = some i)
    (hb : s.seq.busy ≤ 1) (hp : periph s.cfg s.cyc s.clk = .ok u)
    (he : exec i (setClk u s) = .fault (.raised m)) : step s = .next (recordFault m (setClk u s)) :=
  (step_inside_effect h1 h2 h3 hp hb).trans (congrArg (settleEffect (setClk u s)) he)

/-- The peripheral's fault inside a command is recorded on the state the cycle began with (R136). -/
theorem step_inside_periph_fault (h1 : s.fault = none) (h2 : s.seq.halted = false) (h3 : s.seq.cur = some i)
    (hp : periph s.cfg s.cyc s.clk = .error m) : step s = .next (recordFault m s) :=
  (step_inside h1 h2 h3).trans (stepTwoOn_fault hp)

end

/-- Settles O25: a fault of the fetch, of the peripheral step (in a stall, at an issue, inside a command) and of a
command's effect, each recorded on the state the steps before it left. -/
theorem faultsArePrecise : Obligations.FaultsArePrecise := by
  refine ⟨fun s hb hn hp => ?pastEnd, fun s m hb hn hf => ?fetch, fun s m hb hi hp => ?stall,
    fun s i m hb hn hf hp => ?issue, fun s i u m h1 h2 h3 hbusy hp he => ?effect, fun s i m h1 h2 h3 hp => ?inside⟩
  case pastEnd => exact step_fetch_fault hb hn (fetchDecode_past_end hp)
  case fetch => exact step_fetch_fault hb hn hf
  case stall => exact (cycleWith_stall hb hi).trans (stepTwoOn_fault hp)
  case issue =>
    rw [step_issue_periph_fault hb hn hf hp, beginCommand_takeDraw hb.2.2]
    rfl
  case effect => exact step_inside_raised h1 h2 h3 hbusy.le hp he
  case inside => exact step_inside_periph_fault h1 h2 h3 hp

end Sys2Proof.Machine
